-- ==== Sys2Proof/Word.lean ====
section
/-! DEFINITION. The word types of the block (00_scope.md R5, R7; 10_state.md R20) and `wrap_32`. -/

namespace Sys2Proof

/-- A register, an event word, a payload word: `XLEN` = 32 bits (R5, R20, R70). -/
abbrev Word := BitVec 32

/-- The 24-bit immediate of an event word (R70). -/
abbrev Imm := BitVec 24

/-- One audio sample, `SAMPLE_BITS` = 24 (R5). The block never reads a sign into it (R73). -/
abbrev Sample := BitVec 24

/-- One buffer word, `SLOT_BITS` = 16 (R5). -/
abbrev Slot := BitVec 16

/-- One byte on the USB side (R56, R95). -/
abbrev Byte := BitVec 8

/-- `wrap_32(z)` of R7: the word whose unsigned value is `z mod 2^32`, for any integer `z`. -/
def wrap32 (z : Int) : Word := BitVec.ofInt 32 z

end Sys2Proof
end

