-- ==== Sys2Proof/Syntax.lean ====
section
/-! DEFINITION. The events of 30_encoding.md R72 with their operands of R74: one constructor per row of the opcode table. -/

namespace Sys2Proof

/-- One stereo sample frame: a left and a right 24-bit sample (00_scope.md R10). -/
structure Frame where
  left : Sample
  right : Sample
  deriving DecidableEq, Repr

/-- The events. Where a row ignores its immediate, the immediate is still kept, so that encoding is the inverse of
decoding (R80, log 10). -/
inductive Instr where
  /-- `NOP`, R129. -/
  | nop
  /-- `PUSH` of `n` = the list's length frames, R90; the frames are the payload words of R71 and R73. -/
  | push (frames : List Frame)
  /-- `CONSUME k`, R92. -/
  | consume (k : Imm)
  /-- `SOF`, R101. -/
  | sof
  /-- `CAPTURE v`, R100. -/
  | capture (v : Imm)
  /-- `SET_ALT a`, R122. -/
  | setAlt (a : Imm)
  /-- `SET_MUTE m`, R123. -/
  | setMute (m : Imm)
  /-- `GET_MUTE`, R124; a non-zero `imm` decodes and stalls. -/
  | getMute (imm : Imm)
  /-- `GET_RATE`, R126; a non-zero `imm` decodes and stalls. -/
  | getRate (imm : Imm)
  /-- `SET_RATE r` and `SET_RATE.F r`, R125; `clkfail` is `ev[24]` (R81). -/
  | setRate (clkfail : Bool) (r : Imm)
  /-- `FORCE_INACTIVE`, R127; `imm` is ignored. -/
  | forceInactive (imm : Imm)
  /-- `REG_READ off`, R128. -/
  | regRead (off : Imm)
  /-- `CTL_BAD x`, R130; `x` is ignored. -/
  | ctlBad (x : Imm)
  /-- `CTL_UNIMPL`, the row of opcode 0x49, R131; `x` is ignored. -/
  | ctlUnimpl49 (x : Imm)
  /-- `CTL_UNIMPL`, the row of opcodes 0x4A and 0x4B, `sel` being `ev[24]`, R131. -/
  | ctlUnimpl4A (sel : BitVec 1) (x : Imm)
  /-- `CTL_UNIMPL`, the row of opcodes 0x4C to 0x4F, `sel` being `ev[25:24]`, R131. -/
  | ctlUnimpl4C (sel : BitVec 2) (x : Imm)
  /-- `FB_TX`, R102. -/
  | fbTx
  /-- `FB_INCOMPLETE`, R103. -/
  | fbIncomplete
  deriving DecidableEq, Repr

end Sys2Proof
end

