-- ==== Sys2Proof/WellFormed.lean ====
section
/-! DEFINITION. Which events have an encoding (30_encoding.md R71, R74). Every operand but the frame count is exactly as
wide as its field, so the frame count is the one check. -/

namespace Sys2Proof

/-- R71: `IMM[7:0]` holds the number of frames, 0 to 255. -/
def Instr.wf : Instr → Bool
  | .push frames => decide (frames.length ≤ 255)
  | .nop | .sof | .fbTx | .fbIncomplete => true
  | .consume _ | .capture _ | .setAlt _ | .setMute _ | .getMute _ | .getRate _ => true
  | .setRate _ _ | .forceInactive _ | .regRead _ | .ctlBad _ => true
  | .ctlUnimpl49 _ | .ctlUnimpl4A _ _ | .ctlUnimpl4C _ _ => true

end Sys2Proof
end

