-- ==== Sys2Proof/Decode.lean ====
section
/-! DEFINITION. The decoder of 30_encoding.md R80 over the opcode map of R72, total on any list of words, rejecting by
name (R75); and the encoder, written from the same map (R70, R71, R73, R74). -/

namespace Sys2Proof

/-- The rows of the opcode map of R72, by name. -/
inductive Op where
  | nop | push | consume | sof | capture | setAlt | setMute | getMute | getRate | setRate
  | forceInactive | regRead | ctlBad | ctlUnimpl49 | ctlUnimpl4A | ctlUnimpl4C | fbTx | fbIncomplete
  deriving DecidableEq, Repr

/-- One row of R72: a word `ev` selects it when `ev AND mask = pattern`. -/
structure OpRow where
  op : Op
  pattern : Word
  mask : Word
  deriving DecidableEq, Repr

/-- The opcode map of R72, in its order. -/
def opTable : List OpRow :=
  [ ⟨.nop,           0x00000000#32, 0xFFFFFFFF#32⟩,
    ⟨.push,          0x10000000#32, 0xFFFFFF00#32⟩,
    ⟨.consume,       0x20000000#32, 0xFF000000#32⟩,
    ⟨.sof,           0x30000000#32, 0xFFFFFFFF#32⟩,
    ⟨.capture,       0x31000000#32, 0xFF000000#32⟩,
    ⟨.setAlt,        0x40000000#32, 0xFF000000#32⟩,
    ⟨.setMute,       0x41000000#32, 0xFF000000#32⟩,
    ⟨.getMute,       0x42000000#32, 0xFF000000#32⟩,
    ⟨.getRate,       0x43000000#32, 0xFF000000#32⟩,
    ⟨.setRate,       0x44000000#32, 0xFE000000#32⟩,
    ⟨.forceInactive, 0x46000000#32, 0xFF000000#32⟩,
    ⟨.regRead,       0x47000000#32, 0xFF000000#32⟩,
    ⟨.ctlBad,        0x48000000#32, 0xFF000000#32⟩,
    ⟨.ctlUnimpl49,   0x49000000#32, 0xFF000000#32⟩,
    ⟨.ctlUnimpl4A,   0x4A000000#32, 0xFE000000#32⟩,
    ⟨.ctlUnimpl4C,   0x4C000000#32, 0xFC000000#32⟩,
    ⟨.fbTx,          0x50000000#32, 0xFFFFFFFF#32⟩,
    ⟨.fbIncomplete,  0x51000000#32, 0xFFFFFFFF#32⟩ ]

/-- `ev` selects the row (R72). -/
def OpRow.selects (r : OpRow) (ev : Word) : Bool := ev &&& r.mask == r.pattern

/-- The first row that `ev` selects, in table order (R80); none for an invalid word (R75). -/
def decodeOp (ev : Word) : Option Op := (opTable.find? (·.selects ev)).map (·.op)

/-- `PORT = ev[31:28]` (R70). -/
def portField (ev : Word) : BitVec 4 := ev.extractLsb' 28 4

/-- `FN = ev[27:24]` (R70). -/
def fnField (ev : Word) : BitVec 4 := ev.extractLsb' 24 4

/-- `IMM = ev[23:0]` (R70). -/
def immField (ev : Word) : Imm := ev.extractLsb' 0 24

/-- `n = IMM[7:0]`, the number of frames of a `PUSH` (R71). -/
def countField (ev : Word) : BitVec 8 := ev.extractLsb' 0 8

/-- The sample of a payload word: bits `[23:0]`; bits `[31:24]` are ignored (R73). -/
def sampleField (w : Word) : Sample := w.extractLsb' 0 24

/-- `length(ev)` of R80: `1 + 2n` for a `PUSH`, 1 otherwise. -/
def eventLength (ev : Word) : Nat :=
  match decodeOp ev with
  | some .push => 1 + 2 * (countField ev).toNat
  | _ => 1

/-- The first `n` frames of the payload, left sample before right (R71), and the words after them; none when the words
end first. -/
def takeFrames : Nat → List Word → Option (List Frame × List Word)
  | 0, ws => some ([], ws)
  | n + 1, l :: r :: ws =>
    match takeFrames n ws with
    | some (fs, rest) => some (⟨sampleField l, sampleField r⟩ :: fs, rest)
    | none => none
  | _ + 1, _ => none

/-- What the decoder answers: an event and the words after it, or a rejection by name. -/
inductive Decoded where
  | event (i : Instr) (rest : List Word)
  /-- R75: the word selects no row. -/
  | invalid (w : Word)
  /-- R75: the words end inside a `PUSH` payload; `needed` payload words, `given` present. -/
  | truncated (needed given : Nat)
  /-- There is no word at all. -/
  | empty
  deriving DecidableEq, Repr

/-- R80: decode the first event of a list of words. It reads no state of the block. -/
def decode : List Word → Decoded
  | [] => .empty
  | ev :: ws =>
    match decodeOp ev with
    | none => .invalid ev
    | some .nop => .event .nop ws
    | some .push =>
      match takeFrames (countField ev).toNat ws with
      | some (fs, rest) => .event (.push fs) rest
      | none => .truncated (2 * (countField ev).toNat) ws.length
    | some .consume => .event (.consume (immField ev)) ws
    | some .sof => .event .sof ws
    | some .capture => .event (.capture (immField ev)) ws
    | some .setAlt => .event (.setAlt (immField ev)) ws
    | some .setMute => .event (.setMute (immField ev)) ws
    | some .getMute => .event (.getMute (immField ev)) ws
    | some .getRate => .event (.getRate (immField ev)) ws
    | some .setRate => .event (.setRate (ev.getLsbD 24) (immField ev)) ws
    | some .forceInactive => .event (.forceInactive (immField ev)) ws
    | some .regRead => .event (.regRead (immField ev)) ws
    | some .ctlBad => .event (.ctlBad (immField ev)) ws
    | some .ctlUnimpl49 => .event (.ctlUnimpl49 (immField ev)) ws
    | some .ctlUnimpl4A => .event (.ctlUnimpl4A (ev.extractLsb' 24 1) (immField ev)) ws
    | some .ctlUnimpl4C => .event (.ctlUnimpl4C (ev.extractLsb' 24 2) (immField ev)) ws
    | some .fbTx => .event .fbTx ws
    | some .fbIncomplete => .event .fbIncomplete ws

/-- An event word with opcode `opc` and immediate `imm` (R70). -/
def eventWord (opc : BitVec 8) (imm : Imm) : Word := opc ++ imm

/-- The two payload words of a frame, bits `[31:24]` written as 0 (R73). -/
def frameWords (f : Frame) : List Word := [f.left.setWidth 32, f.right.setWidth 32]

/-- The words of an event: the row's opcode with the operands placed at their bits (R80), then a `PUSH`'s payload. -/
def encode : Instr → List Word
  | .nop => [eventWord 0x00#8 0]
  | .push fs => eventWord 0x10#8 (BitVec.ofNat 24 fs.length) :: fs.flatMap frameWords
  | .consume k => [eventWord 0x20#8 k]
  | .sof => [eventWord 0x30#8 0]
  | .capture v => [eventWord 0x31#8 v]
  | .setAlt a => [eventWord 0x40#8 a]
  | .setMute m => [eventWord 0x41#8 m]
  | .getMute imm => [eventWord 0x42#8 imm]
  | .getRate imm => [eventWord 0x43#8 imm]
  | .setRate clkfail r => [eventWord ((0x22#7 : BitVec 7) ++ BitVec.ofBool clkfail) r]
  | .forceInactive imm => [eventWord 0x46#8 imm]
  | .regRead off => [eventWord 0x47#8 off]
  | .ctlBad x => [eventWord 0x48#8 x]
  | .ctlUnimpl49 x => [eventWord 0x49#8 x]
  | .ctlUnimpl4A sel x => [eventWord ((0x25#7 : BitVec 7) ++ sel) x]
  | .ctlUnimpl4C sel x => [eventWord ((0x13#6 : BitVec 6) ++ sel) x]
  | .fbTx => [eventWord 0x50#8 0]
  | .fbIncomplete => [eventWord 0x51#8 0]

/-- `length` of an event (R80): the number of trace words it takes. -/
def Instr.length : Instr → Nat
  | .push fs => 1 + 2 * fs.length
  | .nop | .sof | .fbTx | .fbIncomplete => 1
  | .consume _ | .capture _ | .setAlt _ | .setMute _ | .getMute _ | .getRate _ => 1
  | .setRate _ _ | .forceInactive _ | .regRead _ | .ctlBad _ => 1
  | .ctlUnimpl49 _ | .ctlUnimpl4A _ _ | .ctlUnimpl4C _ _ => 1

/-- The words of the instruction whose bits, numbered as the opcode table numbers them, are the low `nbits` bits of `w`,
every bit above being 0: as many words as the first word's event has. -/
def tableWords (nbits w : Nat) : List Word :=
  let bits := w % 2 ^ nbits
  let first : Word := BitVec.ofNat 32 bits
  first :: (List.range (eventLength first - 1)).map fun k => BitVec.ofNat 32 (bits >>> (32 * (k + 1)))

/-- The instruction the decoder reads from those words, none where it refuses. -/
def decodeTableWord (nbits w : Nat) : Option Instr :=
  match decode (tableWords nbits w) with
  | .event i _ => some i
  | .invalid _ | .truncated _ _ | .empty => none

end Sys2Proof
end

