-- ==== Sys2Proof/Config.lean ====
section
/-! DEFINITION. The configuration record of 00_scope.md R5, its constraints, its default, the fixed constants of R5,
and the two free values of the model (log 5). -/

namespace Sys2Proof

/-- `RATES` of R5: the closed set of legal sample rates. -/
inductive SampleRate where
  | r44100
  | r48000
  | r88200
  | r96000
  deriving DecidableEq, Repr

/-- The `DEFAULT_RATE` table of R5, one nominal 10.14 value per rate; the whole table is open to re-instantiation (D11). -/
structure RateTable where
  at44100 : Nat
  at48000 : Nat
  at88200 : Nat
  at96000 : Nat
  deriving DecidableEq, Repr

/-- The two splits of a 24-bit sample into a high and a low slot that 40_buffer_ops.md R94 names (D5, log 11). -/
inductive Split where
  /-- `HI(s) = s[23:8]`, `LO(s) = s[7:0] ∥ 0x00`: the split R94 fixes. -/
  | leftJustified
  /-- `HI(s) = 0x00 ∥ s[23:16]`, `LO(s) = s[15:0]`: the alternative R94 names. -/
  | rightJustified
  deriving DecidableEq, Repr

/-- The configuration record of R5. It is carried beside the state and no step changes it (log 1). -/
structure Config where
  /-- `C`, the capacity in 16-bit words. -/
  capacity : Nat
  /-- `SCALE`, the proportional gain; OPEN (D10). -/
  scale : Nat
  /-- `SHIFT_CFG`, log2 of the averaging window. -/
  shiftCfg : Nat
  /-- `CLOSE_ADDS_CAPTURE` (D12, conflict C3). -/
  closeAddsCapture : Bool
  /-- The `DEFAULT_RATE` table. -/
  rateTable : RateTable
  /-- `RATE_INIT`. -/
  rateInit : SampleRate
  /-- `CAP_INIT`; OPEN (D28). -/
  capInit : Word
  /-- The pair `(HI, LO)` of R94. -/
  split : Split
  deriving DecidableEq, Repr

/-- `HALF = C / 2` (R5). -/
def Config.half (c : Config) : Nat := c.capacity / 2

/-- The constraint of R5 on one `DEFAULT_RATE` entry: `1024 <= v <= 2^24 - 1025`. -/
abbrev RateEntryOk (v : Nat) : Prop := 1024 ≤ v ∧ v ≤ 2 ^ 24 - 1025

/-- The constraints of R5 (U14: a record that breaks one is outside the model; claims carry this as a hypothesis). -/
structure Config.WF (c : Config) : Prop where
  /-- `C >= 8`. -/
  capMin : 8 ≤ c.capacity
  /-- `C mod 4 = 0`. -/
  capFrames : c.capacity % 4 = 0
  /-- `C < 2^24`. -/
  capMax : c.capacity < 2 ^ 24
  /-- `SCALE > 0`. -/
  scalePos : 0 < c.scale
  /-- `HALF * SCALE < 2^31`. -/
  scaleMax : c.half * c.scale < 2 ^ 31
  /-- `SHIFT_CFG <= 15`. -/
  shiftMax : c.shiftCfg ≤ 15
  entry44100 : RateEntryOk c.rateTable.at44100
  entry48000 : RateEntryOk c.rateTable.at48000
  entry88200 : RateEntryOk c.rateTable.at88200
  entry96000 : RateEntryOk c.rateTable.at96000

/-- The values of R5, with the OPEN parameters as 92_eei_decisions.md's summary gives them for the test vectors:
`SCALE` = 1 and `CAP_INIT` = 0, DESIGN CHOICE (log 2, log 3). Claims quantify over the record instead. -/
def Config.default : Config where
  capacity := 3072
  scale := 1
  shiftCfg := 2
  closeAddsCapture := true
  rateTable := { at44100 := 722861, at48000 := 786432, at88200 := 1445069, at96000 := 1572864 }
  rateInit := .r44100
  capInit := 0
  split := .leftJustified

/-- `CLAMP_SPAN` (R5). -/
def clampSpan : Nat := 1024

/-- `TOL` (R5). -/
def tolerance : Nat := 16

/-- `SLOTS_PER_FRAME` (R5). -/
def slotsPerFrame : Nat := 4

/-- `bit_depth`, fixed (R22). -/
def bitDepth : Nat := 24

/-- `MAXPKT`, the largest audio packet in bytes (R5). -/
def maxPacket : Nat := 2 * 3 * 96 + 6

/-- `MAX_FRAMES`, the most sample frames one packet carries (R5). -/
def maxFrames : Nat := maxPacket / 6

/-- FREE VALUE (log 5): the `RATE_CODE` field of R41 for a `RATE` outside the four legal values, for which the spec
states none. No state reachable from reset asks for it. -/
opaque Config.freeRateCode : Word → BitVec 2

/-- FREE VALUE (log 5): `DEFAULT_RATE` of R5 at a `RATE` outside the four legal values, for which the spec states none.
No state reachable from reset asks for it. -/
opaque Config.freeDefaultRate : Word → Word

end Sys2Proof
end

