-- ==== Sys2Proof/Machine/Tables.lean ====
section
/-! DEFINITION. Look-ups in the closed set of rates and the `DEFAULT_RATE` table (00_scope.md R5; 10_state.md R41). -/

namespace Sys2Proof.Machine

/-- A rate in hertz (R5). -/
def rateHz : SampleRate → Nat
  | .r44100 => 44100
  | .r48000 => 48000
  | .r88200 => 88200
  | .r96000 => 96000

/-- The member of `RATES` with this value in hertz (R5). -/
def rateOfHz (hz : Nat) : Option SampleRate :=
  if hz = 44100 then some .r44100
  else if hz = 48000 then some .r48000
  else if hz = 88200 then some .r88200
  else if hz = 96000 then some .r96000
  else none

/-- `RATE_CODE` of a member of `RATES` (R41). -/
def rateCode : SampleRate → BitVec 2
  | .r44100 => 0
  | .r48000 => 1
  | .r88200 => 2
  | .r96000 => 3

/-- `DEFAULT_RATE` at a member of `RATES` (R5). -/
def tableEntry (t : RateTable) : SampleRate → Nat
  | .r44100 => t.at44100
  | .r48000 => t.at48000
  | .r88200 => t.at88200
  | .r96000 => t.at96000

/-- `wrap_32(DEFAULT_RATE(u(RATE)))` of R106; a free value where `RATE` is no member of `RATES` (log 5). -/
def defaultRateWord (t : RateTable) (rate : Word) : Word :=
  match rateOfHz rate.toNat with
  | some r => wrap32 (tableEntry t r)
  | none => Config.freeDefaultRate rate

/-- The `RATE_CODE` field of R41; a free value where `RATE` is no member of `RATES` (log 5). -/
def rateCodeField (rate : Word) : BitVec 2 :=
  match rateOfHz rate.toNat with
  | some r => rateCode r
  | none => Config.freeRateCode rate

end Sys2Proof.Machine
end

