-- ==== Sys2Proof/Machine/State.lean ====
section
/-! DEFINITION. The state of the block (10_state.md R20 to R39), its responses (30_encoding.md R78), the ways a step can
stop, and the state right after power-on reset (R45). -/

namespace Sys2Proof.Machine

/-- The buffer space of 20_memory.md R50: (slot index, word), indices strictly rising, no word 0x0000; an unlisted slot
reads as 0x0000, the reset contents of R45. The slot is the smallest unit (R51, log 4). -/
abbrev Memory := List (Nat × Slot)

/-- The kinds of response records (R78). -/
inductive ResponseKind where
  | ack
  | stall
  | data
  | fill
  | word
  | flush
  | fb
  deriving DecidableEq, Repr

/-- One response record `(kind, val)` of R78. -/
structure Response where
  kind : ResponseKind
  val : Word
  deriving DecidableEq, Repr

/-- The stall causes of 60_exceptions.md R140. -/
inductive StallCause where
  | unimplementedSelector
  | malformed
  | rateUnsupported
  | rateWhileActive
  | clkgenFail
  | badRegOffset
  deriving DecidableEq, Repr

/-- The ways a run ends. Neither is the block's: the hardware never halts (R79). -/
inductive Fault where
  /-- Raised by `step` when `tpc = len(T)`: the run has ended, there is no further event (R79). Safe: no step is made up. -/
  | endOfTrace
  /-- Raised by `step` when `tpc > len(T)`, which no run reaches and R79 does not name (log 7). Safe. -/
  | tpcBeyondTrace
  deriving DecidableEq, Repr

/-- The ways the harness refuses a trace; no claim holds of a refused run (R75). -/
inductive Refusal where
  /-- Raised by an arm of `exec` for an instruction that has no meaning yet; no arm does. Safe. -/
  | notModelled (mnemonic : String)
  /-- Raised by `step` at a word that selects no row of the opcode map (R75). Safe. -/
  | invalidWord (w : Word)
  /-- Raised by `step` at a `PUSH` whose payload the trace cuts short: `needed` payload words, `given` present (R75, R79). Safe. -/
  | truncatedPush (needed given : Nat)
  deriving DecidableEq, Repr

/-- The state record `S` of R8: every register, flag and memory of R20, the spec's model device (`tpc`, `OUT` and the
trace, R46, R79), and the configuration, which no step changes (log 1). -/
structure State where
  /-- The configuration record of R5. -/
  cfg : Config
  /-- `RATE`, R21. -/
  rate : Word
  /-- `MUTED`, R23. -/
  muted : Bool
  /-- `ACTIVE`, R24. -/
  active : Bool
  /-- `PLAYING`, R24. -/
  playing : Bool
  /-- `BUF`, R29. -/
  buf : Memory
  /-- `WPTR`, R26. -/
  wptr : Word
  /-- `REM`, R25. -/
  rem : Word
  /-- `DEFRATE`, R30. -/
  defrate : Word
  /-- `CURVAL`, R31. -/
  curval : Word
  /-- `ACCUM`, R32. -/
  accum : Word
  /-- `SOFCNT`, R33. -/
  sofcnt : Word
  /-- `CORR`, R34, two's complement. -/
  corr : Word
  /-- `PENDING`, R35. -/
  pending : Bool
  /-- `SHIFT`, R36. -/
  shift : Word
  /-- `CAP`, R37. -/
  cap : Word
  /-- `IN_TOL`, R38. -/
  inTol : Bool
  /-- `RATE_IND`, R38. -/
  rateInd : Word
  /-- `FB_LAST`, R39. -/
  fbLast : Word
  /-- `tpc`, R79. -/
  tpc : Nat
  /-- `OUT`, R78, oldest record first. -/
  out : List Response
  /-- The trace `T` of R79, immutable (R64, log 6). -/
  trace : List Word
  deriving DecidableEq, Repr

/-- The table of R45 for a given configuration, with no trace loaded. -/
def State.resetOf (c : Config) : State where
  cfg := c
  rate := wrap32 (rateHz c.rateInit)
  muted := false
  active := false
  playing := false
  buf := []
  wptr := 0
  rem := wrap32 c.capacity
  defrate := wrap32 (tableEntry c.rateTable c.rateInit)
  curval := wrap32 (tableEntry c.rateTable c.rateInit)
  accum := 0
  sofcnt := 0
  corr := 0
  pending := false
  shift := wrap32 c.shiftCfg
  cap := c.capInit
  inTol := false
  rateInd := wrap32 (rateHz c.rateInit)
  fbLast := 0
  tpc := 0
  out := []
  trace := []

/-- The machine right after power-on reset (R45) in the default configuration of R5; `SCALE` = 1 and `CAP` = 0 are the
model's choice of the OPEN parameters (log 2, log 3). -/
def State.reset : State := State.resetOf Config.default

end Sys2Proof.Machine
end

