-- ==== Sys2Proof/Machine/Ops.lean ====
section
/-! DEFINITION. The named operations of 00_scope.md R8 over the state: slot reads and writes, responses, `raise Stall`,
and the sub-operations `BUF_RESET`, `FB_RESET`, `DEACTIVATE` and power-on reset. -/

namespace Sys2Proof.Machine

/-! ## The buffer space -/

/-- Every index of the tail is above `i` and no entry is 0x0000. -/
def memWfAbove : Nat → Memory → Bool
  | _, [] => true
  | i, (j, w) :: m => decide (i < j) && (w != 0) && memWfAbove j m

/-- The canonical form: indices strictly rising, no entry equal to what an unlisted slot reads as. -/
def Memory.wf : Memory → Bool
  | [] => true
  | (j, w) :: m => (w != 0) && memWfAbove j m

/-- Every listed index is below `n`. -/
def Memory.below (n : Nat) (m : Memory) : Bool := m.all fun e => decide (e.1 < n)

/-- `MemRead(i, 1)` of R8: the word at slot `i`; an unlisted slot reads as 0x0000 (R45). -/
def Memory.read : Memory → Nat → Slot
  | [], _ => 0
  | (j, w) :: m, i => if i = j then w else if i < j then 0 else Memory.read m i

/-- An entry in front, left out where it says what an unlisted slot says. -/
def memCons (i : Nat) (w : Slot) (m : Memory) : Memory := if w = 0 then m else (i, w) :: m

/-- `MemWrite(i, 1, w)` of R8, keeping the canonical form. -/
def Memory.write : Memory → Nat → Slot → Memory
  | [], i, w => memCons i w []
  | (j, v) :: m, i, w =>
    if i = j then memCons i w m
    else if i < j then memCons i w ((j, v) :: m)
    else (j, v) :: Memory.write m i w

/-! ## Responses and stalls -/

/-- The code of a response kind (R78). -/
def responseCode : ResponseKind → Nat
  | .ack => 1
  | .stall => 2
  | .data => 3
  | .fill => 4
  | .word => 5
  | .flush => 6
  | .fb => 7

/-- The code of a stall cause (R140). -/
def stallCode : StallCause → Word
  | .unimplementedSelector => 1
  | .malformed => 2
  | .rateUnsupported => 3
  | .rateWhileActive => 4
  | .clkgenFail => 5
  | .badRegOffset => 6

/-- `respond(kind, val)` of R8: append one record to `OUT`. -/
def respond (kind : ResponseKind) (val : Word) (s : State) : State :=
  { s with out := s.out ++ [⟨kind, val⟩] }

/-- `raise Stall(cause)` of R141: append `respond(STALL, cause)` and end the event; nothing else happens. It is the
block's only exception, and there is no return from it (R145). -/
def raiseStall (cause : StallCause) (s : State) : State := respond .stall (stallCode cause) s

/-! ## Sub-operations -/

/-- `BUF_RESET` of R93: every slot 0x0000, `WPTR` 0, `REM` = `C`. -/
def bufReset (s : State) : State :=
  { s with buf := [], wptr := 0, rem := wrap32 s.cfg.capacity }

/-- `FB_RESET` of R106. -/
def fbReset (s : State) : State :=
  { s with
    defrate := defaultRateWord s.cfg.rateTable s.rate
    curval := defaultRateWord s.cfg.rateTable s.rate
    accum := 0
    sofcnt := 0
    pending := false
    shift := wrap32 s.cfg.shiftCfg
    corr := 0
    inTol := false }

/-- `DEACTIVATE` of R121, one atomic step. -/
def deactivate (s : State) : State :=
  fbReset (bufReset { s with active := false, playing := false })

/-- The activation of R122: the engine armed at index 0, the flags, and `FB_RESET`. -/
def activate (s : State) : State :=
  fbReset { s with rem := wrap32 s.cfg.capacity, active := true, playing := false }

/-- Power-on reset as 70_reset_and_hazards.md R160 orders it, from any contents: it is no event. `CAP` is left as it is,
"unspecified". It touches neither the trace nor the log. -/
def powerOnReset (s : State) : State :=
  fbReset (bufReset
    { s with
      active := false
      playing := false
      muted := false
      rate := wrap32 (rateHz s.cfg.rateInit)
      rateInd := wrap32 (rateHz s.cfg.rateInit)
      fbLast := 0 })

end Sys2Proof.Machine
end

