-- ==== Sys2Proof/Machine/Operands.lean ====
section
/-! DEFINITION. The values the events compute with: the read pointer and the fill level (10_state.md R27, R28), the
packing of samples (40_buffer_ops.md R94, R97), the ticker's `diff` and `CORR` (41_feedback_ops.md R101), the transmitted
value (R104). -/

namespace Sys2Proof.Machine

/-- `x mod C` of R7, the representative in `[0, C)`, also for negative `x`. -/
def modC (c : Config) (x : Int) : Nat := (x % (c.capacity : Int)).toNat

/-- `(C - u(rem)) mod C`: the read index a remaining count `rem` stands for (R27). -/
def readIndex (c : Config) (rem : Word) : Nat := modC c (c.capacity - rem.toNat)

/-- `RPTR(S)` of R27. -/
def rptr (s : State) : Nat := readIndex s.cfg s.rem

/-- `(u(wp) - (C - u(rem)) mod C) mod C`: the fill level two readings stand for (R28, R61). -/
def fillOf (c : Config) (rem wp : Word) : Nat := modC c ((wp.toNat : Int) - readIndex c rem)

/-- `FILL(S)` of R28. -/
def fill (s : State) : Nat := fillOf s.cfg s.rem s.wptr

/-- The slot index a push writes next, reduced modulo `C` before use (R52; log 8 for a `WPTR` outside `[0, C)`). -/
def writeIndex (s : State) : Nat := modC s.cfg s.wptr.toNat

/-- `wrap_32((u(WPTR) + 1) mod C)` of R90. -/
def nextWptr (s : State) : Word := wrap32 (modC s.cfg (s.wptr.toNat + 1))

/-- `REM` after one consumed word: reloaded with `C` at 1, else one less (R92). -/
def nextRem (s : State) : Word :=
  if s.rem.toNat = 1 then wrap32 s.cfg.capacity else wrap32 ((s.rem.toNat : Int) - 1)

/-- `HI(s)` of R94. -/
def hiSlot : Split → Sample → Slot
  | .leftJustified, v => v.extractLsb' 8 16
  | .rightJustified, v => (0 : BitVec 8) ++ v.extractLsb' 16 8

/-- `LO(s)` of R94. -/
def loSlot : Split → Sample → Slot
  | .leftJustified, v => v.extractLsb' 0 8 ++ (0 : BitVec 8)
  | .rightJustified, v => v.extractLsb' 0 16

/-- The four slots of a frame: left-high, left-low, right-high, right-low (R57). -/
def frameSlots (sp : Split) (f : Frame) : List Slot :=
  [hiSlot sp f.left, loSlot sp f.left, hiSlot sp f.right, loSlot sp f.right]

/-- Mute forces a pushed frame to zero (R97). -/
def mutedFrame (muted : Bool) (f : Frame) : Frame := if muted then ⟨0, 0⟩ else f

/-- The slots a `PUSH` of these frames writes, in order (R57, R90, R97). -/
def pushedSlots (sp : Split) (muted : Bool) (fs : List Frame) : List Slot :=
  (fs.map (mutedFrame muted)).flatMap (frameSlots sp)

/-- `diff` of R101 step 1, from the two readings: the fill level while playing, else neutral. -/
def diffOf (c : Config) (playing : Bool) (rem wp : Word) : Nat :=
  if playing then fillOf c rem wp else c.half

/-- `CORR` of R101 step 2: `wrap_32((HALF - diff) * SCALE)`. -/
def corrOf (c : Config) (diff : Nat) : Word := wrap32 (((c.half : Int) - diff) * c.scale)

/-- `clamp(z, lo, hi)` of R7, over the integers. -/
def clampInt (z lo hi : Int) : Int := if z < lo then lo else if z > hi then hi else z

/-- `FBVAL(S)` of R104, over the integers. -/
def fbval (s : State) : Int :=
  clampInt ((s.curval.toNat : Int) + s.corr.toInt)
    ((s.defrate.toNat : Int) - clampSpan) ((s.defrate.toNat : Int) + clampSpan)

end Sys2Proof.Machine
end

