-- ==== Sys2Proof/Machine/Flags.lean ====
section
/-! DEFINITION. The flag computations: the start transition (40_buffer_ops.md R91), the closing tick and the tolerance
indicator (41_feedback_ops.md R101), and the two status registers of the window (10_state.md R41, R42). -/

namespace Sys2Proof.Machine

/-- The test of R90 after each frame, `PLAYING = 0` and `FILL(S) >= HALF` (R91). -/
def startsPlaying (s : State) : Bool := !s.playing && decide (s.cfg.half ≤ fill s)

/-- R101 step 4: `u(SOFCNT) = 2^u(SHIFT)`, after the increment. -/
def closesWindow (s : State) : Bool := decide (s.sofcnt.toNat = 2 ^ s.shift.toNat)

/-- `IN_TOL` of R101 step 5: playing and `|diff - HALF| <= TOL`. -/
def inTolerance (c : Config) (playing : Bool) (diff : Nat) : Bool :=
  playing && decide (((diff : Int) - c.half).natAbs ≤ tolerance)

/-- A flag as one bit. -/
def flagBit (b : Bool) : BitVec 1 := BitVec.ofBool b

/-- `STREAM_STAT`, field by field from bit 31 down to bit 0 (R41). -/
def streamStat (s : State) : Word :=
  (0 : BitVec 16) ++ BitVec.ofNat 8 bitDepth ++ (0 : BitVec 2) ++ rateCodeField s.rate ++ (0 : BitVec 1) ++
    flagBit s.muted ++ flagBit s.playing ++ flagBit s.active

/-- `FB_STAT`, field by field from bit 31 down to bit 0 (R42). -/
def fbStat (s : State) : Word :=
  (0 : BitVec 30) ++ flagBit s.inTol ++ flagBit s.pending

end Sys2Proof.Machine
end

