-- ==== Sys2Proof/Machine/Buffer.lean ====
section
/-! DEFINITION. The buffer events of 40_buffer_ops.md: `PUSH` (R90) and `CONSUME` (R92). -/

namespace Sys2Proof.Machine

/-- R90's inner step: `MemWrite(u(WPTR), 1, w)`, then `WPTR` one further modulo `C`. -/
def pushSlot (s : State) (w : Slot) : State :=
  { s with buf := s.buf.write (writeIndex s) w, wptr := nextWptr s }

/-- The start transition of R91, tested after each frame. -/
def startCheck (s : State) : State := { s with playing := s.playing || startsPlaying s }

/-- One frame of R90: its four slots in the order of R57, then the start transition. -/
def pushFrame (s : State) (f : Frame) : State :=
  startCheck ((frameSlots s.cfg.split f).foldl pushSlot s)

/-- The frame loop of R90, `muted` read once before it. -/
def pushFrames (muted : Bool) (fs : List Frame) (s : State) : State :=
  (fs.map (mutedFrame muted)).foldl pushFrame s

/-- The answer of R90: the fill level. -/
def answerFill (s : State) : State := respond .fill (wrap32 (fill s)) s

/-- `PUSH`, R90. -/
def execPush (fs : List Frame) (s : State) : Host.Outcome State Fault Refusal :=
  if s.active then .next (answerFill (pushFrames s.muted fs s)) else .next (answerFill s)

/-- One word of R92: read at `RPTR`, answer it, move `REM`. The slot is unchanged (R55). -/
def consumeOne (s : State) : State :=
  { respond .word ((s.buf.read (rptr s)).setWidth 32) s with rem := nextRem s }

/-- `k` words, one after the other (R92). -/
def consumeWords : Nat → State → State
  | 0, s => s
  | k + 1, s => consumeWords k (consumeOne s)

/-- `CONSUME k`, R92. -/
def execConsume (k : Imm) (s : State) : Host.Outcome State Fault Refusal :=
  if s.playing then .next (consumeWords k.toNat s) else .next s

end Sys2Proof.Machine
end

