-- ==== Sys2Proof/Machine/Window.lean ====
section
/-! DEFINITION. The read-only register window of 10_state.md R40. -/

namespace Sys2Proof.Machine

/-- The 17 registers of the window, in the order of R40. -/
inductive WindowReg where
  | streamStat | sampleRate | bufCap | bufWptr | bufRem | bufRptr | bufFill | fbCapture | fbAccum
  | fbSofcnt | fbShift | fbDefrate | fbCurval | fbCorr | fbStat | fbLast | rateInd
  deriving DecidableEq, Repr

/-- The offsets of R40. -/
def windowTable : List (Nat × WindowReg) :=
  [ (0x00, .streamStat), (0x04, .sampleRate), (0x08, .bufCap), (0x0C, .bufWptr), (0x10, .bufRem),
    (0x14, .bufRptr), (0x18, .bufFill), (0x1C, .fbCapture), (0x20, .fbAccum), (0x24, .fbSofcnt),
    (0x28, .fbShift), (0x2C, .fbDefrate), (0x30, .fbCurval), (0x34, .fbCorr), (0x38, .fbStat),
    (0x3C, .fbLast), (0x40, .rateInd) ]

/-- The register at a byte offset; none at every other offset (R40, R65). -/
def windowReg (off : Nat) : Option WindowReg := windowTable.lookup off

/-- The value a read of the register returns (R40). -/
def windowValue (r : WindowReg) (s : State) : Word :=
  match r with
  | .streamStat => streamStat s
  | .sampleRate => s.rate
  | .bufCap => wrap32 s.cfg.capacity
  | .bufWptr => s.wptr
  | .bufRem => s.rem
  | .bufRptr => wrap32 (rptr s)
  | .bufFill => wrap32 (fill s)
  | .fbCapture => s.cap
  | .fbAccum => s.accum
  | .fbSofcnt => s.sofcnt
  | .fbShift => s.shift
  | .fbDefrate => s.defrate
  | .fbCurval => s.curval
  | .fbCorr => s.corr
  | .fbStat => fbStat s
  | .fbLast => s.fbLast
  | .rateInd => s.rateInd

end Sys2Proof.Machine
end

