-- ==== Sys2Proof/Machine/Control.lean ====
section
/-! DEFINITION. The control events of 42_control_ops.md and `NOP`. Every one checks before it writes (R120). -/

namespace Sys2Proof.Machine

/-- `NOP`, R129. -/
def execNop (s : State) : Host.Outcome State Fault Refusal := .next s

/-- `SET_ALT a`, R122. -/
def execSetAlt (a : Imm) (s : State) : Host.Outcome State Fault Refusal :=
  if a = 0 then .next (respond .ack 0 (deactivate s))
  else if a = 1 then .next (respond .ack 0 (if s.active then s else activate s))
  else .next (raiseStall .malformed s)

/-- `SET_MUTE m`, R123. -/
def execSetMute (m : Imm) (s : State) : Host.Outcome State Fault Refusal :=
  if m.toNat > 1 then .next (raiseStall .malformed s)
  else .next (respond .ack 0 { s with muted := m == 1 })

/-- `GET_MUTE`, R124. -/
def execGetMute (imm : Imm) (s : State) : Host.Outcome State Fault Refusal :=
  if imm = 0 then .next (respond .data ((flagBit s.muted).setWidth 32) s)
  else .next (raiseStall .malformed s)

/-- `GET_RATE`, R126. -/
def execGetRate (imm : Imm) (s : State) : Host.Outcome State Fault Refusal :=
  if imm = 0 then .next (respond .data s.rate s) else .next (raiseStall .malformed s)

/-- The commit of R125: `RATE`, `FB_RESET`, `RATE_IND`, in that order. -/
def commitRate (r : Word) (s : State) : State :=
  { fbReset { s with rate := r } with rateInd := r }

/-- `SET_RATE r` and `SET_RATE.F r`, R125; the first failing check is the one reported (R153). -/
def execSetRate (clkfail : Bool) (r : Imm) (s : State) : Host.Outcome State Fault Refusal :=
  if (rateOfHz r.toNat).isNone then .next (raiseStall .rateUnsupported s)
  else if r.toNat = s.rate.toNat then .next (respond .ack 0 s)
  else if s.active then .next (raiseStall .rateWhileActive s)
  else if clkfail then .next (raiseStall .clkgenFail s)
  else .next (respond .ack 0 (commitRate (r.setWidth 32) s))

/-- `FORCE_INACTIVE`, R127: unconditional, whatever its immediate. -/
def execForceInactive (_imm : Imm) (s : State) : Host.Outcome State Fault Refusal :=
  .next (deactivate s)

/-- `REG_READ off`, R128. -/
def execRegRead (off : Imm) (s : State) : Host.Outcome State Fault Refusal :=
  match windowReg off.toNat with
  | some r => .next (respond .data (windowValue r s) s)
  | none => .next (raiseStall .badRegOffset s)

/-- `CTL_BAD x`, R130. -/
def execCtlBad (_x : Imm) (s : State) : Host.Outcome State Fault Refusal :=
  .next (raiseStall .malformed s)

/-- `CTL_UNIMPL x`, opcode 0x49, R131. -/
def execCtlUnimpl49 (_x : Imm) (s : State) : Host.Outcome State Fault Refusal :=
  .next (raiseStall .unimplementedSelector s)

/-- `CTL_UNIMPL x`, opcodes 0x4A and 0x4B, R131. -/
def execCtlUnimpl4A (_sel : BitVec 1) (_x : Imm) (s : State) : Host.Outcome State Fault Refusal :=
  .next (raiseStall .unimplementedSelector s)

/-- `CTL_UNIMPL x`, opcodes 0x4C to 0x4F, R131. -/
def execCtlUnimpl4C (_sel : BitVec 2) (_x : Imm) (s : State) : Host.Outcome State Fault Refusal :=
  .next (raiseStall .unimplementedSelector s)

end Sys2Proof.Machine
end

