-- ==== Sys2Proof/Machine/Feedback.lean ====
section
/-! DEFINITION. The clock-feedback events of 41_feedback_ops.md: `CAPTURE` (R100), `SOF` (R101), `FB_TX` (R102),
`FB_INCOMPLETE` (R103). -/

namespace Sys2Proof.Machine

/-- `CAPTURE v`, R100. -/
def execCapture (v : Imm) (s : State) : Host.Outcome State Fault Refusal :=
  .next { s with cap := v.setWidth 32 }

/-- R101 step 2. -/
def sofCorrect (diff : Nat) (s : State) : State := { s with corr := corrOf s.cfg diff }

/-- R101 step 3. -/
def sofAccumulate (s : State) : State :=
  { s with accum := wrap32 ((s.accum.toNat : Int) + s.cap.toNat) }

/-- R101 step 4, the increment. -/
def sofCount (s : State) : State := { s with sofcnt := wrap32 ((s.sofcnt.toNat : Int) + 1) }

/-- `extra` of R101 step 4 (conflict C3, D12). -/
def closingExtra (s : State) : Nat := if s.cfg.closeAddsCapture then s.cap.toNat else 0

/-- `wrap_32((u(ACCUM) + extra) * 2^u(SHIFT))` of R101 step 4. -/
def closingValue (s : State) : Word :=
  wrap32 (((s.accum.toNat : Int) + closingExtra s) * 2 ^ s.shift.toNat)

/-- R101 step 4, the closing tick. -/
def sofClose (s : State) : State :=
  if closesWindow s then
    { s with curval := closingValue s, accum := 0, sofcnt := 0, pending := true }
  else s

/-- R101 step 5. -/
def sofIndicate (diff : Nat) (s : State) : State :=
  { s with inTol := inTolerance s.cfg s.playing diff }

/-- The tick of R101 after its two reads, `rem` and `wp`, performed in the order of its steps. -/
def sofTick (rem wp : Word) (s : State) : State :=
  let diff := diffOf s.cfg s.playing rem wp
  sofIndicate diff (sofClose (sofCount (sofAccumulate (sofCorrect diff s))))

/-- `SOF`, R101. -/
def execSof (s : State) : Host.Outcome State Fault Refusal :=
  if s.active then .next (sofTick s.rem s.wptr s) else .next s

/-- The hand-over shared by R102 and R103: `FB_LAST`, `PENDING` cleared, the `FB` answer. -/
def sendFeedback (s : State) : State :=
  { respond .fb (wrap32 (fbval s)) s with fbLast := wrap32 (fbval s), pending := false }

/-- `FB_TX`, R102. -/
def execFbTx (s : State) : Host.Outcome State Fault Refusal :=
  if s.pending then .next (sendFeedback s) else .next s

/-- `FB_INCOMPLETE`, R103. -/
def execFbIncomplete (s : State) : Host.Outcome State Fault Refusal :=
  if s.active then .next (sendFeedback (respond .flush 0 s)) else .next s

end Sys2Proof.Machine
end

