-- ==== Sys2Proof/Machine/Dispatch.lean ====
section
/-! DEFINITION. The event's rule on `S` (30_encoding.md R79), one arm per constructor; `tpc` is moved by `step`. -/

namespace Sys2Proof.Machine

def exec (i : Instr) (s : State) : Host.Outcome State Fault Refusal :=
  match i with
  | .nop => Sys2Proof.Machine.execNop s
  -- producer and consumer
  | .push frames => Sys2Proof.Machine.execPush frames s
  | .consume k => Sys2Proof.Machine.execConsume k s
  -- ticker
  | .sof => Sys2Proof.Machine.execSof s
  | .capture v => Sys2Proof.Machine.execCapture v s
  -- controller
  | .setAlt a => Sys2Proof.Machine.execSetAlt a s
  | .setMute m => Sys2Proof.Machine.execSetMute m s
  | .getMute imm => Sys2Proof.Machine.execGetMute imm s
  | .getRate imm => Sys2Proof.Machine.execGetRate imm s
  | .setRate clkfail r => Sys2Proof.Machine.execSetRate clkfail r s
  | .forceInactive imm => Sys2Proof.Machine.execForceInactive imm s
  | .regRead off => Sys2Proof.Machine.execRegRead off s
  | .ctlBad x => Sys2Proof.Machine.execCtlBad x s
  | .ctlUnimpl49 x => Sys2Proof.Machine.execCtlUnimpl49 x s
  | .ctlUnimpl4A sel x => Sys2Proof.Machine.execCtlUnimpl4A sel x s
  | .ctlUnimpl4C sel x => Sys2Proof.Machine.execCtlUnimpl4C sel x s
  -- transport
  | .fbTx => Sys2Proof.Machine.execFbTx s
  | .fbIncomplete => Sys2Proof.Machine.execFbIncomplete s

end Sys2Proof.Machine
end

