-- ==== Sys2Proof/Machine/Fetch.lean ====
section
/-! DEFINITION. Fetching the next event of the trace (30_encoding.md R79). -/

namespace Sys2Proof.Machine

/-- The words of the trace from `tpc` on, decoded (R79, R80). -/
def fetch (s : State) : Decoded := decode (s.trace.drop s.tpc)

/-- `tpc <- tpc + n` (R8). -/
def advance (n : Nat) (s : State) : State := { s with tpc := s.tpc + n }

/-- The words `ws` stored over a list from a given index on, the list filled up with `NOP` words where it is shorter. -/
def overlay (ws : List Word) : Nat → List Word → List Word
  | 0, t => ws ++ t.drop ws.length
  | n + 1, [] => 0 :: overlay ws n []
  | n + 1, x :: t => x :: overlay ws n t

/-- `s` with the given words in its trace where the next event is fetched. -/
def loadAt (ws : List Word) (s : State) : State := { s with trace := overlay ws s.tpc s.trace }

end Sys2Proof.Machine
end

