-- ==== Sys2Proof/Machine/Step.lean ====
section
/-! DEFINITION. One harness step of 30_encoding.md R79. -/

namespace Sys2Proof.Machine

/-- R79: at `tpc = len(T)` the run has ended; else decode, refuse an invalid word or a cut payload, perform the event's
rule, and move `tpc` past the event's words, a stalled event like any other. -/
def step (s : State) : Host.Outcome State Fault Refusal :=
  if s.tpc = s.trace.length then .fault .endOfTrace
  else match fetch s with
    | .empty => .fault .tpcBeyondTrace
    | .invalid w => .refused (.invalidWord w)
    | .truncated needed given => .refused (.truncatedPush needed given)
    | .event i _ =>
      match exec i s with
      | .next t => .next (advance i.length t)
      | .fault r => .fault r
      | .refused r => .refused r

/-- `s` with the instruction of the low `nbits` bits of `w` in its trace where `step` fetches next (log 6). -/
def State.withFetchWord (s : State) (nbits w : Nat) : State := loadAt (tableWords nbits w) s

end Sys2Proof.Machine
end

