-- ==== Sys2Proof/Machine/Adapter.lean ====
section
/-! DEFINITION. The edges of the block: 3-byte little-endian values (20_memory.md R56), the byte adapter of 40_buffer_ops.md
R95, a sample-rate request as bytes (42_control_ops.md R125, R130), the 10.14 reading (00_scope.md R9), and the
pseudo-events of 30_encoding.md R77. -/

namespace Sys2Proof.Machine

/-- The three wire bytes of a value, least significant first: `v[7:0]`, `v[15:8]`, `v[23:16]` (R56). -/
def wireBytes (v : Word) : List Byte := [v.extractLsb' 0 8, v.extractLsb' 8 8, v.extractLsb' 16 8]

/-- `b0 + 256*b1 + 65536*b2` (R56, R95). -/
def le24 (b0 b1 b2 : Byte) : BitVec 24 := b2 ++ b1 ++ b0

/-- A sample-rate set request as the bytes it carries: 3 bytes are a `SET_RATE`, any other length cannot be spelled as one
and is a `CTL_BAD` (R125, R130). -/
def rateRequest (clkfail : Bool) (bytes : List Byte) : Instr :=
  match bytes with
  | [b0, b1, b2] => .setRate clkfail (le24 b0 b1 b2)
  | _ => .ctlBad 0

/-- The frames of a packet's bytes, 6 bytes a frame, left before right, little-endian sub-frames, a trailing partial frame
dropped (R95). -/
def framesOfBytes : List Byte → List Frame
  | l0 :: l1 :: l2 :: r0 :: r1 :: r2 :: bs => ⟨le24 l0 l1 l2, le24 r0 r1 r2⟩ :: framesOfBytes bs
  | _ => []

/-- The bytes an `FB` answer puts on the feedback endpoint (R78); no other answer has wire bytes the spec fixes but
`GET_RATE`'s, which are `wireBytes` of its value (R126). -/
def feedbackBytes (r : Response) : List Byte := if r.kind = .fb then wireBytes r.val else []

/-- The 10 integer bits `[23:14]` of a 10.14 value (R9). -/
def fixedInt (v : Word) : BitVec 10 := v.extractLsb' 14 10

/-- The 14 fractional bits `[13:0]` of a 10.14 value (R9). -/
def fixedFrac (v : Word) : BitVec 14 := v.extractLsb' 0 14

/-- The pseudo-events of R77. -/
inductive Pseudo where
  | activate
  | idle
  | tick (v : Imm)
  | pushz (n : Nat)
  | pushn (n : Nat) (l r : Sample)
  | pushbytes (bytes : List Byte)
  deriving DecidableEq, Repr

/-- The expansions of R77. -/
def expand : Pseudo → List Instr
  | .activate => [.setAlt 1]
  | .idle => [.setAlt 0]
  | .tick v => [.capture v, .sof]
  | .pushz n => [.push (List.replicate n ⟨0, 0⟩)]
  | .pushn n l r => [.push (List.replicate n ⟨l, r⟩)]
  | .pushbytes bytes => [.push (framesOfBytes bytes)]

end Sys2Proof.Machine
end

