-- ==== Sys2Proof/Machine/Agents.lean ====
section
/-! DEFINITION. The agents (20_memory.md R58), their ports (30_encoding.md R70), the event sources and their enables
(60_exceptions.md R143), and the ownership table (10_state.md R43). -/

namespace Sys2Proof.Machine

/-- The five agents of R58. -/
inductive Agent where
  | producer
  | consumer
  | ticker
  | controller
  | transport
  deriving DecidableEq, Repr

/-- The agent an event belongs to (R58, R72); `NOP` belongs to none. -/
def agentOf : Instr → Option Agent
  | .nop => none
  | .push _ => some .producer
  | .consume _ => some .consumer
  | .sof | .capture _ => some .ticker
  | .setAlt _ | .setMute _ | .getMute _ | .getRate _ | .setRate _ _ | .forceInactive _ | .regRead _ | .ctlBad _
  | .ctlUnimpl49 _ | .ctlUnimpl4A _ _ | .ctlUnimpl4C _ _ => some .controller
  | .fbTx | .fbIncomplete => some .transport

/-- `PORT` of R70. -/
def portNumber : Option Agent → BitVec 4
  | none => 0
  | some .producer => 1
  | some .consumer => 2
  | some .ticker => 3
  | some .controller => 4
  | some .transport => 5

/-- The sources of R143 that start an event of the block. -/
inductive Source where
  | usbDataReceived
  | startOfFrame
  | controlRequest
  | incompleteTransfer
  | feedbackService
  | timerCapture
  | engineWordRequest
  | powerLoss
  deriving DecidableEq, Repr

/-- The source that starts an event (R143); `NOP` has none. -/
def sourceOf : Instr → Option Source
  | .nop => none
  | .push _ => some .usbDataReceived
  | .consume _ => some .engineWordRequest
  | .sof => some .startOfFrame
  | .capture _ => some .timerCapture
  | .setAlt _ | .setMute _ | .getMute _ | .getRate _ | .setRate _ _ | .regRead _ | .ctlBad _
  | .ctlUnimpl49 _ | .ctlUnimpl4A _ _ | .ctlUnimpl4C _ _ => some .controlRequest
  | .forceInactive _ => some .powerLoss
  | .fbTx => some .feedbackService
  | .fbIncomplete => some .incompleteTransfer

/-- The enable of a source inside the block, the column of R143 and R146. -/
def sourceEnabled (s : State) : Source → Bool
  | .usbDataReceived => s.active
  | .startOfFrame => s.active
  | .controlRequest => true
  | .incompleteTransfer => s.active
  | .feedbackService => s.pending
  | .timerCapture => true
  | .engineWordRequest => s.playing
  | .powerLoss => true

/-- The pieces of state of the ownership table (R43). -/
inductive Piece where
  | buf | wptr | rem | playing | active | muted | rate | rateInd
  | accum | sofcnt | corr | curval | inTol | pending | defrate | shift | cap | fbLast
  deriving DecidableEq, Repr

/-- FeedbackState and the indicator `FB_RESET` clears (R106). -/
def feedbackPieces : List Piece := [.accum, .sofcnt, .corr, .curval, .inTol, .pending, .defrate, .shift]

/-- The pieces an event may write, the table of R43 read by event: the writer in steady operation, and the controller's
reset paths (`DEACTIVATE`, R121, by `SET_ALT` and `FORCE_INACTIVE`; `FB_RESET`, R106, by these and `SET_RATE`). -/
def pieces : Instr → List Piece
  | .push _ => [.buf, .wptr, .playing]
  | .consume _ => [.rem]
  | .sof => [.accum, .sofcnt, .corr, .curval, .inTol, .pending]
  | .capture _ => [.cap]
  | .setAlt _ | .forceInactive _ => [.buf, .wptr, .rem, .playing, .active] ++ feedbackPieces
  | .setMute _ => [.muted]
  | .setRate _ _ => [.rate, .rateInd] ++ feedbackPieces
  | .fbTx | .fbIncomplete => [.pending, .fbLast]
  | .nop | .getMute _ | .getRate _ | .regRead _ | .ctlBad _ | .ctlUnimpl49 _ | .ctlUnimpl4A _ _ | .ctlUnimpl4C _ _ => []

/-- Whether an event may write a piece (R43). -/
def mayWrite (p : Piece) (i : Instr) : Bool := (pieces i).contains p

/-- Two states agree on a piece. -/
def samePiece : Piece → State → State → Prop
  | .buf, s, t => t.buf = s.buf
  | .wptr, s, t => t.wptr = s.wptr
  | .rem, s, t => t.rem = s.rem
  | .playing, s, t => t.playing = s.playing
  | .active, s, t => t.active = s.active
  | .muted, s, t => t.muted = s.muted
  | .rate, s, t => t.rate = s.rate
  | .rateInd, s, t => t.rateInd = s.rateInd
  | .accum, s, t => t.accum = s.accum
  | .sofcnt, s, t => t.sofcnt = s.sofcnt
  | .corr, s, t => t.corr = s.corr
  | .curval, s, t => t.curval = s.curval
  | .inTol, s, t => t.inTol = s.inTol
  | .pending, s, t => t.pending = s.pending
  | .defrate, s, t => t.defrate = s.defrate
  | .shift, s, t => t.shift = s.shift
  | .cap, s, t => t.cap = s.cap
  | .fbLast, s, t => t.fbLast = s.fbLast

end Sys2Proof.Machine
end

