-- ==== Sys2Proof/Machine/Micro.lean ====
section
/-! DEFINITION. The concurrent reading of the events: a `PUSH` as one micro step per slot and an `SOF` or a derived
register read as two reads (20_memory.md R60, R61; 42_control_ops.md R128), with the exclusions of R60, 60_exceptions.md
R144 and R145, and 70_reset_and_hazards.md R163. Which micro step comes next is the schedule, plain data. What may overlap
beyond the spec's words is in log 9. -/

namespace Sys2Proof.Machine

/-- A `PUSH` under way: the slots still to write; a frame ends whenever their number is a multiple of 4. -/
structure PushJob where
  slots : List Slot
  deriving DecidableEq, Repr

/-- The state of the block with the events under way. -/
structure MicroState where
  st : State
  /-- The producer's `PUSH` under way (at most one, R145). -/
  push : Option PushJob
  /-- The ticker's `SOF` between its two reads: `REM` as read (R61). -/
  tick : Option Word
  /-- A read of `BUF_RPTR` or `BUF_FILL` between its two reads: the register and `REM` as read (R128). -/
  look : Option (WindowReg × Word)
  deriving DecidableEq, Repr

/-- No event is under way. -/
def MicroState.idle (s : State) : MicroState := { st := s, push := none, tick := none, look := none }

/-- One micro step. -/
inductive Micro where
  /-- The producer starts a `PUSH`: `ACTIVE` and `MUTED` are read here, once (R90, R163). That this is a step of its own, so
  that readers may come between it and the first slot write, is the model's choice (log 9). -/
  | pushBegin (frames : List Frame)
  /-- The producer writes one slot and advances `WPTR`; after every fourth, the start transition (R60). That the start
  transition belongs to the fourth slot's step, so that nothing runs between the two, is the model's choice (log 9). -/
  | pushNext
  /-- The producer reads `REM` once, after its last slot, and answers the fill level (R61). That this is a step of its own, so
  that readers may come between the last slot write and it, is the model's choice (log 9). -/
  | pushEnd
  /-- The ticker reads `REM` (R61). -/
  | tickRead
  /-- The ticker reads `WPTR` and finishes the tick (R59, R61). -/
  | tickEnd
  /-- The controller starts a read of a derived register by reading `REM` (R128). -/
  | lookRead (off : Imm)
  /-- The controller reads `WPTR` and answers (R59, R128). -/
  | lookEnd
  /-- An event performed whole. -/
  | whole (i : Instr)
  deriving DecidableEq, Repr

/-- A reading agent's event: it may run between the micro steps of a `PUSH` and between the two reads of an `SOF`
(R60, R144). -/
def isReader : Instr → Bool
  | .consume _ | .sof | .capture _ | .regRead _ | .nop => true
  | .push _ | .setAlt _ | .setMute _ | .getMute _ | .getRate _ | .setRate _ _ | .forceInactive _ | .ctlBad _
  | .ctlUnimpl49 _ | .ctlUnimpl4A _ _ | .ctlUnimpl4C _ _ | .fbTx | .fbIncomplete => false

/-- Whether an event may be performed whole now: no overlap with an event of its own agent (R145), a control or transport
event only when no `PUSH`, `SOF` or derived read is under way (R60, R144, R163). -/
def mayRunWhole (m : MicroState) (i : Instr) : Bool :=
  match i with
  | .nop | .consume _ => true
  | .push _ => m.push.isNone
  | .sof | .capture _ => m.tick.isNone
  | .regRead _ => m.look.isNone
  | .setAlt _ | .setMute _ | .getMute _ | .getRate _ | .setRate _ _ | .forceInactive _ | .ctlBad _
  | .ctlUnimpl49 _ | .ctlUnimpl4A _ _ | .ctlUnimpl4C _ _ | .fbTx | .fbIncomplete =>
    m.push.isNone && m.tick.isNone && m.look.isNone

/-- `BUF_RPTR` and `BUF_FILL` from a reading of `REM` and one of `WPTR` (R128). -/
def lookValue (r : WindowReg) (rem wp : Word) (s : State) : Word :=
  match r with
  | .bufRptr => wrap32 (readIndex s.cfg rem)
  | .bufFill => wrap32 (fillOf s.cfg rem wp)
  | .streamStat | .sampleRate | .bufCap | .bufWptr | .bufRem | .fbCapture | .fbAccum | .fbSofcnt | .fbShift
  | .fbDefrate | .fbCurval | .fbCorr | .fbStat | .fbLast | .rateInd => windowValue r s

/-- The two derived registers (R27, R28). -/
def isDerived (r : WindowReg) : Bool := r == .bufRptr || r == .bufFill

/-- One micro step; none where it is not allowed or there is nothing for it to do. The threshold check after a frame is made
in the step that writes the frame's fourth slot, and the start and the end of a `PUSH` are steps apart from its slot writes:
R60 and R61 do not say whether a reader may come between (log 9). -/
def microStep (a : Micro) (m : MicroState) : Option MicroState :=
  match a with
  | .pushBegin fs =>
    if m.push.isSome then none
    else if m.st.active then
      some { m with push := some ⟨pushedSlots m.st.cfg.split m.st.muted fs⟩ }
    else some { m with st := answerFill m.st }
  | .pushNext =>
    match m.push with
    | some ⟨w :: ws⟩ =>
      let s := pushSlot m.st w
      some { m with st := if ws.length % slotsPerFrame = 0 then startCheck s else s, push := some ⟨ws⟩ }
    | some ⟨[]⟩ => none
    | none => none
  | .pushEnd =>
    match m.push with
    | some ⟨[]⟩ => some { m with st := answerFill m.st, push := none }
    | some ⟨_ :: _⟩ => none
    | none => none
  | .tickRead =>
    if m.tick.isSome then none
    else if m.st.active then some { m with tick := some m.st.rem }
    else some m
  | .tickEnd =>
    match m.tick with
    | some rem => some { m with st := sofTick rem m.st.wptr m.st, tick := none }
    | none => none
  | .lookRead off =>
    if m.look.isSome then none
    else match windowReg off.toNat with
      | some r => if isDerived r then some { m with look := some (r, m.st.rem) } else none
      | none => none
  | .lookEnd =>
    match m.look with
    | some (r, rem) =>
      some { m with st := respond .data (lookValue r rem m.st.wptr m.st) m.st, look := none }
    | none => none
  | .whole i =>
    if mayRunWhole m i then
      match exec i m.st with
      | .next t => some { m with st := t }
      | .fault _ => none
      | .refused _ => none
    else none

/-- A schedule of micro steps, one after the other. -/
def microRun : List Micro → MicroState → Option MicroState
  | [], m => some m
  | a :: as, m =>
    match microStep a m with
    | some m' => microRun as m'
    | none => none

/-- The micro steps of one `PUSH` in order: begin, one per slot, end (R60). -/
def pushSchedule (fs : List Frame) : List Micro :=
  .pushBegin fs :: (List.replicate (slotsPerFrame * fs.length) .pushNext ++ [.pushEnd])

/-- The micro steps of one `SOF` in order (R61). -/
def tickSchedule : List Micro := [.tickRead, .tickEnd]

end Sys2Proof.Machine
end

