-- ==== Sys2Proof/Machine/Stream.lean ====
section
/-! DEFINITION. The stream states of 10_state.md R47 and the transition table of 42_control_ops.md R132. They are functions
of the flags, not state. -/

namespace Sys2Proof.Machine

/-- The three stream states of R47. -/
inductive StreamState where
  | inactive
  | activeFilling
  | activePlaying
  deriving DecidableEq, Repr

/-- The AudioOutputEngine's transfer engine (R47). -/
inductive EngineState where
  | stopped
  | armed
  | clocked
  deriving DecidableEq, Repr

/-- R47: the stream state the two flags stand for; the fourth combination is unreachable and stands for none (R24). -/
def streamState (s : State) : Option StreamState :=
  match s.active, s.playing with
  | false, false => some .inactive
  | true, false => some .activeFilling
  | true, true => some .activePlaying
  | false, true => none

/-- R47: what the engine does in a stream state. -/
def engineState : StreamState → EngineState
  | .inactive => .stopped
  | .activeFilling => .armed
  | .activePlaying => .clocked

/-- A `PUSH` that brings the fill level to `HALF` or more (R132; in Active-Filling the fill level only rises, R91). -/
def reachesHalf (s : State) (i : Instr) : Bool :=
  match i with
  | .push fs => decide (s.cfg.half ≤ fill s + slotsPerFrame * fs.length)
  | .nop | .consume _ | .sof | .capture _ | .setAlt _ | .setMute _ | .getMute _ | .getRate _ | .setRate _ _
  | .forceInactive _ | .regRead _ | .ctlBad _ | .ctlUnimpl49 _ | .ctlUnimpl4A _ _ | .ctlUnimpl4C _ _ | .fbTx
  | .fbIncomplete => false

/-- The table of R132. `reaches` says that the `PUSH` brings the fill level to `HALF` or more. -/
def nextStream (reaches : Bool) (i : Instr) (st : StreamState) : StreamState :=
  match i with
  | .setAlt a =>
    if a = 0 then .inactive
    else if a = 1 then (match st with
      | .inactive => .activeFilling
      | .activeFilling => .activeFilling
      | .activePlaying => .activePlaying)
    else st
  | .forceInactive _ => .inactive
  | .push _ => (match st with
      | .inactive => .inactive
      | .activeFilling => if reaches then .activePlaying else .activeFilling
      | .activePlaying => .activePlaying)
  | .nop | .consume _ | .sof | .capture _ | .setMute _ | .getMute _ | .getRate _ | .setRate _ _
  | .regRead _ | .ctlBad _ | .ctlUnimpl49 _ | .ctlUnimpl4A _ _ | .ctlUnimpl4C _ _ | .fbTx | .fbIncomplete => st

end Sys2Proof.Machine
end

