-- ==== Sys2Proof/Safety.lean ====
section
/-! DEFINITION. What counts as a good state: the invariants of 10_state.md R44, the canonical form of the buffer and the
zero bits of 93_implementation_defined.md U31; and the states a run reaches. -/

namespace Sys2Proof.Machine

/-- R44 item 4: what `ACTIVE = 0` implies. -/
def HeldReset (s : State) : Prop :=
  s.wptr = 0 ∧ s.rem.toNat = s.cfg.capacity ∧ s.buf = [] ∧ s.pending = false ∧ s.accum = 0 ∧ s.sofcnt = 0 ∧
  s.corr = 0 ∧ s.inTol = false ∧ s.curval = s.defrate

/-- R44 item 5: what Active-Filling implies. -/
def FillingFromZero (s : State) : Prop :=
  s.rem.toNat = s.cfg.capacity ∧ fill s = s.wptr.toNat ∧ s.wptr.toNat < s.cfg.half

/-- R44 item 6, with the rate `r` that `RATE` holds. -/
def SettingsAgree (s : State) (r : SampleRate) : Prop :=
  s.rate.toNat = rateHz r ∧ s.rateInd = s.rate ∧
  s.defrate.toNat = tableEntry s.cfg.rateTable r ∧ s.shift.toNat = s.cfg.shiftCfg

/-- The invariant of a state between events. -/
structure GoodState (s : State) : Prop where
  /-- The constraints of R5. -/
  cfgWF : s.cfg.WF
  /-- The buffer is in its canonical form. -/
  bufWf : s.buf.wf = true
  /-- R29: no slot outside `[0, C)`. -/
  bufBelow : s.buf.below s.cfg.capacity = true
  /-- R44 item 1. -/
  playingActive : s.playing = true → s.active = true
  /-- R44 item 2, `WPTR`. -/
  wptrRange : s.wptr.toNat < s.cfg.capacity
  /-- R44 item 2, `REM`. -/
  remRange : 1 ≤ s.rem.toNat ∧ s.rem.toNat ≤ s.cfg.capacity
  /-- R44 item 3. -/
  wptrAligned : s.wptr.toNat % 4 = 0
  /-- R44 item 4. -/
  heldReset : s.active = false → HeldReset s
  /-- R44 item 5. -/
  filling : s.active = true → s.playing = false → FillingFromZero s
  /-- R44 item 6. -/
  settings : ∃ r, SettingsAgree s r
  /-- R44 item 7. -/
  sofcntRange : s.sofcnt.toNat < 2 ^ s.cfg.shiftCfg
  /-- R44 item 8. -/
  pendingActive : s.pending = true → s.active = true
  /-- R39: bits `[31:24]` of `FB_LAST` are zero. -/
  fbLastRange : s.fbLast.toNat < 2 ^ 24
  /-- R101 corner case (g): `IN_TOL` is 0 whenever `PLAYING` = 0. -/
  inTolPlaying : s.inTol = true → s.playing = true
  /-- R79: `tpc` stays inside the trace or at its end. -/
  tpcRange : s.tpc ≤ s.trace.length

/-- The power-on state of R45 with a trace supplied from outside (R79, log 6). -/
def loaded (c : Config) (t : List Word) : State := { State.resetOf c with trace := t }

/-- The states a run reaches from power-on, for any configuration meeting R5 and any trace. -/
inductive Reachable : State → Prop where
  | start (c : Config) (t : List Word) (h : c.WF) : Reachable (loaded c t)
  | next (s t : State) (hs : Reachable s) (h : step s = .next t) : Reachable t

/-- The events of a list performed one after the other, each on the state the one before it left. -/
def execAll : List Instr → State → Host.Outcome State Fault Refusal
  | [], s => .next s
  | i :: is, s =>
    match exec i s with
    | .next t => execAll is t
    | .fault r => .fault r
    | .refused r => .refused r

/-- One SOF interval per captured value, the capture before its tick: `TICK v` of 30_encoding.md R77, for each `v`. -/
def ticks (vs : List Imm) : List Instr := vs.flatMap fun v => expand (.tick v)

/-- The sum of captured values, as a natural number. -/
def captureSum (vs : List Imm) : Nat := (vs.map (·.toNat)).sum

/-- `extra` of R101 step 4 for a window with these captures: the last one again, or 0 (D12). -/
def windowExtra (c : Config) (vs : List Imm) : Nat :=
  if c.closeAddsCapture then (vs.getLast?.getD 0).toNat else 0

/-- The premise of 41_feedback_ops.md R109 (b) on one captured value: `v <= floor((2^32 - 1) / ((N + 1) * N))`. -/
def NoWrapCapture (c : Config) (v : Imm) : Prop :=
  v.toNat ≤ (2 ^ 32 - 1) / ((2 ^ c.shiftCfg + 1) * 2 ^ c.shiftCfg)

end Sys2Proof.Machine
end

