-- ==== Sys2Proof/Certificates/Slice0/Obligations.lean ====
section
/-! DEFINITION. The statements for the provers, file by file of the spec. "D<n>" in a docstring names the spec's own
decision (92_eei_decisions.md) that the statement rests on; such a statement formalises no sentence of the source. -/

open Sys2Proof Sys2Proof.Machine

/-! ## Encoding and the harness step (30_encoding.md) -/

/-- Every event with an encoding decodes back to itself, with every operand, whatever words follow (R80; D20 to D23). -/
def Obligations.DecodeOfEncodeIsTheEvent : Prop :=
  ∀ (i : Instr) (rest : List Word), i.wf = true → decode (encode i ++ rest) = .event i rest

/-- Decode-then-encode is the identity on valid words except that bits `[31:24]` of payload words come back as 0, and what
is decoded is well-formed (R80; D23). -/
def Obligations.EncodeOfDecodeRestoresTheWords : Prop :=
  ∀ (ev : Word) (ws : List Word) (i : Instr) (rest : List Word), decode (ev :: ws) = .event i rest →
    i.wf = true ∧
    ∃ payload, ws = payload ++ rest ∧ payload.length + 1 = i.length ∧
      encode i = ev :: payload.map fun w => (w.setWidth 24).setWidth 32

/-- No word selects two rows of the opcode map (R72; D20, D21). -/
def Obligations.OpcodeRowsNeverOverlap : Prop :=
  ∀ (ev : Word) (r q : OpRow), r ∈ opTable → q ∈ opTable → r.selects ev = true → q.selects ev = true → r = q

/-- The complete list of invalid words of R75; in particular every word of port 4 decodes (D23). -/
def Obligations.InvalidWordsAreExactlyTheListed : Prop :=
  ∀ ev : Word, decodeOp ev = none ↔
    (portField ev = 0 ∧ ev.extractLsb' 0 28 ≠ 0) ∨
    (portField ev = 1 ∧ (fnField ev ≠ 0 ∨ ev.extractLsb' 8 16 ≠ 0)) ∨
    (portField ev = 2 ∧ fnField ev ≠ 0) ∨
    (portField ev = 3 ∧ (2 ≤ (fnField ev).toNat ∨ (fnField ev = 0 ∧ immField ev ≠ 0))) ∨
    (portField ev = 5 ∧ (2 ≤ (fnField ev).toNat ∨ immField ev ≠ 0)) ∨
    6 ≤ (portField ev).toNat

/-- A `PUSH` whose payload the trace cuts short is refused, and nothing else is refused as one (R75, R79; D22, D23). -/
def Obligations.CutPushPayloadIsRefused : Prop :=
  ∀ (s : State) (ev : Word) (ws : List Word), s.trace.drop s.tpc = ev :: ws →
    ((∃ needed given, step s = .refused (.truncatedPush needed given)) ↔
      decodeOp ev = some .push ∧ ws.length < 2 * (countField ev).toNat)

/-- A step runs the decoded event: `step` is `exec` of it, then `tpc` moves past its words, a stalled event like any other;
the event moves neither `tpc` nor the trace (R79; D25). -/
def Obligations.StepRunsTheDecodedEvent : Prop :=
  ∀ (s : State) (i : Instr) (rest : List Word), decode (s.trace.drop s.tpc) = .event i rest →
    ∃ t, exec i s = .next t ∧ t.tpc = s.tpc ∧ t.trace = s.trace ∧
      step s = .next { t with tpc := s.tpc + i.length } ∧ s.trace.drop (s.tpc + i.length) = rest

/-- A step stops only at the end of the trace, at an invalid word or at a cut payload (R75, R79; D23, D25); the stop past
the end of the trace is the model's (log 7). -/
def Obligations.StepStopsOnlyWhereTheHarnessDoes : Prop :=
  ∀ s : State,
    (step s = .fault .endOfTrace ↔ s.tpc = s.trace.length) ∧
    (step s = .fault .tpcBeyondTrace ↔ s.trace.length < s.tpc) ∧
    (∀ w, step s = .refused (.invalidWord w) ↔ ∃ ws, s.trace.drop s.tpc = w :: ws ∧ decodeOp w = none) ∧
    ((∃ needed given, step s = .refused (.truncatedPush needed given)) ↔
      ∃ ev ws, s.trace.drop s.tpc = ev :: ws ∧ decodeOp ev = some .push ∧ ws.length < 2 * (countField ev).toNat) ∧
    (∀ m, step s ≠ .refused (.notModelled m))

/-- Every row of R72 decodes to its event, with every operand and whatever words follow: the immediates of R74, the qualifier
bit of R81, the payload of R73, whose words' top byte is ignored (30_encoding.md sections 1 to 3; D20 to D23). Then decode
vectors of 95_test_vectors.md part 3; among them the `PUSH` of one frame is not of part 3 but rests on R73, and the cut
payload is of part 3, which calls it refused: that the refusal carries the numbers 2 and 1 is the model's choice (log 15). -/
def Obligations.DecodeVectorsOfTheSpec : Prop :=
  (∀ rest : List Word, decode (0x00000000#32 :: rest) = .event .nop rest) ∧
  (∀ (n : BitVec 8) (ws rest : List Word), ws.length = 2 * n.toNat →
    ∃ fs, decode ((0x100000#24 ++ n) :: (ws ++ rest)) = .event (.push fs) rest ∧ fs.length = n.toNat ∧
      ∀ (k : Nat) (l r : Word), ws[2 * k]? = some l → ws[2 * k + 1]? = some r →
        fs[k]? = some ⟨l.extractLsb' 0 24, r.extractLsb' 0 24⟩) ∧
  (∀ (x : Imm) (rest : List Word),
    decode ((0x20#8 ++ x) :: rest) = .event (.consume x) rest ∧
    decode (0x30000000#32 :: rest) = .event .sof rest ∧
    decode ((0x31#8 ++ x) :: rest) = .event (.capture x) rest ∧
    decode ((0x40#8 ++ x) :: rest) = .event (.setAlt x) rest ∧
    decode ((0x41#8 ++ x) :: rest) = .event (.setMute x) rest ∧
    decode ((0x42#8 ++ x) :: rest) = .event (.getMute x) rest ∧
    decode ((0x43#8 ++ x) :: rest) = .event (.getRate x) rest ∧
    decode ((0x44#8 ++ x) :: rest) = .event (.setRate false x) rest ∧
    decode ((0x45#8 ++ x) :: rest) = .event (.setRate true x) rest ∧
    decode ((0x46#8 ++ x) :: rest) = .event (.forceInactive x) rest ∧
    decode ((0x47#8 ++ x) :: rest) = .event (.regRead x) rest ∧
    decode ((0x48#8 ++ x) :: rest) = .event (.ctlBad x) rest ∧
    decode ((0x49#8 ++ x) :: rest) = .event (.ctlUnimpl49 x) rest ∧
    (∀ a : BitVec 1, decode (((0x25#7 ++ a : BitVec 8) ++ x) :: rest) = .event (.ctlUnimpl4A a x) rest) ∧
    (∀ b : BitVec 2, decode (((0x13#6 ++ b : BitVec 8) ++ x) :: rest) = .event (.ctlUnimpl4C b x) rest) ∧
    decode (0x50000000#32 :: rest) = .event .fbTx rest ∧
    decode (0x51000000#32 :: rest) = .event .fbIncomplete rest) ∧
  decode [0x00000000#32] = .event .nop [] ∧
  decode [0x10000001#32, 0x00123456#32, 0xFFABCDEF#32] = .event (.push [⟨0x123456#24, 0xABCDEF#24⟩]) [] ∧
  decode [0x20FFFFFF#32] = .event (.consume 0xFFFFFF#24) [] ∧
  decode [0x30000000#32] = .event .sof [] ∧
  decode [0x31FFFFFF#32] = .event (.capture 0xFFFFFF#24) [] ∧
  decode [0x40000001#32] = .event (.setAlt 1#24) [] ∧
  decode [0x42000005#32] = .event (.getMute 5#24) [] ∧
  decode [0x4400AC44#32] = .event (.setRate false 44100#24) [] ∧
  decode [0x45017700#32] = .event (.setRate true 96000#24) [] ∧
  decode [0x46ABCDEF#32] = .event (.forceInactive 0xABCDEF#24) [] ∧
  decode [0x4B123456#32] = .event (.ctlUnimpl4A 1#1 0x123456#24) [] ∧
  decode [0x50000000#32] = .event .fbTx [] ∧
  decode [0x51000000#32] = .event .fbIncomplete [] ∧
  decode [0x50000001#32] = .invalid 0x50000001#32 ∧
  decode [0x10000001#32, 0x00123456#32] = .truncated 2 1

/-! ## The buffer (10_state.md, 20_memory.md, 40_buffer_ops.md) -/

/-- R28: the fill level is the number of slots outstanding while fewer than `C` are; exactly `C` outstanding read as 0; a
consumer `k` slots ahead reads as `C - k`. -/
def Obligations.FillLevelCountsOutstandingSlots : Prop :=
  ∀ s : State, s.cfg.WF → s.wptr.toNat < s.cfg.capacity →
    fill s < s.cfg.capacity ∧
    (fill s : Int) = ((s.wptr.toNat : Int) - rptr s) % s.cfg.capacity ∧
    (∀ d, d < s.cfg.capacity → s.wptr.toNat = (rptr s + d) % s.cfg.capacity → fill s = d) ∧
    (s.wptr.toNat = (rptr s + s.cfg.capacity) % s.cfg.capacity → fill s = 0) ∧
    (∀ k, 0 < k → k < s.cfg.capacity → rptr s = (s.wptr.toNat + k) % s.cfg.capacity →
      fill s = s.cfg.capacity - k)

/-- R52: every index used is inside `[0, C)`, from any state; `C - 1` is followed by 0; no event stops with a bounds fault,
and none lists a slot outside. -/
def Obligations.BufferIndicesStayInside : Prop :=
  ∀ s : State, s.cfg.WF →
    writeIndex s < s.cfg.capacity ∧ rptr s < s.cfg.capacity ∧
    (∀ w, s.wptr.toNat = s.cfg.capacity - 1 → (pushSlot s w).wptr.toNat = 0) ∧
    (1 ≤ s.rem.toNat → s.rem.toNat ≤ s.cfg.capacity → rptr s = s.cfg.capacity - 1 → rptr (consumeOne s) = 0) ∧
    (∀ i, ∃ t, exec i s = .next t ∧ (s.buf.below s.cfg.capacity = true → t.buf.below t.cfg.capacity = true))

/-- `PUSH` while active: `WPTR` and the fill level move by 4 per frame modulo `C`, the answer is the new fill level, and
nothing outside `BUF`, `WPTR`, `PLAYING` and `OUT` changes (R90, R96 law 2; D7, D8, D37 for the absence of any flag). -/
def Obligations.PushMovesThePointerAndAnswersTheFill : Prop :=
  ∀ (s : State) (fs : List Frame), s.cfg.WF → s.active = true → s.wptr.toNat < s.cfg.capacity →
    ∃ t, exec (.push fs) s = .next t ∧
      t.wptr.toNat = (s.wptr.toNat + 4 * fs.length) % s.cfg.capacity ∧
      fill t = (fill s + 4 * fs.length) % s.cfg.capacity ∧
      t.out = s.out ++ [⟨.fill, BitVec.ofNat 32 (fill t)⟩] ∧
      t = { s with buf := t.buf, wptr := t.wptr, playing := t.playing, out := t.out }

/-- `PUSH` while active: of frame `k`, as pushed, or zero when muted, the high and low slots of the left and of the right
sample lie in the slots from `WPTR + 4k` on, in this order, unless a later frame of the same `PUSH` laps it; every other slot
is as before (R57, R90, R96 law 4, R97). Which bits the high and the low slot hold is SplitDeterminesTheSample (R94; D5). -/
def Obligations.PushPlacesItsFrames : Prop :=
  ∀ (s : State) (fs : List Frame), s.cfg.WF → s.active = true → s.wptr.toNat < s.cfg.capacity → s.buf.wf = true →
    ∃ t, exec (.push fs) s = .next t ∧
      (∀ (k : Nat) (f : Frame) (l r : Sample), fs[k]? = some f → 4 * fs.length ≤ 4 * k + s.cfg.capacity →
        l = (if s.muted = true then 0 else f.left) → r = (if s.muted = true then 0 else f.right) →
        t.buf.read ((s.wptr.toNat + 4 * k) % s.cfg.capacity) = hiSlot s.cfg.split l ∧
        t.buf.read ((s.wptr.toNat + 4 * k + 1) % s.cfg.capacity) = loSlot s.cfg.split l ∧
        t.buf.read ((s.wptr.toNat + 4 * k + 2) % s.cfg.capacity) = hiSlot s.cfg.split r ∧
        t.buf.read ((s.wptr.toNat + 4 * k + 3) % s.cfg.capacity) = loSlot s.cfg.split r) ∧
      (∀ a, (∀ q, q < 4 * fs.length → a ≠ (s.wptr.toNat + q) % s.cfg.capacity) → t.buf.read a = s.buf.read a)

/-- The start transition: `PLAYING` is set exactly when the fill level is at `HALF` or above after some frame of the `PUSH`
(R91; the test after every frame is D8). -/
def Obligations.PushStartsPlayingAtHalf : Prop :=
  ∀ (s : State) (fs : List Frame), s.cfg.WF → s.active = true → s.wptr.toNat < s.cfg.capacity →
    ∃ t, exec (.push fs) s = .next t ∧
      (t.playing = true ↔ s.playing = true ∨
        ∃ k, 1 ≤ k ∧ k ≤ fs.length ∧ s.cfg.half ≤ (fill s + 4 * k) % s.cfg.capacity)

/-- `PUSH` while Inactive stores nothing, moves nothing and answers the fill level, which is 0 in every state that meets
the invariant (R90 corner case (b); D7). -/
def Obligations.PushWhileInactiveStoresNothing : Prop :=
  ∀ (s : State) (fs : List Frame), s.active = false →
    exec (.push fs) s = .next { s with out := s.out ++ [⟨.fill, BitVec.ofNat 32 (fill s)⟩] } ∧
    (GoodState s → fill s = 0)

/-- A muted `PUSH` moves `WPTR`, `PLAYING` and the returned fill level exactly as the same `PUSH` would unmuted; where
it stores (while active) it writes `4n` zero slots; slots already in the buffer are not touched (R97; that a `PUSH`
while Inactive stores nothing is R90 corner case (b), D7). -/
def Obligations.MutedPushWritesZerosAndMovesAlike : Prop :=
  ∀ (s : State) (fs : List Frame), s.cfg.WF → s.muted = true → s.wptr.toNat < s.cfg.capacity → s.buf.wf = true →
    ∃ t u, exec (.push fs) s = .next t ∧ exec (.push fs) { s with muted := false } = .next u ∧
      t.wptr = u.wptr ∧ t.playing = u.playing ∧ t.out = u.out ∧
      (s.active = true → ∀ q, q < 4 * fs.length → t.buf.read ((s.wptr.toNat + q) % s.cfg.capacity) = 0) ∧
      (∀ a, (∀ q, q < 4 * fs.length → a ≠ (s.wptr.toNat + q) % s.cfg.capacity) → t.buf.read a = s.buf.read a) ∧
      (s.active = false → t.buf = s.buf)

/-- R96 law 1: two `PUSH` events in a row leave the state of one `PUSH` of both, the last answer is the same, and the first
adds one more record. -/
def Obligations.PushOfConcatenationSplits : Prop :=
  ∀ (s : State) (fs gs : List Frame),
    ∃ t u v r q, exec (.push fs) s = .next t ∧ exec (.push gs) t = .next u ∧ exec (.push (fs ++ gs)) s = .next v ∧
      v.out = s.out ++ [r] ∧ t.out = s.out ++ [q] ∧ u.out = t.out ++ [r] ∧ { u with out := v.out } = v

/-- R96 law 3: from a reset buffer with `ACTIVE = 1` and no consumption, after any `PUSH` events totalling `F` frames the
fill level is `(4F) mod C` and `WPTR` is inside the buffer. -/
def Obligations.FillCountsPushedFramesModuloCapacity : Prop :=
  ∀ (s : State) (ps : List (List Frame)), s.cfg.WF → s.active = true → s.wptr = 0 →
    s.rem.toNat = s.cfg.capacity →
    ∃ t, execAll (ps.map .push) s = .next t ∧
      fill t = (4 * (ps.map List.length).sum) % s.cfg.capacity ∧ t.wptr.toNat < s.cfg.capacity

/-- `CONSUME k` while playing answers the `k` words from `RPTR` on, modulo `C`, moves `REM`, and changes nothing else; there
is no underrun check (R92; D4, D9). -/
def Obligations.ConsumeAnswersTheNextWords : Prop :=
  ∀ (s : State) (k : Imm), s.cfg.WF → s.playing = true → 1 ≤ s.rem.toNat → s.rem.toNat ≤ s.cfg.capacity →
    ∃ t, exec (.consume k) s = .next t ∧
      t.out = s.out ++ (List.range k.toNat).map (fun j =>
        ⟨.word, (s.buf.read ((rptr s + j) % s.cfg.capacity)).setWidth 32⟩) ∧
      rptr t = (rptr s + k.toNat) % s.cfg.capacity ∧
      t.rem.toNat = s.cfg.capacity - (rptr s + k.toNat) % s.cfg.capacity ∧
      t = { s with rem := t.rem, out := t.out }

/-- R92 corner case (f): consecutive `CONSUME` events equal one for the sum of their words (D9 for the stopped engine). -/
def Obligations.ConsumeOfSumSplits : Prop :=
  ∀ (s : State) (k l : Imm), k.toNat + l.toNat < 2 ^ 24 →
    ∃ t u, exec (.consume k) s = .next t ∧ exec (.consume l) t = .next u ∧ exec (.consume (k + l)) s = .next u

/-- R55: a consumed slot keeps its word, so a consumer that laps reads the same words again; a window read changes nothing
but the log; `CONSUME` and `PUSH` are not idempotent, the three resets are. -/
def Obligations.ReadsChangeNothingAndResetsAreIdempotent : Prop :=
  (∀ s k t, exec (.consume k) s = .next t → t.buf = s.buf) ∧
  (∀ (s : State) (k : Imm) (t : State) (j : Nat), s.cfg.WF → s.playing = true → 1 ≤ s.rem.toNat →
    s.rem.toNat ≤ s.cfg.capacity → exec (.consume k) s = .next t → j + s.cfg.capacity < k.toNat →
    t.out[s.out.length + j + s.cfg.capacity]? = t.out[s.out.length + j]?) ∧
  (∀ s off t, exec (.regRead off) s = .next t → t = { s with out := t.out }) ∧
  (∃ s k t u, GoodState s ∧ exec (.consume k) s = .next t ∧ exec (.consume k) t = .next u ∧ t.rem ≠ s.rem ∧ u.rem ≠ t.rem) ∧
  (∃ s fs t u, GoodState s ∧ exec (.push fs) s = .next t ∧ exec (.push fs) t = .next u ∧ t.wptr ≠ s.wptr ∧ u.wptr ≠ t.wptr) ∧
  (∀ s, bufReset (bufReset s) = bufReset s ∧ fbReset (fbReset s) = fbReset s ∧ deactivate (deactivate s) = deactivate s)

/-- R93: `BUF_RESET` zeroes the buffer and both pointer concepts and touches nothing else; it is idempotent. -/
def Obligations.BufResetZeroesBufferAndPointers : Prop :=
  ∀ s : State, s.cfg.WF →
    (∀ a, (bufReset s).buf.read a = 0) ∧ (bufReset s).wptr.toNat = 0 ∧ (bufReset s).rem.toNat = s.cfg.capacity ∧
    fill (bufReset s) = 0 ∧ rptr (bufReset s) = 0 ∧ bufReset (bufReset s) = bufReset s ∧
    bufReset s = { s with buf := (bufReset s).buf, wptr := (bufReset s).wptr, rem := (bufReset s).rem }

/-- R94: `HI` and `LO` hold `s[23:8]` and `s[7:0]` above a zero byte in the left-justified split, a zero byte above
`s[23:16]` and `s[15:0]` in the alternative; both map a zero sample to zero slots, and the two slots determine the sample.
That the left-justified split is the default is D5; that there are these two is log 11. -/
def Obligations.SplitDeterminesTheSample : Prop :=
  State.reset.cfg.split = .leftJustified ∧
  (∀ v : Sample,
    (hiSlot .leftJustified v).toNat = v.toNat / 2 ^ 8 ∧ (loSlot .leftJustified v).toNat = v.toNat % 2 ^ 8 * 2 ^ 8 ∧
    (hiSlot .rightJustified v).toNat = v.toNat / 2 ^ 16 ∧ (loSlot .rightJustified v).toNat = v.toNat % 2 ^ 16) ∧
  ∀ sp : Split, hiSlot sp 0 = 0 ∧ loSlot sp 0 = 0 ∧
    ∀ a b : Sample, hiSlot sp a = hiSlot sp b → loSlot sp a = loSlot sp b → a = b

/-- R95: the byte adapter makes `floor(len / 6)` frames, left before right, each sample little-endian (D6). -/
def Obligations.ByteAdapterMakesLittleEndianFrames : Prop :=
  ∀ bs : List Byte, (framesOfBytes bs).length = bs.length / 6 ∧
    ∀ (k : Nat) (f : Frame), (framesOfBytes bs)[k]? = some f →
      ∃ b0 b1 b2 b3 b4 b5 : Byte,
        bs[6 * k]? = some b0 ∧ bs[6 * k + 1]? = some b1 ∧ bs[6 * k + 2]? = some b2 ∧
        bs[6 * k + 3]? = some b3 ∧ bs[6 * k + 4]? = some b4 ∧ bs[6 * k + 5]? = some b5 ∧
        f.left.toNat = b0.toNat + 256 * b1.toNat + 65536 * b2.toNat ∧
        f.right.toNat = b3.toNat + 256 * b4.toNat + 65536 * b5.toNat

/-- R56: a feedback value leaves as `v[7:0]`, `v[15:8]`, `v[23:16]`, and a rate is accepted only as 3 bytes, being
`b0 + 256*b1 + 65536*b2`; a request of any other length is a malformed one. -/
def Obligations.ThreeByteValuesAreLittleEndian : Prop :=
  (∀ r : Response, r.kind = .fb → ∃ b0 b1 b2 : Byte, feedbackBytes r = [b0, b1, b2] ∧
    b0.toNat = r.val.toNat % 256 ∧ b1.toNat = r.val.toNat / 256 % 256 ∧ b2.toNat = r.val.toNat / 65536 % 256) ∧
  (∀ (clkfail : Bool) (b0 b1 b2 : Byte), ∃ r : Imm, rateRequest clkfail [b0, b1, b2] = .setRate clkfail r ∧
    r.toNat = b0.toNat + 256 * b1.toNat + 65536 * b2.toNat) ∧
  (∀ (clkfail : Bool) (bytes : List Byte), bytes.length ≠ 3 → ∃ x, rateRequest clkfail bytes = .ctlBad x)

/-! ## The clock feedback (41_feedback_ops.md) -/

/-- `CAPTURE v` stores the zero-extended count, in every stream state, and does nothing else (R100; D34). -/
def Obligations.CaptureStoresTheCount : Prop :=
  ∀ (s : State) (v : Imm), ∃ t, exec (.capture v) s = .next t ∧ t.cap.toNat = v.toNat ∧ t = { s with cap := t.cap }

/-- `SOF` while active, steps 1, 2 and 5: `CORR` is exactly `(HALF - diff) * SCALE`, `IN_TOL` says playing and
`|diff - HALF| <= 16`, with `diff` the fill level while playing and `HALF` otherwise; with the frame of the whole event
(R101, R109 (a); D2, D17). -/
def Obligations.SofCorrectsTowardHalf : Prop :=
  ∀ s : State, s.cfg.WF → s.active = true →
    ∃ t, exec .sof s = .next t ∧
      t.corr.toInt = ((s.cfg.half : Int) - (if s.playing = true then fill s else s.cfg.half : Nat)) * s.cfg.scale ∧
      (t.inTol = true ↔ s.playing = true ∧ fill s ≤ s.cfg.half + 16 ∧ s.cfg.half ≤ fill s + 16) ∧
      t = { s with corr := t.corr, accum := t.accum, sofcnt := t.sofcnt, curval := t.curval, pending := t.pending,
                   inTol := t.inTol }

/-- `SOF` while active, steps 3 and 4: the capture is accumulated; on the closing tick `CURVAL` is computed, `ACCUM` and
`SOFCNT` are cleared and `PENDING` is set, on any other tick `CURVAL` and `PENDING` stay (R101; D2, D12). -/
def Obligations.SofAccumulatesAndClosesWindows : Prop :=
  ∀ s : State, s.active = true →
    ∃ t, exec .sof s = .next t ∧
      if (s.sofcnt.toNat + 1) % 2 ^ 32 = 2 ^ s.shift.toNat then
        t.curval.toNat = (((s.accum.toNat + s.cap.toNat) % 2 ^ 32 +
          (if s.cfg.closeAddsCapture = true then s.cap.toNat else 0)) * 2 ^ s.shift.toNat) % 2 ^ 32 ∧
        t.accum = 0 ∧ t.sofcnt = 0 ∧ t.pending = true
      else
        t.curval = s.curval ∧ t.accum.toNat = (s.accum.toNat + s.cap.toNat) % 2 ^ 32 ∧
        t.sofcnt.toNat = (s.sofcnt.toNat + 1) % 2 ^ 32 ∧ t.pending = s.pending

/-- R108: the sign and the exact range of the correction, with `diff` of R101; drift is no error (the tick answers nothing)
and shows in nothing but `CORR` and the advisory `IN_TOL`. -/
def Obligations.CorrectionPushesTowardHalf : Prop :=
  ∀ (s : State) (diff : Nat), s.cfg.WF → s.active = true → diff = (if s.playing = true then fill s else s.cfg.half) →
    ∃ t, exec .sof s = .next t ∧
      (diff < s.cfg.half → 0 < t.corr.toInt) ∧
      (diff = s.cfg.half → t.corr.toInt = 0) ∧
      (s.cfg.half < diff → t.corr.toInt < 0) ∧
      -(((s.cfg.half : Int) - 1) * s.cfg.scale) ≤ t.corr.toInt ∧ t.corr.toInt ≤ (s.cfg.half : Int) * s.cfg.scale ∧
      (diff = s.cfg.capacity - 1 → t.corr.toInt = -(((s.cfg.half : Int) - 1) * s.cfg.scale)) ∧
      (diff = 0 → t.corr.toInt = (s.cfg.half : Int) * s.cfg.scale) ∧
      t.out = s.out ∧
      ∀ wp : Word, ∃ u, exec .sof { s with wptr := wp } = .next u ∧
        { u with wptr := s.wptr, corr := t.corr, inTol := t.inTol } = t

/-- R105: from a freshly reset FeedbackState while active, through any events but the two that deactivate (the others reset
nothing while active), `SOFCNT` counts the `SOF` ticks modulo `N = 2^SHIFT_CFG`, and tick number `k` sets `PENDING` exactly
when `N` divides `k`; no other event sets it, and only the transport's events and deactivation clear it (the spec's own
inference from R101 and R106; D14, D15). -/
def Obligations.EveryWindowClosesOnItsLastTick : Prop :=
  ∀ (s : State) (es : List Instr), s.cfg.WF → s.active = true → s.shift.toNat = s.cfg.shiftCfg →
    s.sofcnt = 0 → s.pending = false → (∀ i ∈ es, i ≠ .setAlt 0 ∧ ∀ x, i ≠ .forceInactive x) →
    ∃ t, execAll es s = .next t ∧ t.sofcnt.toNat = es.count .sof % 2 ^ s.cfg.shiftCfg ∧
      ((∀ i ∈ es, i ≠ .fbTx ∧ i ≠ .fbIncomplete) → (t.pending = true ↔ 2 ^ s.cfg.shiftCfg ≤ es.count .sof)) ∧
      (∃ u, exec .sof t = .next u ∧
        (u.pending = true ↔ t.pending = true ∨ (es.count .sof + 1) % 2 ^ s.cfg.shiftCfg = 0)) ∧
      (∃ u, exec .sof { t with pending := false } = .next u ∧
        (u.pending = true ↔ (es.count .sof + 1) % 2 ^ s.cfg.shiftCfg = 0)) ∧
      (∀ i u, exec i t = .next u → t.pending = false → u.pending = true → i = .sof) ∧
      (∀ i u, exec i t = .next u → t.pending = true → u.pending = false →
        i = .fbTx ∨ i = .fbIncomplete ∨ i = .setAlt 0 ∨ ∃ x, i = .forceInactive x)

/-- R101 corner case (c): over a whole window the measurement is the sum of its captures, plus the last one again under
`CLOSE_ADDS_CAPTURE`, times `N`, wrapped to 32 bits (D2, D12). -/
def Obligations.WindowMeasuresTheSumOfItsCaptures : Prop :=
  ∀ (s : State) (vs : List Imm), s.cfg.WF → s.active = true → s.shift.toNat = s.cfg.shiftCfg →
    s.sofcnt = 0 → s.accum = 0 → vs.length = 2 ^ s.cfg.shiftCfg →
    ∃ t, execAll (ticks vs) s = .next t ∧ t.pending = true ∧ t.accum = 0 ∧ t.sofcnt = 0 ∧
      t.curval.toNat = ((captureSum vs + windowExtra s.cfg vs) * 2 ^ s.cfg.shiftCfg) % 2 ^ 32

/-- R109 (b): with every capture under the bound, the measurement of a window is the integer, without a wrap, and the bound
holds of every capture when `SHIFT_CFG` is at most 3 (the spec's own inference from R100 and R101). -/
def Obligations.BoundedCapturesNeverWrap : Prop :=
  (∀ (s : State) (vs : List Imm), s.cfg.WF → s.active = true → s.shift.toNat = s.cfg.shiftCfg →
    s.sofcnt = 0 → s.accum = 0 → vs.length = 2 ^ s.cfg.shiftCfg → (∀ v ∈ vs, NoWrapCapture s.cfg v) →
    ∃ t, execAll (ticks vs) s = .next t ∧
      t.curval.toNat = (captureSum vs + windowExtra s.cfg vs) * 2 ^ s.cfg.shiftCfg) ∧
  (∀ (c : Config) (v : Imm), c.shiftCfg ≤ 3 → NoWrapCapture c v)

/-- R104: in every state that meets the invariant the transmitted value is the integer sum clamped to the window around
`DEFRATE`, and it fits the 3-byte payload (D16). -/
def Obligations.FeedbackValueIsTheClampedSum : Prop :=
  ∀ s : State, GoodState s →
    fbval s = max ((s.defrate.toNat : Int) - 1024)
      (min ((s.curval.toNat : Int) + s.corr.toInt) ((s.defrate.toNat : Int) + 1024)) ∧
    0 ≤ fbval s ∧ fbval s < 2 ^ 24 ∧ ((wrap32 (fbval s)).toNat : Int) = fbval s

/-- `FB_TX`: with `PENDING` it hands the value over, records it and clears `PENDING`; without, it does nothing
(R102; D14). -/
def Obligations.FbTxSendsWhatIsPending : Prop :=
  ∀ s : State,
    (s.pending = true → exec .fbTx s = .next
      { s with fbLast := wrap32 (fbval s), pending := false, out := s.out ++ [⟨.fb, wrap32 (fbval s)⟩] }) ∧
    (s.pending = false → exec .fbTx s = .next s)

/-- `FB_INCOMPLETE`: while active it flushes, resends the value as it is now and clears `PENDING`; while Inactive it is
ignored (R103; D15). -/
def Obligations.FbIncompleteFlushesAndResends : Prop :=
  ∀ s : State,
    (s.active = true → exec .fbIncomplete s = .next
      { s with fbLast := wrap32 (fbval s), pending := false,
               out := s.out ++ [⟨.flush, 0⟩, ⟨.fb, wrap32 (fbval s)⟩] }) ∧
    (s.active = false → exec .fbIncomplete s = .next s)

/-- R106: what `FB_RESET` leaves, and that it touches nothing else and is idempotent (`CORR` and `IN_TOL` are D13). -/
def Obligations.FbResetRestoresTheDefaults : Prop :=
  ∀ (s : State) (r : SampleRate), s.cfg.WF → s.rate.toNat = rateHz r →
    (fbReset s).defrate.toNat = tableEntry s.cfg.rateTable r ∧ (fbReset s).curval = (fbReset s).defrate ∧
    (fbReset s).shift.toNat = s.cfg.shiftCfg ∧ fbReset (fbReset s) = fbReset s ∧
    fbReset s = { s with defrate := (fbReset s).defrate, curval := (fbReset s).curval, shift := (fbReset s).shift,
                         accum := 0, sofcnt := 0, pending := false, corr := 0, inTol := false }

/-! ## Control (42_control_ops.md) -/

/-- R121: deactivation, by `SET_ALT 0` or `FORCE_INACTIVE` and by nothing else, from any state: the flags cleared, the
buffer zeroed, both pointers and FeedbackState reset, `MUTED`, `RATE`, `RATE_IND`, `CAP` and `FB_LAST` kept; idempotent;
what it leaves is what R44 item 4 demands (`CORR` and `IN_TOL` are D13). -/
def Obligations.DeactivationResetsEverythingItOwns : Prop :=
  ∀ (s : State) (r : SampleRate) (imm : Imm), s.cfg.WF → s.rate.toNat = rateHz r →
    ∃ t, exec (.forceInactive imm) s = .next t ∧
      exec (.setAlt 0) s = .next { t with out := s.out ++ [⟨.ack, 0⟩] } ∧
      t.active = false ∧ t.playing = false ∧ HeldReset t ∧ (∀ a, t.buf.read a = 0) ∧
      t.defrate.toNat = tableEntry s.cfg.rateTable r ∧ t.shift.toNat = s.cfg.shiftCfg ∧
      t = { s with active := t.active, playing := t.playing, buf := t.buf, wptr := t.wptr, rem := t.rem,
                   defrate := t.defrate, curval := t.curval, accum := t.accum, sofcnt := t.sofcnt,
                   pending := t.pending, shift := t.shift, corr := t.corr, inTol := t.inTol } ∧
      exec (.forceInactive imm) t = .next t ∧
      (∀ i u, exec i s = .next u → s.active = true → u.active = false → i = .setAlt 0 ∨ ∃ x, i = .forceInactive x)

/-- `SET_ALT 1`: from Inactive it arms the engine, sets `ACTIVE` and resets FeedbackState; while active it is acknowledged
and changes nothing; other settings stall with cause 2 (R122; D18). -/
def Obligations.SetAltActivatesOnce : Prop :=
  ∀ s : State,
    (s.active = false → ∀ r : SampleRate, s.cfg.WF → s.rate.toNat = rateHz r →
      ∃ t, exec (.setAlt 1) s = .next t ∧ t.out = s.out ++ [⟨.ack, 0⟩] ∧
        t.active = true ∧ t.playing = false ∧ t.rem.toNat = s.cfg.capacity ∧
        t.defrate.toNat = tableEntry s.cfg.rateTable r ∧ t.curval = t.defrate ∧ t.accum = 0 ∧ t.sofcnt = 0 ∧
        t.pending = false ∧ t.shift.toNat = s.cfg.shiftCfg ∧ t.corr = 0 ∧ t.inTol = false ∧
        t = { s with active := t.active, playing := t.playing, rem := t.rem, defrate := t.defrate,
                     curval := t.curval, accum := t.accum, sofcnt := t.sofcnt, pending := t.pending,
                     shift := t.shift, corr := t.corr, inTol := t.inTol, out := t.out }) ∧
    (s.active = true → exec (.setAlt 1) s = .next { s with out := s.out ++ [⟨.ack, 0⟩] }) ∧
    (∀ a : Imm, 2 ≤ a.toNat → exec (.setAlt a) s = .next { s with out := s.out ++ [⟨.stall, 2⟩] })

/-- `SET_MUTE` sets the flag to 0 or 1 in every stream state and stalls with cause 2 on any other operand (R123; D31). -/
def Obligations.SetMuteSetsTheFlag : Prop :=
  ∀ (s : State) (m : Imm),
    (m.toNat ≤ 1 → exec (.setMute m) s = .next
      { s with muted := decide (m.toNat = 1), out := s.out ++ [⟨.ack, 0⟩] }) ∧
    (2 ≤ m.toNat → exec (.setMute m) s = .next { s with out := s.out ++ [⟨.stall, 2⟩] })

/-- `GET_MUTE` and `GET_RATE` answer the flag and the rate, or stall with cause 2 on a non-zero `IMM`, and write nothing
(R124, R126; D39). -/
def Obligations.GetsAnswerTheCurrentValue : Prop :=
  ∀ (s : State) (imm : Imm),
    (imm = 0 → exec (.getMute imm) s = .next
        { s with out := s.out ++ [⟨.data, if s.muted = true then 1 else 0⟩] } ∧
      exec (.getRate imm) s = .next { s with out := s.out ++ [⟨.data, s.rate⟩] }) ∧
    (imm ≠ 0 → exec (.getMute imm) s = .next { s with out := s.out ++ [⟨.stall, 2⟩] } ∧
      exec (.getRate imm) s = .next { s with out := s.out ++ [⟨.stall, 2⟩] })

/-- `SET_RATE`: the checks in their order, each failing one leaving every register as it was, and the commit
(R125, R153; D19). -/
def Obligations.SetRateChecksInOrder : Prop :=
  ∀ (s : State) (clkfail : Bool) (r : Imm), s.cfg.WF →
    ((r.toNat ≠ 44100 ∧ r.toNat ≠ 48000 ∧ r.toNat ≠ 88200 ∧ r.toNat ≠ 96000) →
      exec (.setRate clkfail r) s = .next { s with out := s.out ++ [⟨.stall, 3⟩] }) ∧
    (∀ q : SampleRate, r.toNat = rateHz q →
      (r.toNat = s.rate.toNat → exec (.setRate clkfail r) s = .next { s with out := s.out ++ [⟨.ack, 0⟩] }) ∧
      (r.toNat ≠ s.rate.toNat → s.active = true →
        exec (.setRate clkfail r) s = .next { s with out := s.out ++ [⟨.stall, 4⟩] }) ∧
      (r.toNat ≠ s.rate.toNat → s.active = false → clkfail = true →
        exec (.setRate clkfail r) s = .next { s with out := s.out ++ [⟨.stall, 5⟩] }) ∧
      (r.toNat ≠ s.rate.toNat → s.active = false → clkfail = false →
        ∃ t, exec (.setRate clkfail r) s = .next t ∧ t.out = s.out ++ [⟨.ack, 0⟩] ∧
          t.rate.toNat = r.toNat ∧ t.rateInd = t.rate ∧ t.defrate.toNat = tableEntry s.cfg.rateTable q ∧
          t.curval = t.defrate ∧ t.accum = 0 ∧ t.sofcnt = 0 ∧ t.pending = false ∧
          t.shift.toNat = s.cfg.shiftCfg ∧ t.corr = 0 ∧ t.inTol = false ∧
          t = { s with rate := t.rate, rateInd := t.rateInd, defrate := t.defrate, curval := t.curval,
                       accum := t.accum, sofcnt := t.sofcnt, pending := t.pending, shift := t.shift,
                       corr := t.corr, inTol := t.inTol, out := t.out }))

/-- `REG_READ` answers at the 17 offsets, the multiples of 4 up to 0x40, and stalls with cause 6 at every other
(R40, R128; D27). -/
def Obligations.RegReadAnswersAtTheWindowOffsets : Prop :=
  ∀ (s : State) (off : Imm),
    (off.toNat % 4 = 0 ∧ off.toNat ≤ 0x40 →
      ∃ v, exec (.regRead off) s = .next { s with out := s.out ++ [⟨.data, v⟩] }) ∧
    (¬ (off.toNat % 4 = 0 ∧ off.toNat ≤ 0x40) →
      exec (.regRead off) s = .next { s with out := s.out ++ [⟨.stall, 6⟩] })

/-- The value at each of the 17 offsets (R40; D27); the two status registers are the next statement's. -/
def Obligations.RegReadValuesFollowTheWindow : Prop :=
  ∀ (s : State) (p : Imm × Word),
    p ∈ [(0x00#24, streamStat s), (0x04#24, s.rate), (0x08#24, BitVec.ofNat 32 s.cfg.capacity), (0x0C#24, s.wptr),
         (0x10#24, s.rem), (0x14#24, BitVec.ofNat 32 (rptr s)), (0x18#24, BitVec.ofNat 32 (fill s)), (0x1C#24, s.cap),
         (0x20#24, s.accum), (0x24#24, s.sofcnt), (0x28#24, s.shift), (0x2C#24, s.defrate), (0x30#24, s.curval),
         (0x34#24, s.corr), (0x38#24, fbStat s), (0x3C#24, s.fbLast), (0x40#24, s.rateInd)] →
    exec (.regRead p.1) s = .next { s with out := s.out ++ [⟨.data, p.2⟩] }

/-- The fields of `STREAM_STAT` and `FB_STAT`, reserved bits 0 (R41, R42; D27). -/
def Obligations.StatusRegistersHoldTheirFields : Prop :=
  ∀ (s : State) (r : SampleRate), s.rate.toNat = rateHz r →
    (streamStat s).toNat = (if s.active = true then 1 else 0) + 2 * (if s.playing = true then 1 else 0) +
      4 * (if s.muted = true then 1 else 0) +
      16 * (match r with | .r44100 => 0 | .r48000 => 1 | .r88200 => 2 | .r96000 => 3) + 256 * 24 ∧
    (fbStat s).toNat = (if s.pending = true then 1 else 0) + 2 * (if s.inTol = true then 1 else 0)

/-- R130 and R131: every word of opcode 0x48 is a malformed request, which stalls with cause 2, and every word of opcodes
0x49 to 0x4F an unimplemented one, which stalls with cause 1; the immediate does not matter and nothing else happens. -/
def Obligations.BadAndUnimplementedRequestsStall : Prop :=
  (∀ (s : State) (x : Imm) (a : BitVec 1) (b : BitVec 2),
    exec (.ctlBad x) s = .next { s with out := s.out ++ [⟨.stall, 2⟩] } ∧
    exec (.ctlUnimpl49 x) s = .next { s with out := s.out ++ [⟨.stall, 1⟩] } ∧
    exec (.ctlUnimpl4A a x) s = .next { s with out := s.out ++ [⟨.stall, 1⟩] } ∧
    exec (.ctlUnimpl4C b x) s = .next { s with out := s.out ++ [⟨.stall, 1⟩] }) ∧
  (∀ ev : Word, ev.toNat / 2 ^ 24 = 0x48 → decode [ev] = .event (.ctlBad (immField ev)) [] ∧
    agentOf (.ctlBad (immField ev)) = some .controller) ∧
  (∀ ev : Word, 0x49 ≤ ev.toNat / 2 ^ 24 → ev.toNat / 2 ^ 24 ≤ 0x4F →
    ∃ i, decode [ev] = .event i [] ∧ agentOf i = some .controller ∧
      ((∃ x, i = .ctlUnimpl49 x) ∨ (∃ a x, i = .ctlUnimpl4A a x) ∨ ∃ b x, i = .ctlUnimpl4C b x))

/-- `NOP` does nothing (R129; D21), a `CONSUME` of a stopped or armed engine does nothing (R92; D9), an `SOF` while
Inactive does nothing (R101; D35). -/
def Obligations.IdleEventsDoNothing : Prop :=
  ∀ s : State, exec .nop s = .next s ∧
    (s.playing = false → ∀ k, exec (.consume k) s = .next s) ∧
    (s.active = false → exec .sof s = .next s)

/-! ## Rejections, ownership, the state machine (10_state.md, 42_control_ops.md, 60_exceptions.md) -/

/-- R141: an event that stalls appends its one record and ends; every register has the value it had before, and in a trace
`tpc` advances past it like past any other. -/
def Obligations.StalledEventChangesNothingElse : Prop :=
  ∀ (s : State) (i : Instr) (rest : List Word) (t : State) (v : Word), exec i s = .next t →
    (⟨.stall, v⟩ : Response) ∈ t.out.drop s.out.length →
    t = { s with out := s.out ++ [⟨.stall, v⟩] } ∧ (∃ cause, v = stallCode cause) ∧
    (decode (s.trace.drop s.tpc) = .event i rest →
      step s = .next { s with out := s.out ++ [⟨.stall, v⟩], tpc := s.tpc + i.length })

/-- Every request of the host is answered with exactly one `ACK`, `DATA` or `STALL` record, and a rejected one changes
nothing (42_control_ops.md section 1, the last two sentences of R120; `FORCE_INACTIVE` is no host request, D32). -/
def Obligations.EveryHostRequestIsAnsweredOnce : Prop :=
  ∀ (s : State) (i : Instr), sourceOf i = some .controlRequest →
    ∃ t r, exec i s = .next t ∧ t.out = s.out ++ [r] ∧
      (r.kind = .ack ∨ r.kind = .data ∨ r.kind = .stall) ∧
      (r.kind = .stall → t = { s with out := t.out })

/-- R132: every event moves the stream state as the table says, with the table's notes: what is ignored changes nothing,
what is acknowledged only answers, `SET_ALT 1` from Inactive arms the engine and runs `FB_RESET`, and the resets run again
while Inactive show nothing. -/
def Obligations.StreamStateFollowsTheTable : Prop :=
  ∀ (s : State) (i : Instr) (st : StreamState), GoodState s → streamState s = some st →
    ∃ t, exec i s = .next t ∧ streamState t = some (nextStream (reachesHalf s i) i st) ∧
      (st = .inactive →
        (i = .setAlt 1 → t = { fbReset { s with rem := wrap32 s.cfg.capacity, active := true } with
          out := s.out ++ [⟨.ack, 0⟩] }) ∧
        (i = .setAlt 0 → t = { s with out := s.out ++ [⟨.ack, 0⟩] }) ∧
        (∀ imm, i = .forceInactive imm → t = s) ∧
        (∀ fs, i = .push fs → t = { s with out := t.out })) ∧
      (st ≠ .inactive → i = .setAlt 1 → t = { s with out := s.out ++ [⟨.ack, 0⟩] }) ∧
      (st ≠ .activePlaying → ∀ k, i = .consume k → t = s)

/-- R24: `playing` implies `active` in every reachable state; only `SET_ALT 1` sets `ACTIVE`, only `PUSH` sets `PLAYING`,
only `DEACTIVATE`, which `SET_ALT 0` and `FORCE_INACTIVE` run, clears `PLAYING`, and likewise `ACTIVE` (R121); both are 0 at
reset. -/
def Obligations.OnlyTheirEventsMoveActiveAndPlaying : Prop :=
  (∀ s, Reachable s → s.playing = true → s.active = true) ∧
  (∀ (i : Instr) (s t : State), exec i s = .next t → s.active = false → t.active = true → i = .setAlt 1) ∧
  (∀ (i : Instr) (s t : State), exec i s = .next t → s.active = true → t.active = false →
    i = .setAlt 0 ∨ ∃ imm, i = .forceInactive imm) ∧
  (∀ (i : Instr) (s t : State), exec i s = .next t → s.playing = false → t.playing = true → ∃ fs, i = .push fs) ∧
  (∀ (i : Instr) (s t : State), exec i s = .next t → (s.playing = true → s.active = true) → s.playing = true →
    t.playing = false → i = .setAlt 0 ∨ ∃ imm, i = .forceInactive imm) ∧
  (∀ c, (State.resetOf c).active = false ∧ (State.resetOf c).playing = false)

/-- No event is refused or stopped, in any state, and each piece of state is written only by the events that the ownership
table lists for it (R43, R147). No event touches the configuration or the trace, which the model holds in State (log 1,
log 6), nor `tpc`, which only the harness moves (R79; D25), and the log only grows (R78; D24). -/
def Obligations.EventsWriteOnlyWhatTheirAgentOwns : Prop :=
  ∀ (i : Instr) (s : State), ∃ t, exec i s = .next t ∧
    (∀ p, mayWrite p i = false → samePiece p s t) ∧
    t.cfg = s.cfg ∧ t.trace = s.trace ∧ t.tpc = s.tpc ∧ ∃ answers, t.out = s.out ++ answers

/-- The indicators `IN_TOL` and `RATE_IND` and the shadow `FB_LAST` are outputs: apart from a window read, no event's
effect on anything else depends on them (10_state.md section 5, R38, R39; D14, D17, D36). -/
def Obligations.IndicatorsInfluenceNothing : Prop :=
  ∀ (i : Instr) (s : State) (a : Bool) (b c : Word), (∀ off, i ≠ .regRead off) →
    ∃ t u, exec i s = .next t ∧ exec i { s with inTol := a, rateInd := b, fbLast := c } = .next u ∧
      { u with inTol := t.inTol, rateInd := t.rateInd, fbLast := t.fbLast } = t

/-- The enables of R143: an event whose source is not enabled changes no register; only an ignored `PUSH` answers
(60_exceptions.md section 2; D7, D9, D14, D15, D35). -/
def Obligations.DisabledSourcesAreIgnored : Prop :=
  ∀ (s : State) (i : Instr) (src : Source), sourceOf i = some src → sourceEnabled s src = false →
    ∃ t, exec i s = .next t ∧ t = { s with out := t.out } ∧ (src ≠ .usbDataReceived → t = s)

/-! ## Reset and the invariants (10_state.md R44, R45; 70_reset_and_hazards.md R160) -/

/-- The power-on state of every configuration that meets R5, with any trace loaded, meets the invariant, and so does
State.reset (R45, R160; D28; the values of the OPEN parameters in State.reset are the model's, log 2 and log 3, and no clause
names them). -/
def Obligations.PowerOnStateMeetsTheInvariant : Prop :=
  (∀ (c : Config) (t : List Word), c.WF → GoodState (loaded c t)) ∧ GoodState State.reset

/-- Every step keeps the invariant, from every state that meets it (R44; items 3 and 5 are the spec's own inferences). -/
def Obligations.EveryStepKeepsTheInvariant : Prop :=
  ∀ s t : State, GoodState s → step s = .next t → GoodState t

/-- R160: power-on reset, from any contents, gives every register of the block but `CAP` its value of the table of R45
(D28). That it leaves `CAP`, which R160 calls unspecified, as it was, and likewise `tpc`, the log and the trace, is the model's
choice (log 14); the table's `tpc` 0 and empty `OUT` are those of the start of a run, ResetLeavesTheTableOfR45. -/
def Obligations.PowerOnResetGivesTheResetTable : Prop :=
  ∀ s : State, powerOnReset s =
    { State.resetOf s.cfg with cap := s.cap, tpc := s.tpc, out := s.out, trace := s.trace }

/-- The values of the reset table of R45, over any configuration and in State.reset, and the table's last sentence: at the
initial rate deactivation reaches the same values but for the rows it leaves alone (D4, D13, D14, D17, D25, D28, D36; `CAP`
is only named as the parameter it is). -/
def Obligations.ResetLeavesTheTableOfR45 : Prop :=
  (∀ c : Config, c.WF →
    (State.resetOf c).active = false ∧ (State.resetOf c).playing = false ∧ (State.resetOf c).muted = false ∧
    (State.resetOf c).rate.toNat = rateHz c.rateInit ∧ (State.resetOf c).rateInd.toNat = rateHz c.rateInit ∧
    (∀ a, (State.resetOf c).buf.read a = 0) ∧ (State.resetOf c).wptr.toNat = 0 ∧
    (State.resetOf c).rem.toNat = c.capacity ∧ rptr (State.resetOf c) = 0 ∧
    (State.resetOf c).defrate.toNat = tableEntry c.rateTable c.rateInit ∧
    (State.resetOf c).curval.toNat = tableEntry c.rateTable c.rateInit ∧
    (State.resetOf c).accum.toNat = 0 ∧ (State.resetOf c).sofcnt.toNat = 0 ∧ (State.resetOf c).pending = false ∧
    (State.resetOf c).shift.toNat = c.shiftCfg ∧ (State.resetOf c).corr.toNat = 0 ∧ (State.resetOf c).inTol = false ∧
    (State.resetOf c).fbLast.toNat = 0 ∧ (State.resetOf c).cap = c.capInit ∧ (State.resetOf c).tpc = 0 ∧
    (State.resetOf c).out = []) ∧
  (State.reset.rate = 44100 ∧ State.reset.rateInd = 44100 ∧ State.reset.rem = 3072 ∧ State.reset.defrate = 722861 ∧
    State.reset.curval = 722861 ∧ State.reset.shift = 2) ∧
  (∀ s : State, s.cfg.WF → s.rate.toNat = rateHz s.cfg.rateInit →
    deactivate s = { State.resetOf s.cfg with
      muted := s.muted, rate := s.rate, rateInd := s.rateInd, cap := s.cap, fbLast := s.fbLast, tpc := s.tpc,
      out := s.out, trace := s.trace })

/-- Every `FB` record a step appends, from every state that meets the invariant, lies within 1024 of the nominal value of the
rate in force and fits 24 bits; and every state a run from power-on reaches meets the invariant, which makes it the
document's property X4 (95_test_vectors.md X4; R104; D16). -/
def Obligations.EveryFeedbackSentIsInTheWindow : Prop :=
  (∀ (s t : State) (r : Response), GoodState s → step s = .next t → r ∈ t.out.drop s.out.length → r.kind = .fb →
    ∃ q : SampleRate, s.rate.toNat = rateHz q ∧
      tableEntry s.cfg.rateTable q ≤ r.val.toNat + 1024 ∧ r.val.toNat ≤ tableEntry s.cfg.rateTable q + 1024 ∧
      r.val.toNat < 2 ^ 24) ∧
  ∀ s : State, Reachable s → GoodState s

/-! ## The micro steps (20_memory.md R60, R61; log 9) -/

/-- The micro steps of a `PUSH`, of an `SOF` or of a read of `BUF_RPTR` or `BUF_FILL`, taken without interruption, are the
event; while Inactive the first step of a `PUSH` or `SOF` alone is the ignored event (R60, R61, R90, R101, R128; D7, D29, D35).
Interrupted, an `SOF` and a read of the two derived registers compute with the `REM` of their first read and the `WPTR` of
their second, whatever ran between (R61, R128; D29); that the tick takes `CAP` and the flags at its second read is log 9. -/
def Obligations.MicroStepsAreTheEventOrMixTwoReads : Prop :=
  (∀ (s : State) (fs : List Frame),
    (s.active = true → ∃ t, exec (.push fs) s = .next t ∧ microRun (pushSchedule fs) (.idle s) = some (.idle t)) ∧
    (s.active = true → ∃ t, exec .sof s = .next t ∧ microRun tickSchedule (.idle s) = some (.idle t)) ∧
    (∀ off : Imm, off = 0x14 ∨ off = 0x18 →
      ∃ t, exec (.regRead off) s = .next t ∧ microRun [.lookRead off, .lookEnd] (.idle s) = some (.idle t)) ∧
    (s.active = false → ∃ t, exec (.push fs) s = .next t ∧ microRun [.pushBegin fs] (.idle s) = some (.idle t)) ∧
    (s.active = false → exec .sof s = .next s ∧ microRun [.tickRead] (.idle s) = some (.idle s))) ∧
  (∀ (m n : MicroState) (between : List Micro), m.st.cfg.WF → m.st.active = true → (∀ a ∈ between, a ≠ .tickEnd) →
    microRun (.tickRead :: between) m = some n →
    ∃ t, microStep .tickEnd n = some { n with st := t, tick := none } ∧ t = sofTick m.st.rem n.st.wptr n.st ∧
      t.corr.toInt = ((m.st.cfg.half : Int) - (if n.st.playing = true
        then ((n.st.wptr.toNat : Int) - rptr m.st) % m.st.cfg.capacity else m.st.cfg.half)) * m.st.cfg.scale) ∧
  (∀ (m n : MicroState) (between : List Micro) (off : Imm), m.st.cfg.WF → off = 0x14 ∨ off = 0x18 →
    (∀ a ∈ between, a ≠ .lookEnd) → microRun (.lookRead off :: between) m = some n →
    ∃ v : Word, microStep .lookEnd n =
        some { n with st := { n.st with out := n.st.out ++ [⟨.data, v⟩] }, look := none } ∧
      (v.toNat : Int) = if off = 0x14 then (rptr m.st : Int)
        else ((n.st.wptr.toNat : Int) - rptr m.st) % m.st.cfg.capacity)

/-- Whatever reading agents do between the micro steps of a `PUSH`, its slots, `WPTR` and `PLAYING` end as if it had run
whole (R60; D29). Which events count as reading ones, with `FB_TX` and `FB_INCOMPLETE` kept out, is the model's choice
(log 9). -/
def Obligations.ReadersInsideAPushDoNotChangeIt : Prop :=
  ∀ (s t : State) (fs : List Frame) (acts : List Micro) (m : MicroState), s.active = true →
    (∀ a ∈ acts, a = .pushNext ∨ a = .tickRead ∨ a = .tickEnd ∨ (∃ off, a = .lookRead off) ∨ a = .lookEnd ∨
      ∃ i, a = .whole i ∧ isReader i = true) →
    exec (.push fs) s = .next t →
    microRun (.pushBegin fs :: (acts ++ [.pushEnd])) (.idle s) = some m →
    m.push = none ∧ m.st.buf = t.buf ∧ m.st.wptr = t.wptr ∧ m.st.playing = t.playing

/-- What may run whole while other events are under way. Inside a `PUSH`: no control event but a window read, and no other
`PUSH`. Between the two reads of an `SOF`: no control event but a window read, and no other event of the ticker (`SOF`,
`CAPTURE`). Between the two reads of a derived register: no control event at all (R58, R60, R144, R145, R163; D29). The
consumer's words, and each reading agent with nothing of its own under way, do run. That the transport's events wait for all
three, and what may run beyond the spec's words, is the model's choice (log 9). -/
def Obligations.PushAndTickExcludeControlAndTheirOwnAgent : Prop :=
  ∀ (m : MicroState) (i : Instr),
    (m.push.isSome = true →
      (agentOf i = some .controller → (∀ off, i ≠ .regRead off) → microStep (.whole i) m = none) ∧
      (agentOf i = some .producer → microStep (.whole i) m = none) ∧ ∀ fs, microStep (.pushBegin fs) m = none) ∧
    (m.tick.isSome = true →
      (agentOf i = some .controller → (∀ off, i ≠ .regRead off) → microStep (.whole i) m = none) ∧
      (agentOf i = some .ticker → microStep (.whole i) m = none) ∧ microStep .tickRead m = none) ∧
    (m.look.isSome = true →
      (agentOf i = some .controller → microStep (.whole i) m = none) ∧ ∀ off, microStep (.lookRead off) m = none) ∧
    (m.push.isSome = true ∨ m.tick.isSome = true ∨ m.look.isSome = true →
      agentOf i = some .transport → microStep (.whole i) m = none) ∧
    (agentOf i = some .consumer ∨ (m.tick = none ∧ agentOf i = some .ticker) ∨
        (m.look = none ∧ ∃ off, i = .regRead off) →
      ∃ t, exec i m.st = .next t ∧ microStep (.whole i) m = some { m with st := t })
end

