-- ==== Sys2Proof/Laws/State.lean ====
section
/-! SUPPORT. One lemma per field per update, each true by `rfl`: what every shared operation leaves in every field. -/

namespace Sys2Proof.Machine

/-! ## `respond` -/

@[simp] theorem respond_cfg (kind : ResponseKind) (val : Word) (s : State) : (respond kind val s).cfg = s.cfg := rfl
@[simp] theorem respond_rate (kind : ResponseKind) (val : Word) (s : State) : (respond kind val s).rate = s.rate := rfl
@[simp] theorem respond_muted (kind : ResponseKind) (val : Word) (s : State) : (respond kind val s).muted = s.muted := rfl
@[simp] theorem respond_active (kind : ResponseKind) (val : Word) (s : State) : (respond kind val s).active = s.active := rfl
@[simp] theorem respond_playing (kind : ResponseKind) (val : Word) (s : State) : (respond kind val s).playing = s.playing := rfl
@[simp] theorem respond_buf (kind : ResponseKind) (val : Word) (s : State) : (respond kind val s).buf = s.buf := rfl
@[simp] theorem respond_wptr (kind : ResponseKind) (val : Word) (s : State) : (respond kind val s).wptr = s.wptr := rfl
@[simp] theorem respond_rem (kind : ResponseKind) (val : Word) (s : State) : (respond kind val s).rem = s.rem := rfl
@[simp] theorem respond_defrate (kind : ResponseKind) (val : Word) (s : State) : (respond kind val s).defrate = s.defrate := rfl
@[simp] theorem respond_curval (kind : ResponseKind) (val : Word) (s : State) : (respond kind val s).curval = s.curval := rfl
@[simp] theorem respond_accum (kind : ResponseKind) (val : Word) (s : State) : (respond kind val s).accum = s.accum := rfl
@[simp] theorem respond_sofcnt (kind : ResponseKind) (val : Word) (s : State) : (respond kind val s).sofcnt = s.sofcnt := rfl
@[simp] theorem respond_corr (kind : ResponseKind) (val : Word) (s : State) : (respond kind val s).corr = s.corr := rfl
@[simp] theorem respond_pending (kind : ResponseKind) (val : Word) (s : State) : (respond kind val s).pending = s.pending := rfl
@[simp] theorem respond_shift (kind : ResponseKind) (val : Word) (s : State) : (respond kind val s).shift = s.shift := rfl
@[simp] theorem respond_cap (kind : ResponseKind) (val : Word) (s : State) : (respond kind val s).cap = s.cap := rfl
@[simp] theorem respond_inTol (kind : ResponseKind) (val : Word) (s : State) : (respond kind val s).inTol = s.inTol := rfl
@[simp] theorem respond_rateInd (kind : ResponseKind) (val : Word) (s : State) : (respond kind val s).rateInd = s.rateInd := rfl
@[simp] theorem respond_fbLast (kind : ResponseKind) (val : Word) (s : State) : (respond kind val s).fbLast = s.fbLast := rfl
@[simp] theorem respond_tpc (kind : ResponseKind) (val : Word) (s : State) : (respond kind val s).tpc = s.tpc := rfl
@[simp] theorem respond_out (kind : ResponseKind) (val : Word) (s : State) : (respond kind val s).out = s.out ++ [⟨kind, val⟩] := rfl
@[simp] theorem respond_trace (kind : ResponseKind) (val : Word) (s : State) : (respond kind val s).trace = s.trace := rfl

/-! ## `raiseStall` -/

@[simp] theorem raiseStall_cfg (cause : StallCause) (s : State) : (raiseStall cause s).cfg = s.cfg := rfl
@[simp] theorem raiseStall_rate (cause : StallCause) (s : State) : (raiseStall cause s).rate = s.rate := rfl
@[simp] theorem raiseStall_muted (cause : StallCause) (s : State) : (raiseStall cause s).muted = s.muted := rfl
@[simp] theorem raiseStall_active (cause : StallCause) (s : State) : (raiseStall cause s).active = s.active := rfl
@[simp] theorem raiseStall_playing (cause : StallCause) (s : State) : (raiseStall cause s).playing = s.playing := rfl
@[simp] theorem raiseStall_buf (cause : StallCause) (s : State) : (raiseStall cause s).buf = s.buf := rfl
@[simp] theorem raiseStall_wptr (cause : StallCause) (s : State) : (raiseStall cause s).wptr = s.wptr := rfl
@[simp] theorem raiseStall_rem (cause : StallCause) (s : State) : (raiseStall cause s).rem = s.rem := rfl
@[simp] theorem raiseStall_defrate (cause : StallCause) (s : State) : (raiseStall cause s).defrate = s.defrate := rfl
@[simp] theorem raiseStall_curval (cause : StallCause) (s : State) : (raiseStall cause s).curval = s.curval := rfl
@[simp] theorem raiseStall_accum (cause : StallCause) (s : State) : (raiseStall cause s).accum = s.accum := rfl
@[simp] theorem raiseStall_sofcnt (cause : StallCause) (s : State) : (raiseStall cause s).sofcnt = s.sofcnt := rfl
@[simp] theorem raiseStall_corr (cause : StallCause) (s : State) : (raiseStall cause s).corr = s.corr := rfl
@[simp] theorem raiseStall_pending (cause : StallCause) (s : State) : (raiseStall cause s).pending = s.pending := rfl
@[simp] theorem raiseStall_shift (cause : StallCause) (s : State) : (raiseStall cause s).shift = s.shift := rfl
@[simp] theorem raiseStall_cap (cause : StallCause) (s : State) : (raiseStall cause s).cap = s.cap := rfl
@[simp] theorem raiseStall_inTol (cause : StallCause) (s : State) : (raiseStall cause s).inTol = s.inTol := rfl
@[simp] theorem raiseStall_rateInd (cause : StallCause) (s : State) : (raiseStall cause s).rateInd = s.rateInd := rfl
@[simp] theorem raiseStall_fbLast (cause : StallCause) (s : State) : (raiseStall cause s).fbLast = s.fbLast := rfl
@[simp] theorem raiseStall_tpc (cause : StallCause) (s : State) : (raiseStall cause s).tpc = s.tpc := rfl
@[simp] theorem raiseStall_out (cause : StallCause) (s : State) : (raiseStall cause s).out = s.out ++ [⟨.stall, stallCode cause⟩] := rfl
@[simp] theorem raiseStall_trace (cause : StallCause) (s : State) : (raiseStall cause s).trace = s.trace := rfl

/-! ## `answerFill` -/

@[simp] theorem answerFill_cfg (s : State) : (answerFill s).cfg = s.cfg := rfl
@[simp] theorem answerFill_rate (s : State) : (answerFill s).rate = s.rate := rfl
@[simp] theorem answerFill_muted (s : State) : (answerFill s).muted = s.muted := rfl
@[simp] theorem answerFill_active (s : State) : (answerFill s).active = s.active := rfl
@[simp] theorem answerFill_playing (s : State) : (answerFill s).playing = s.playing := rfl
@[simp] theorem answerFill_buf (s : State) : (answerFill s).buf = s.buf := rfl
@[simp] theorem answerFill_wptr (s : State) : (answerFill s).wptr = s.wptr := rfl
@[simp] theorem answerFill_rem (s : State) : (answerFill s).rem = s.rem := rfl
@[simp] theorem answerFill_defrate (s : State) : (answerFill s).defrate = s.defrate := rfl
@[simp] theorem answerFill_curval (s : State) : (answerFill s).curval = s.curval := rfl
@[simp] theorem answerFill_accum (s : State) : (answerFill s).accum = s.accum := rfl
@[simp] theorem answerFill_sofcnt (s : State) : (answerFill s).sofcnt = s.sofcnt := rfl
@[simp] theorem answerFill_corr (s : State) : (answerFill s).corr = s.corr := rfl
@[simp] theorem answerFill_pending (s : State) : (answerFill s).pending = s.pending := rfl
@[simp] theorem answerFill_shift (s : State) : (answerFill s).shift = s.shift := rfl
@[simp] theorem answerFill_cap (s : State) : (answerFill s).cap = s.cap := rfl
@[simp] theorem answerFill_inTol (s : State) : (answerFill s).inTol = s.inTol := rfl
@[simp] theorem answerFill_rateInd (s : State) : (answerFill s).rateInd = s.rateInd := rfl
@[simp] theorem answerFill_fbLast (s : State) : (answerFill s).fbLast = s.fbLast := rfl
@[simp] theorem answerFill_tpc (s : State) : (answerFill s).tpc = s.tpc := rfl
@[simp] theorem answerFill_out (s : State) : (answerFill s).out = s.out ++ [⟨.fill, wrap32 (fill s)⟩] := rfl
@[simp] theorem answerFill_trace (s : State) : (answerFill s).trace = s.trace := rfl

/-! ## `bufReset` -/

@[simp] theorem bufReset_cfg (s : State) : (bufReset s).cfg = s.cfg := rfl
@[simp] theorem bufReset_rate (s : State) : (bufReset s).rate = s.rate := rfl
@[simp] theorem bufReset_muted (s : State) : (bufReset s).muted = s.muted := rfl
@[simp] theorem bufReset_active (s : State) : (bufReset s).active = s.active := rfl
@[simp] theorem bufReset_playing (s : State) : (bufReset s).playing = s.playing := rfl
@[simp] theorem bufReset_buf (s : State) : (bufReset s).buf = [] := rfl
@[simp] theorem bufReset_wptr (s : State) : (bufReset s).wptr = 0 := rfl
@[simp] theorem bufReset_rem (s : State) : (bufReset s).rem = wrap32 s.cfg.capacity := rfl
@[simp] theorem bufReset_defrate (s : State) : (bufReset s).defrate = s.defrate := rfl
@[simp] theorem bufReset_curval (s : State) : (bufReset s).curval = s.curval := rfl
@[simp] theorem bufReset_accum (s : State) : (bufReset s).accum = s.accum := rfl
@[simp] theorem bufReset_sofcnt (s : State) : (bufReset s).sofcnt = s.sofcnt := rfl
@[simp] theorem bufReset_corr (s : State) : (bufReset s).corr = s.corr := rfl
@[simp] theorem bufReset_pending (s : State) : (bufReset s).pending = s.pending := rfl
@[simp] theorem bufReset_shift (s : State) : (bufReset s).shift = s.shift := rfl
@[simp] theorem bufReset_cap (s : State) : (bufReset s).cap = s.cap := rfl
@[simp] theorem bufReset_inTol (s : State) : (bufReset s).inTol = s.inTol := rfl
@[simp] theorem bufReset_rateInd (s : State) : (bufReset s).rateInd = s.rateInd := rfl
@[simp] theorem bufReset_fbLast (s : State) : (bufReset s).fbLast = s.fbLast := rfl
@[simp] theorem bufReset_tpc (s : State) : (bufReset s).tpc = s.tpc := rfl
@[simp] theorem bufReset_out (s : State) : (bufReset s).out = s.out := rfl
@[simp] theorem bufReset_trace (s : State) : (bufReset s).trace = s.trace := rfl

/-! ## `fbReset` -/

@[simp] theorem fbReset_cfg (s : State) : (fbReset s).cfg = s.cfg := rfl
@[simp] theorem fbReset_rate (s : State) : (fbReset s).rate = s.rate := rfl
@[simp] theorem fbReset_muted (s : State) : (fbReset s).muted = s.muted := rfl
@[simp] theorem fbReset_active (s : State) : (fbReset s).active = s.active := rfl
@[simp] theorem fbReset_playing (s : State) : (fbReset s).playing = s.playing := rfl
@[simp] theorem fbReset_buf (s : State) : (fbReset s).buf = s.buf := rfl
@[simp] theorem fbReset_wptr (s : State) : (fbReset s).wptr = s.wptr := rfl
@[simp] theorem fbReset_rem (s : State) : (fbReset s).rem = s.rem := rfl
@[simp] theorem fbReset_defrate (s : State) : (fbReset s).defrate = defaultRateWord s.cfg.rateTable s.rate := rfl
@[simp] theorem fbReset_curval (s : State) : (fbReset s).curval = defaultRateWord s.cfg.rateTable s.rate := rfl
@[simp] theorem fbReset_accum (s : State) : (fbReset s).accum = 0 := rfl
@[simp] theorem fbReset_sofcnt (s : State) : (fbReset s).sofcnt = 0 := rfl
@[simp] theorem fbReset_corr (s : State) : (fbReset s).corr = 0 := rfl
@[simp] theorem fbReset_pending (s : State) : (fbReset s).pending = false := rfl
@[simp] theorem fbReset_shift (s : State) : (fbReset s).shift = wrap32 s.cfg.shiftCfg := rfl
@[simp] theorem fbReset_cap (s : State) : (fbReset s).cap = s.cap := rfl
@[simp] theorem fbReset_inTol (s : State) : (fbReset s).inTol = false := rfl
@[simp] theorem fbReset_rateInd (s : State) : (fbReset s).rateInd = s.rateInd := rfl
@[simp] theorem fbReset_fbLast (s : State) : (fbReset s).fbLast = s.fbLast := rfl
@[simp] theorem fbReset_tpc (s : State) : (fbReset s).tpc = s.tpc := rfl
@[simp] theorem fbReset_out (s : State) : (fbReset s).out = s.out := rfl
@[simp] theorem fbReset_trace (s : State) : (fbReset s).trace = s.trace := rfl

/-! ## `deactivate` -/

@[simp] theorem deactivate_cfg (s : State) : (deactivate s).cfg = s.cfg := rfl
@[simp] theorem deactivate_rate (s : State) : (deactivate s).rate = s.rate := rfl
@[simp] theorem deactivate_muted (s : State) : (deactivate s).muted = s.muted := rfl
@[simp] theorem deactivate_active (s : State) : (deactivate s).active = false := rfl
@[simp] theorem deactivate_playing (s : State) : (deactivate s).playing = false := rfl
@[simp] theorem deactivate_buf (s : State) : (deactivate s).buf = [] := rfl
@[simp] theorem deactivate_wptr (s : State) : (deactivate s).wptr = 0 := rfl
@[simp] theorem deactivate_rem (s : State) : (deactivate s).rem = wrap32 s.cfg.capacity := rfl
@[simp] theorem deactivate_defrate (s : State) : (deactivate s).defrate = defaultRateWord s.cfg.rateTable s.rate := rfl
@[simp] theorem deactivate_curval (s : State) : (deactivate s).curval = defaultRateWord s.cfg.rateTable s.rate := rfl
@[simp] theorem deactivate_accum (s : State) : (deactivate s).accum = 0 := rfl
@[simp] theorem deactivate_sofcnt (s : State) : (deactivate s).sofcnt = 0 := rfl
@[simp] theorem deactivate_corr (s : State) : (deactivate s).corr = 0 := rfl
@[simp] theorem deactivate_pending (s : State) : (deactivate s).pending = false := rfl
@[simp] theorem deactivate_shift (s : State) : (deactivate s).shift = wrap32 s.cfg.shiftCfg := rfl
@[simp] theorem deactivate_cap (s : State) : (deactivate s).cap = s.cap := rfl
@[simp] theorem deactivate_inTol (s : State) : (deactivate s).inTol = false := rfl
@[simp] theorem deactivate_rateInd (s : State) : (deactivate s).rateInd = s.rateInd := rfl
@[simp] theorem deactivate_fbLast (s : State) : (deactivate s).fbLast = s.fbLast := rfl
@[simp] theorem deactivate_tpc (s : State) : (deactivate s).tpc = s.tpc := rfl
@[simp] theorem deactivate_out (s : State) : (deactivate s).out = s.out := rfl
@[simp] theorem deactivate_trace (s : State) : (deactivate s).trace = s.trace := rfl

/-! ## `activate` -/

@[simp] theorem activate_cfg (s : State) : (activate s).cfg = s.cfg := rfl
@[simp] theorem activate_rate (s : State) : (activate s).rate = s.rate := rfl
@[simp] theorem activate_muted (s : State) : (activate s).muted = s.muted := rfl
@[simp] theorem activate_active (s : State) : (activate s).active = true := rfl
@[simp] theorem activate_playing (s : State) : (activate s).playing = false := rfl
@[simp] theorem activate_buf (s : State) : (activate s).buf = s.buf := rfl
@[simp] theorem activate_wptr (s : State) : (activate s).wptr = s.wptr := rfl
@[simp] theorem activate_rem (s : State) : (activate s).rem = wrap32 s.cfg.capacity := rfl
@[simp] theorem activate_defrate (s : State) : (activate s).defrate = defaultRateWord s.cfg.rateTable s.rate := rfl
@[simp] theorem activate_curval (s : State) : (activate s).curval = defaultRateWord s.cfg.rateTable s.rate := rfl
@[simp] theorem activate_accum (s : State) : (activate s).accum = 0 := rfl
@[simp] theorem activate_sofcnt (s : State) : (activate s).sofcnt = 0 := rfl
@[simp] theorem activate_corr (s : State) : (activate s).corr = 0 := rfl
@[simp] theorem activate_pending (s : State) : (activate s).pending = false := rfl
@[simp] theorem activate_shift (s : State) : (activate s).shift = wrap32 s.cfg.shiftCfg := rfl
@[simp] theorem activate_cap (s : State) : (activate s).cap = s.cap := rfl
@[simp] theorem activate_inTol (s : State) : (activate s).inTol = false := rfl
@[simp] theorem activate_rateInd (s : State) : (activate s).rateInd = s.rateInd := rfl
@[simp] theorem activate_fbLast (s : State) : (activate s).fbLast = s.fbLast := rfl
@[simp] theorem activate_tpc (s : State) : (activate s).tpc = s.tpc := rfl
@[simp] theorem activate_out (s : State) : (activate s).out = s.out := rfl
@[simp] theorem activate_trace (s : State) : (activate s).trace = s.trace := rfl

/-! ## `commitRate` -/

@[simp] theorem commitRate_cfg (r : Word) (s : State) : (commitRate r s).cfg = s.cfg := rfl
@[simp] theorem commitRate_rate (r : Word) (s : State) : (commitRate r s).rate = r := rfl
@[simp] theorem commitRate_muted (r : Word) (s : State) : (commitRate r s).muted = s.muted := rfl
@[simp] theorem commitRate_active (r : Word) (s : State) : (commitRate r s).active = s.active := rfl
@[simp] theorem commitRate_playing (r : Word) (s : State) : (commitRate r s).playing = s.playing := rfl
@[simp] theorem commitRate_buf (r : Word) (s : State) : (commitRate r s).buf = s.buf := rfl
@[simp] theorem commitRate_wptr (r : Word) (s : State) : (commitRate r s).wptr = s.wptr := rfl
@[simp] theorem commitRate_rem (r : Word) (s : State) : (commitRate r s).rem = s.rem := rfl
@[simp] theorem commitRate_defrate (r : Word) (s : State) : (commitRate r s).defrate = defaultRateWord s.cfg.rateTable r := rfl
@[simp] theorem commitRate_curval (r : Word) (s : State) : (commitRate r s).curval = defaultRateWord s.cfg.rateTable r := rfl
@[simp] theorem commitRate_accum (r : Word) (s : State) : (commitRate r s).accum = 0 := rfl
@[simp] theorem commitRate_sofcnt (r : Word) (s : State) : (commitRate r s).sofcnt = 0 := rfl
@[simp] theorem commitRate_corr (r : Word) (s : State) : (commitRate r s).corr = 0 := rfl
@[simp] theorem commitRate_pending (r : Word) (s : State) : (commitRate r s).pending = false := rfl
@[simp] theorem commitRate_shift (r : Word) (s : State) : (commitRate r s).shift = wrap32 s.cfg.shiftCfg := rfl
@[simp] theorem commitRate_cap (r : Word) (s : State) : (commitRate r s).cap = s.cap := rfl
@[simp] theorem commitRate_inTol (r : Word) (s : State) : (commitRate r s).inTol = false := rfl
@[simp] theorem commitRate_rateInd (r : Word) (s : State) : (commitRate r s).rateInd = r := rfl
@[simp] theorem commitRate_fbLast (r : Word) (s : State) : (commitRate r s).fbLast = s.fbLast := rfl
@[simp] theorem commitRate_tpc (r : Word) (s : State) : (commitRate r s).tpc = s.tpc := rfl
@[simp] theorem commitRate_out (r : Word) (s : State) : (commitRate r s).out = s.out := rfl
@[simp] theorem commitRate_trace (r : Word) (s : State) : (commitRate r s).trace = s.trace := rfl

/-! ## `pushSlot` -/

@[simp] theorem pushSlot_cfg (w : Slot) (s : State) : (pushSlot s w).cfg = s.cfg := rfl
@[simp] theorem pushSlot_rate (w : Slot) (s : State) : (pushSlot s w).rate = s.rate := rfl
@[simp] theorem pushSlot_muted (w : Slot) (s : State) : (pushSlot s w).muted = s.muted := rfl
@[simp] theorem pushSlot_active (w : Slot) (s : State) : (pushSlot s w).active = s.active := rfl
@[simp] theorem pushSlot_playing (w : Slot) (s : State) : (pushSlot s w).playing = s.playing := rfl
@[simp] theorem pushSlot_buf (w : Slot) (s : State) : (pushSlot s w).buf = s.buf.write (writeIndex s) w := rfl
@[simp] theorem pushSlot_wptr (w : Slot) (s : State) : (pushSlot s w).wptr = nextWptr s := rfl
@[simp] theorem pushSlot_rem (w : Slot) (s : State) : (pushSlot s w).rem = s.rem := rfl
@[simp] theorem pushSlot_defrate (w : Slot) (s : State) : (pushSlot s w).defrate = s.defrate := rfl
@[simp] theorem pushSlot_curval (w : Slot) (s : State) : (pushSlot s w).curval = s.curval := rfl
@[simp] theorem pushSlot_accum (w : Slot) (s : State) : (pushSlot s w).accum = s.accum := rfl
@[simp] theorem pushSlot_sofcnt (w : Slot) (s : State) : (pushSlot s w).sofcnt = s.sofcnt := rfl
@[simp] theorem pushSlot_corr (w : Slot) (s : State) : (pushSlot s w).corr = s.corr := rfl
@[simp] theorem pushSlot_pending (w : Slot) (s : State) : (pushSlot s w).pending = s.pending := rfl
@[simp] theorem pushSlot_shift (w : Slot) (s : State) : (pushSlot s w).shift = s.shift := rfl
@[simp] theorem pushSlot_cap (w : Slot) (s : State) : (pushSlot s w).cap = s.cap := rfl
@[simp] theorem pushSlot_inTol (w : Slot) (s : State) : (pushSlot s w).inTol = s.inTol := rfl
@[simp] theorem pushSlot_rateInd (w : Slot) (s : State) : (pushSlot s w).rateInd = s.rateInd := rfl
@[simp] theorem pushSlot_fbLast (w : Slot) (s : State) : (pushSlot s w).fbLast = s.fbLast := rfl
@[simp] theorem pushSlot_tpc (w : Slot) (s : State) : (pushSlot s w).tpc = s.tpc := rfl
@[simp] theorem pushSlot_out (w : Slot) (s : State) : (pushSlot s w).out = s.out := rfl
@[simp] theorem pushSlot_trace (w : Slot) (s : State) : (pushSlot s w).trace = s.trace := rfl

/-! ## `startCheck` -/

@[simp] theorem startCheck_cfg (s : State) : (startCheck s).cfg = s.cfg := rfl
@[simp] theorem startCheck_rate (s : State) : (startCheck s).rate = s.rate := rfl
@[simp] theorem startCheck_muted (s : State) : (startCheck s).muted = s.muted := rfl
@[simp] theorem startCheck_active (s : State) : (startCheck s).active = s.active := rfl
@[simp] theorem startCheck_playing (s : State) : (startCheck s).playing = (s.playing || startsPlaying s) := rfl
@[simp] theorem startCheck_buf (s : State) : (startCheck s).buf = s.buf := rfl
@[simp] theorem startCheck_wptr (s : State) : (startCheck s).wptr = s.wptr := rfl
@[simp] theorem startCheck_rem (s : State) : (startCheck s).rem = s.rem := rfl
@[simp] theorem startCheck_defrate (s : State) : (startCheck s).defrate = s.defrate := rfl
@[simp] theorem startCheck_curval (s : State) : (startCheck s).curval = s.curval := rfl
@[simp] theorem startCheck_accum (s : State) : (startCheck s).accum = s.accum := rfl
@[simp] theorem startCheck_sofcnt (s : State) : (startCheck s).sofcnt = s.sofcnt := rfl
@[simp] theorem startCheck_corr (s : State) : (startCheck s).corr = s.corr := rfl
@[simp] theorem startCheck_pending (s : State) : (startCheck s).pending = s.pending := rfl
@[simp] theorem startCheck_shift (s : State) : (startCheck s).shift = s.shift := rfl
@[simp] theorem startCheck_cap (s : State) : (startCheck s).cap = s.cap := rfl
@[simp] theorem startCheck_inTol (s : State) : (startCheck s).inTol = s.inTol := rfl
@[simp] theorem startCheck_rateInd (s : State) : (startCheck s).rateInd = s.rateInd := rfl
@[simp] theorem startCheck_fbLast (s : State) : (startCheck s).fbLast = s.fbLast := rfl
@[simp] theorem startCheck_tpc (s : State) : (startCheck s).tpc = s.tpc := rfl
@[simp] theorem startCheck_out (s : State) : (startCheck s).out = s.out := rfl
@[simp] theorem startCheck_trace (s : State) : (startCheck s).trace = s.trace := rfl

/-! ## `consumeOne` -/

@[simp] theorem consumeOne_cfg (s : State) : (consumeOne s).cfg = s.cfg := rfl
@[simp] theorem consumeOne_rate (s : State) : (consumeOne s).rate = s.rate := rfl
@[simp] theorem consumeOne_muted (s : State) : (consumeOne s).muted = s.muted := rfl
@[simp] theorem consumeOne_active (s : State) : (consumeOne s).active = s.active := rfl
@[simp] theorem consumeOne_playing (s : State) : (consumeOne s).playing = s.playing := rfl
@[simp] theorem consumeOne_buf (s : State) : (consumeOne s).buf = s.buf := rfl
@[simp] theorem consumeOne_wptr (s : State) : (consumeOne s).wptr = s.wptr := rfl
@[simp] theorem consumeOne_rem (s : State) : (consumeOne s).rem = nextRem s := rfl
@[simp] theorem consumeOne_defrate (s : State) : (consumeOne s).defrate = s.defrate := rfl
@[simp] theorem consumeOne_curval (s : State) : (consumeOne s).curval = s.curval := rfl
@[simp] theorem consumeOne_accum (s : State) : (consumeOne s).accum = s.accum := rfl
@[simp] theorem consumeOne_sofcnt (s : State) : (consumeOne s).sofcnt = s.sofcnt := rfl
@[simp] theorem consumeOne_corr (s : State) : (consumeOne s).corr = s.corr := rfl
@[simp] theorem consumeOne_pending (s : State) : (consumeOne s).pending = s.pending := rfl
@[simp] theorem consumeOne_shift (s : State) : (consumeOne s).shift = s.shift := rfl
@[simp] theorem consumeOne_cap (s : State) : (consumeOne s).cap = s.cap := rfl
@[simp] theorem consumeOne_inTol (s : State) : (consumeOne s).inTol = s.inTol := rfl
@[simp] theorem consumeOne_rateInd (s : State) : (consumeOne s).rateInd = s.rateInd := rfl
@[simp] theorem consumeOne_fbLast (s : State) : (consumeOne s).fbLast = s.fbLast := rfl
@[simp] theorem consumeOne_tpc (s : State) : (consumeOne s).tpc = s.tpc := rfl
@[simp] theorem consumeOne_out (s : State) : (consumeOne s).out = s.out ++ [⟨.word, (s.buf.read (rptr s)).setWidth 32⟩] := rfl
@[simp] theorem consumeOne_trace (s : State) : (consumeOne s).trace = s.trace := rfl

/-! ## `sofCorrect` -/

@[simp] theorem sofCorrect_cfg (diff : Nat) (s : State) : (sofCorrect diff s).cfg = s.cfg := rfl
@[simp] theorem sofCorrect_rate (diff : Nat) (s : State) : (sofCorrect diff s).rate = s.rate := rfl
@[simp] theorem sofCorrect_muted (diff : Nat) (s : State) : (sofCorrect diff s).muted = s.muted := rfl
@[simp] theorem sofCorrect_active (diff : Nat) (s : State) : (sofCorrect diff s).active = s.active := rfl
@[simp] theorem sofCorrect_playing (diff : Nat) (s : State) : (sofCorrect diff s).playing = s.playing := rfl
@[simp] theorem sofCorrect_buf (diff : Nat) (s : State) : (sofCorrect diff s).buf = s.buf := rfl
@[simp] theorem sofCorrect_wptr (diff : Nat) (s : State) : (sofCorrect diff s).wptr = s.wptr := rfl
@[simp] theorem sofCorrect_rem (diff : Nat) (s : State) : (sofCorrect diff s).rem = s.rem := rfl
@[simp] theorem sofCorrect_defrate (diff : Nat) (s : State) : (sofCorrect diff s).defrate = s.defrate := rfl
@[simp] theorem sofCorrect_curval (diff : Nat) (s : State) : (sofCorrect diff s).curval = s.curval := rfl
@[simp] theorem sofCorrect_accum (diff : Nat) (s : State) : (sofCorrect diff s).accum = s.accum := rfl
@[simp] theorem sofCorrect_sofcnt (diff : Nat) (s : State) : (sofCorrect diff s).sofcnt = s.sofcnt := rfl
@[simp] theorem sofCorrect_corr (diff : Nat) (s : State) : (sofCorrect diff s).corr = corrOf s.cfg diff := rfl
@[simp] theorem sofCorrect_pending (diff : Nat) (s : State) : (sofCorrect diff s).pending = s.pending := rfl
@[simp] theorem sofCorrect_shift (diff : Nat) (s : State) : (sofCorrect diff s).shift = s.shift := rfl
@[simp] theorem sofCorrect_cap (diff : Nat) (s : State) : (sofCorrect diff s).cap = s.cap := rfl
@[simp] theorem sofCorrect_inTol (diff : Nat) (s : State) : (sofCorrect diff s).inTol = s.inTol := rfl
@[simp] theorem sofCorrect_rateInd (diff : Nat) (s : State) : (sofCorrect diff s).rateInd = s.rateInd := rfl
@[simp] theorem sofCorrect_fbLast (diff : Nat) (s : State) : (sofCorrect diff s).fbLast = s.fbLast := rfl
@[simp] theorem sofCorrect_tpc (diff : Nat) (s : State) : (sofCorrect diff s).tpc = s.tpc := rfl
@[simp] theorem sofCorrect_out (diff : Nat) (s : State) : (sofCorrect diff s).out = s.out := rfl
@[simp] theorem sofCorrect_trace (diff : Nat) (s : State) : (sofCorrect diff s).trace = s.trace := rfl

/-! ## `sofAccumulate` -/

@[simp] theorem sofAccumulate_cfg (s : State) : (sofAccumulate s).cfg = s.cfg := rfl
@[simp] theorem sofAccumulate_rate (s : State) : (sofAccumulate s).rate = s.rate := rfl
@[simp] theorem sofAccumulate_muted (s : State) : (sofAccumulate s).muted = s.muted := rfl
@[simp] theorem sofAccumulate_active (s : State) : (sofAccumulate s).active = s.active := rfl
@[simp] theorem sofAccumulate_playing (s : State) : (sofAccumulate s).playing = s.playing := rfl
@[simp] theorem sofAccumulate_buf (s : State) : (sofAccumulate s).buf = s.buf := rfl
@[simp] theorem sofAccumulate_wptr (s : State) : (sofAccumulate s).wptr = s.wptr := rfl
@[simp] theorem sofAccumulate_rem (s : State) : (sofAccumulate s).rem = s.rem := rfl
@[simp] theorem sofAccumulate_defrate (s : State) : (sofAccumulate s).defrate = s.defrate := rfl
@[simp] theorem sofAccumulate_curval (s : State) : (sofAccumulate s).curval = s.curval := rfl
@[simp] theorem sofAccumulate_accum (s : State) : (sofAccumulate s).accum = wrap32 ((s.accum.toNat : Int) + s.cap.toNat) := rfl
@[simp] theorem sofAccumulate_sofcnt (s : State) : (sofAccumulate s).sofcnt = s.sofcnt := rfl
@[simp] theorem sofAccumulate_corr (s : State) : (sofAccumulate s).corr = s.corr := rfl
@[simp] theorem sofAccumulate_pending (s : State) : (sofAccumulate s).pending = s.pending := rfl
@[simp] theorem sofAccumulate_shift (s : State) : (sofAccumulate s).shift = s.shift := rfl
@[simp] theorem sofAccumulate_cap (s : State) : (sofAccumulate s).cap = s.cap := rfl
@[simp] theorem sofAccumulate_inTol (s : State) : (sofAccumulate s).inTol = s.inTol := rfl
@[simp] theorem sofAccumulate_rateInd (s : State) : (sofAccumulate s).rateInd = s.rateInd := rfl
@[simp] theorem sofAccumulate_fbLast (s : State) : (sofAccumulate s).fbLast = s.fbLast := rfl
@[simp] theorem sofAccumulate_tpc (s : State) : (sofAccumulate s).tpc = s.tpc := rfl
@[simp] theorem sofAccumulate_out (s : State) : (sofAccumulate s).out = s.out := rfl
@[simp] theorem sofAccumulate_trace (s : State) : (sofAccumulate s).trace = s.trace := rfl

/-! ## `sofCount` -/

@[simp] theorem sofCount_cfg (s : State) : (sofCount s).cfg = s.cfg := rfl
@[simp] theorem sofCount_rate (s : State) : (sofCount s).rate = s.rate := rfl
@[simp] theorem sofCount_muted (s : State) : (sofCount s).muted = s.muted := rfl
@[simp] theorem sofCount_active (s : State) : (sofCount s).active = s.active := rfl
@[simp] theorem sofCount_playing (s : State) : (sofCount s).playing = s.playing := rfl
@[simp] theorem sofCount_buf (s : State) : (sofCount s).buf = s.buf := rfl
@[simp] theorem sofCount_wptr (s : State) : (sofCount s).wptr = s.wptr := rfl
@[simp] theorem sofCount_rem (s : State) : (sofCount s).rem = s.rem := rfl
@[simp] theorem sofCount_defrate (s : State) : (sofCount s).defrate = s.defrate := rfl
@[simp] theorem sofCount_curval (s : State) : (sofCount s).curval = s.curval := rfl
@[simp] theorem sofCount_accum (s : State) : (sofCount s).accum = s.accum := rfl
@[simp] theorem sofCount_sofcnt (s : State) : (sofCount s).sofcnt = wrap32 ((s.sofcnt.toNat : Int) + 1) := rfl
@[simp] theorem sofCount_corr (s : State) : (sofCount s).corr = s.corr := rfl
@[simp] theorem sofCount_pending (s : State) : (sofCount s).pending = s.pending := rfl
@[simp] theorem sofCount_shift (s : State) : (sofCount s).shift = s.shift := rfl
@[simp] theorem sofCount_cap (s : State) : (sofCount s).cap = s.cap := rfl
@[simp] theorem sofCount_inTol (s : State) : (sofCount s).inTol = s.inTol := rfl
@[simp] theorem sofCount_rateInd (s : State) : (sofCount s).rateInd = s.rateInd := rfl
@[simp] theorem sofCount_fbLast (s : State) : (sofCount s).fbLast = s.fbLast := rfl
@[simp] theorem sofCount_tpc (s : State) : (sofCount s).tpc = s.tpc := rfl
@[simp] theorem sofCount_out (s : State) : (sofCount s).out = s.out := rfl
@[simp] theorem sofCount_trace (s : State) : (sofCount s).trace = s.trace := rfl

/-! ## `sofIndicate` -/

@[simp] theorem sofIndicate_cfg (diff : Nat) (s : State) : (sofIndicate diff s).cfg = s.cfg := rfl
@[simp] theorem sofIndicate_rate (diff : Nat) (s : State) : (sofIndicate diff s).rate = s.rate := rfl
@[simp] theorem sofIndicate_muted (diff : Nat) (s : State) : (sofIndicate diff s).muted = s.muted := rfl
@[simp] theorem sofIndicate_active (diff : Nat) (s : State) : (sofIndicate diff s).active = s.active := rfl
@[simp] theorem sofIndicate_playing (diff : Nat) (s : State) : (sofIndicate diff s).playing = s.playing := rfl
@[simp] theorem sofIndicate_buf (diff : Nat) (s : State) : (sofIndicate diff s).buf = s.buf := rfl
@[simp] theorem sofIndicate_wptr (diff : Nat) (s : State) : (sofIndicate diff s).wptr = s.wptr := rfl
@[simp] theorem sofIndicate_rem (diff : Nat) (s : State) : (sofIndicate diff s).rem = s.rem := rfl
@[simp] theorem sofIndicate_defrate (diff : Nat) (s : State) : (sofIndicate diff s).defrate = s.defrate := rfl
@[simp] theorem sofIndicate_curval (diff : Nat) (s : State) : (sofIndicate diff s).curval = s.curval := rfl
@[simp] theorem sofIndicate_accum (diff : Nat) (s : State) : (sofIndicate diff s).accum = s.accum := rfl
@[simp] theorem sofIndicate_sofcnt (diff : Nat) (s : State) : (sofIndicate diff s).sofcnt = s.sofcnt := rfl
@[simp] theorem sofIndicate_corr (diff : Nat) (s : State) : (sofIndicate diff s).corr = s.corr := rfl
@[simp] theorem sofIndicate_pending (diff : Nat) (s : State) : (sofIndicate diff s).pending = s.pending := rfl
@[simp] theorem sofIndicate_shift (diff : Nat) (s : State) : (sofIndicate diff s).shift = s.shift := rfl
@[simp] theorem sofIndicate_cap (diff : Nat) (s : State) : (sofIndicate diff s).cap = s.cap := rfl
@[simp] theorem sofIndicate_inTol (diff : Nat) (s : State) : (sofIndicate diff s).inTol = inTolerance s.cfg s.playing diff := rfl
@[simp] theorem sofIndicate_rateInd (diff : Nat) (s : State) : (sofIndicate diff s).rateInd = s.rateInd := rfl
@[simp] theorem sofIndicate_fbLast (diff : Nat) (s : State) : (sofIndicate diff s).fbLast = s.fbLast := rfl
@[simp] theorem sofIndicate_tpc (diff : Nat) (s : State) : (sofIndicate diff s).tpc = s.tpc := rfl
@[simp] theorem sofIndicate_out (diff : Nat) (s : State) : (sofIndicate diff s).out = s.out := rfl
@[simp] theorem sofIndicate_trace (diff : Nat) (s : State) : (sofIndicate diff s).trace = s.trace := rfl

/-! ## `sendFeedback` -/

@[simp] theorem sendFeedback_cfg (s : State) : (sendFeedback s).cfg = s.cfg := rfl
@[simp] theorem sendFeedback_rate (s : State) : (sendFeedback s).rate = s.rate := rfl
@[simp] theorem sendFeedback_muted (s : State) : (sendFeedback s).muted = s.muted := rfl
@[simp] theorem sendFeedback_active (s : State) : (sendFeedback s).active = s.active := rfl
@[simp] theorem sendFeedback_playing (s : State) : (sendFeedback s).playing = s.playing := rfl
@[simp] theorem sendFeedback_buf (s : State) : (sendFeedback s).buf = s.buf := rfl
@[simp] theorem sendFeedback_wptr (s : State) : (sendFeedback s).wptr = s.wptr := rfl
@[simp] theorem sendFeedback_rem (s : State) : (sendFeedback s).rem = s.rem := rfl
@[simp] theorem sendFeedback_defrate (s : State) : (sendFeedback s).defrate = s.defrate := rfl
@[simp] theorem sendFeedback_curval (s : State) : (sendFeedback s).curval = s.curval := rfl
@[simp] theorem sendFeedback_accum (s : State) : (sendFeedback s).accum = s.accum := rfl
@[simp] theorem sendFeedback_sofcnt (s : State) : (sendFeedback s).sofcnt = s.sofcnt := rfl
@[simp] theorem sendFeedback_corr (s : State) : (sendFeedback s).corr = s.corr := rfl
@[simp] theorem sendFeedback_pending (s : State) : (sendFeedback s).pending = false := rfl
@[simp] theorem sendFeedback_shift (s : State) : (sendFeedback s).shift = s.shift := rfl
@[simp] theorem sendFeedback_cap (s : State) : (sendFeedback s).cap = s.cap := rfl
@[simp] theorem sendFeedback_inTol (s : State) : (sendFeedback s).inTol = s.inTol := rfl
@[simp] theorem sendFeedback_rateInd (s : State) : (sendFeedback s).rateInd = s.rateInd := rfl
@[simp] theorem sendFeedback_fbLast (s : State) : (sendFeedback s).fbLast = wrap32 (fbval s) := rfl
@[simp] theorem sendFeedback_tpc (s : State) : (sendFeedback s).tpc = s.tpc := rfl
@[simp] theorem sendFeedback_out (s : State) : (sendFeedback s).out = s.out ++ [⟨.fb, wrap32 (fbval s)⟩] := rfl
@[simp] theorem sendFeedback_trace (s : State) : (sendFeedback s).trace = s.trace := rfl

/-! ## `advance` -/

@[simp] theorem advance_cfg (n : Nat) (s : State) : (advance n s).cfg = s.cfg := rfl
@[simp] theorem advance_rate (n : Nat) (s : State) : (advance n s).rate = s.rate := rfl
@[simp] theorem advance_muted (n : Nat) (s : State) : (advance n s).muted = s.muted := rfl
@[simp] theorem advance_active (n : Nat) (s : State) : (advance n s).active = s.active := rfl
@[simp] theorem advance_playing (n : Nat) (s : State) : (advance n s).playing = s.playing := rfl
@[simp] theorem advance_buf (n : Nat) (s : State) : (advance n s).buf = s.buf := rfl
@[simp] theorem advance_wptr (n : Nat) (s : State) : (advance n s).wptr = s.wptr := rfl
@[simp] theorem advance_rem (n : Nat) (s : State) : (advance n s).rem = s.rem := rfl
@[simp] theorem advance_defrate (n : Nat) (s : State) : (advance n s).defrate = s.defrate := rfl
@[simp] theorem advance_curval (n : Nat) (s : State) : (advance n s).curval = s.curval := rfl
@[simp] theorem advance_accum (n : Nat) (s : State) : (advance n s).accum = s.accum := rfl
@[simp] theorem advance_sofcnt (n : Nat) (s : State) : (advance n s).sofcnt = s.sofcnt := rfl
@[simp] theorem advance_corr (n : Nat) (s : State) : (advance n s).corr = s.corr := rfl
@[simp] theorem advance_pending (n : Nat) (s : State) : (advance n s).pending = s.pending := rfl
@[simp] theorem advance_shift (n : Nat) (s : State) : (advance n s).shift = s.shift := rfl
@[simp] theorem advance_cap (n : Nat) (s : State) : (advance n s).cap = s.cap := rfl
@[simp] theorem advance_inTol (n : Nat) (s : State) : (advance n s).inTol = s.inTol := rfl
@[simp] theorem advance_rateInd (n : Nat) (s : State) : (advance n s).rateInd = s.rateInd := rfl
@[simp] theorem advance_fbLast (n : Nat) (s : State) : (advance n s).fbLast = s.fbLast := rfl
@[simp] theorem advance_tpc (n : Nat) (s : State) : (advance n s).tpc = s.tpc + n := rfl
@[simp] theorem advance_out (n : Nat) (s : State) : (advance n s).out = s.out := rfl
@[simp] theorem advance_trace (n : Nat) (s : State) : (advance n s).trace = s.trace := rfl

/-! ## `sofClose` -/

@[simp] theorem sofClose_cfg (s : State) : (sofClose s).cfg = s.cfg := by
  unfold sofClose; split <;> rfl
@[simp] theorem sofClose_rate (s : State) : (sofClose s).rate = s.rate := by
  unfold sofClose; split <;> rfl
@[simp] theorem sofClose_muted (s : State) : (sofClose s).muted = s.muted := by
  unfold sofClose; split <;> rfl
@[simp] theorem sofClose_active (s : State) : (sofClose s).active = s.active := by
  unfold sofClose; split <;> rfl
@[simp] theorem sofClose_playing (s : State) : (sofClose s).playing = s.playing := by
  unfold sofClose; split <;> rfl
@[simp] theorem sofClose_buf (s : State) : (sofClose s).buf = s.buf := by
  unfold sofClose; split <;> rfl
@[simp] theorem sofClose_wptr (s : State) : (sofClose s).wptr = s.wptr := by
  unfold sofClose; split <;> rfl
@[simp] theorem sofClose_rem (s : State) : (sofClose s).rem = s.rem := by
  unfold sofClose; split <;> rfl
@[simp] theorem sofClose_defrate (s : State) : (sofClose s).defrate = s.defrate := by
  unfold sofClose; split <;> rfl
theorem sofClose_curval (s : State) : (sofClose s).curval = if closesWindow s then closingValue s else s.curval := by
  unfold sofClose; split <;> rfl
theorem sofClose_accum (s : State) : (sofClose s).accum = if closesWindow s then 0 else s.accum := by
  unfold sofClose; split <;> rfl
theorem sofClose_sofcnt (s : State) : (sofClose s).sofcnt = if closesWindow s then 0 else s.sofcnt := by
  unfold sofClose; split <;> rfl
@[simp] theorem sofClose_corr (s : State) : (sofClose s).corr = s.corr := by
  unfold sofClose; split <;> rfl
theorem sofClose_pending (s : State) : (sofClose s).pending = if closesWindow s then true else s.pending := by
  unfold sofClose; split <;> rfl
@[simp] theorem sofClose_shift (s : State) : (sofClose s).shift = s.shift := by
  unfold sofClose; split <;> rfl
@[simp] theorem sofClose_cap (s : State) : (sofClose s).cap = s.cap := by
  unfold sofClose; split <;> rfl
@[simp] theorem sofClose_inTol (s : State) : (sofClose s).inTol = s.inTol := by
  unfold sofClose; split <;> rfl
@[simp] theorem sofClose_rateInd (s : State) : (sofClose s).rateInd = s.rateInd := by
  unfold sofClose; split <;> rfl
@[simp] theorem sofClose_fbLast (s : State) : (sofClose s).fbLast = s.fbLast := by
  unfold sofClose; split <;> rfl
@[simp] theorem sofClose_tpc (s : State) : (sofClose s).tpc = s.tpc := by
  unfold sofClose; split <;> rfl
@[simp] theorem sofClose_out (s : State) : (sofClose s).out = s.out := by
  unfold sofClose; split <;> rfl
@[simp] theorem sofClose_trace (s : State) : (sofClose s).trace = s.trace := by
  unfold sofClose; split <;> rfl

end Sys2Proof.Machine
end

