-- ==== Sys2Proof/Laws/Index.lean ====
section
/-! SUPPORT. Arithmetic of the pointers: wrapping, reduction modulo `C`, and how `WPTR`, `REM`, `RPTR` and `FILL` move. -/

namespace Sys2Proof

theorem Config.WF.pos {c : Config} (h : c.WF) : 0 < c.capacity := by have := h.capMin; omega

theorem Config.WF.lt {c : Config} (h : c.WF) : c.capacity < 2 ^ 32 := by have := h.capMax; omega

end Sys2Proof

namespace Sys2Proof.Machine

theorem wrap32_natCast (n : Nat) : wrap32 (n : Int) = BitVec.ofNat 32 n := by
  simp [wrap32]

theorem wrap32_toNat (n : Nat) : (wrap32 (n : Int)).toNat = n % 2 ^ 32 := by
  rw [wrap32_natCast, BitVec.toNat_ofNat]

theorem wrap32_toNat_of_lt {n : Nat} (h : n < 2 ^ 32) : (wrap32 (n : Int)).toNat = n := by
  rw [wrap32_toNat, Nat.mod_eq_of_lt h]

/-- The signed reading of a wrapped integer inside the signed range (R109). -/
theorem wrap32_toInt_of_range {z : Int} (h₁ : -(2 ^ 31) ≤ z) (h₂ : z < 2 ^ 31) : (wrap32 z).toInt = z := by
  unfold wrap32
  rw [BitVec.toInt_ofInt]
  exact Int.bmod_eq_of_le (by omega) (by omega)

theorem modC_natCast (c : Config) (n : Nat) : modC c (n : Int) = n % c.capacity := by
  unfold modC; omega

theorem modC_cast {c : Config} (h : c.WF) (x : Int) : (modC c x : Int) = x % c.capacity := by
  have hp := h.pos
  unfold modC
  have := Int.emod_nonneg x (show (c.capacity : Int) ≠ 0 by omega)
  omega

theorem modC_lt {c : Config} (h : c.WF) (x : Int) : modC c x < c.capacity := by
  have hp := h.pos
  have h1 := modC_cast h x
  have := Int.emod_lt_of_pos x (show (0 : Int) < c.capacity by omega)
  omega

/-- `RPTR` from a remaining count in its range (R25, R27). -/
theorem readIndex_of_range {c : Config} {rem : Word} (h1 : 1 ≤ rem.toNat) (h2 : rem.toNat ≤ c.capacity) :
    readIndex c rem = c.capacity - rem.toNat := by
  unfold readIndex
  rw [show ((c.capacity : Int) - rem.toNat) = ((c.capacity - rem.toNat : Nat) : Int) by omega, modC_natCast]
  exact Nat.mod_eq_of_lt (by omega)

theorem rptr_lt {s : State} (h : s.cfg.WF) : rptr s < s.cfg.capacity := modC_lt h _

theorem writeIndex_lt {s : State} (h : s.cfg.WF) : writeIndex s < s.cfg.capacity := modC_lt h _

theorem writeIndex_eq (s : State) : writeIndex s = s.wptr.toNat % s.cfg.capacity := modC_natCast _ _

theorem fillOf_lt {c : Config} (h : c.WF) (rem wp : Word) : fillOf c rem wp < c.capacity := modC_lt h _

theorem fill_lt {s : State} (h : s.cfg.WF) : fill s < s.cfg.capacity := modC_lt h _

/-- The fill level over the integers (R28). -/
theorem fill_cast {s : State} (h : s.cfg.WF) :
    (fill s : Int) = ((s.wptr.toNat : Int) - rptr s) % s.cfg.capacity := modC_cast h _

/-- An engine armed at index 0 (R93, R122). -/
theorem rptr_armed {s : State} (h : s.cfg.WF) (hr : s.rem.toNat = s.cfg.capacity) : rptr s = 0 := by
  have hp := h.pos
  have := readIndex_of_range (c := s.cfg) (rem := s.rem) (by omega) (by omega)
  unfold rptr
  rw [this, hr]
  omega

/-- With the consumer at index 0 the fill level is `WPTR`. -/
theorem fill_armed {s : State} (h : s.cfg.WF) (hr : s.rem.toNat = s.cfg.capacity) (hw : s.wptr.toNat < s.cfg.capacity) :
    fill s = s.wptr.toNat := by
  have := fill_cast h
  rw [rptr_armed h hr, Int.emod_eq_of_lt (by omega) (by omega)] at this
  omega

/-- `WPTR` after one slot (R90). -/
theorem nextWptr_toNat {s : State} (h : s.cfg.WF) : (nextWptr s).toNat = (s.wptr.toNat + 1) % s.cfg.capacity := by
  unfold nextWptr
  rw [show ((s.wptr.toNat : Int) + 1) = ((s.wptr.toNat + 1 : Nat) : Int) by omega, modC_natCast,
    wrap32_toNat_of_lt]
  have := Nat.mod_lt (s.wptr.toNat + 1) h.pos
  have := h.lt
  omega

/-- The fill level after one slot. -/
theorem fill_pushSlot {s : State} (h : s.cfg.WF) (w : Slot) :
    fill (pushSlot s w) = (fill s + 1) % s.cfg.capacity := by
  have h1 : (fill (pushSlot s w) : Int) = (((nextWptr s).toNat : Int) - rptr s) % s.cfg.capacity :=
    fill_cast (s := pushSlot s w) h
  have h2 := fill_cast h
  rw [nextWptr_toNat h] at h1
  have : (fill (pushSlot s w) : Int) = ((fill s + 1 : Nat) : Int) % s.cfg.capacity := by
    rw [h1]
    push_cast
    rw [h2, Int.emod_sub_emod, Int.emod_add_emod]
    congr 1
    omega
  have h3 := Int.natCast_mod (fill s + 1) s.cfg.capacity
  omega

/-- `REM` after one word (R92). -/
theorem nextRem_range {s : State} (h : s.cfg.WF) (h1 : 1 ≤ s.rem.toNat) (h2 : s.rem.toNat ≤ s.cfg.capacity) :
    1 ≤ (nextRem s).toNat ∧ (nextRem s).toNat ≤ s.cfg.capacity ∧
    (nextRem s).toNat = if s.rem.toNat = 1 then s.cfg.capacity else s.rem.toNat - 1 := by
  have hc := h.lt
  have hp := h.pos
  unfold nextRem
  split
  · rw [wrap32_toNat_of_lt hc]; omega
  · rw [show ((s.rem.toNat : Int) - 1) = ((s.rem.toNat - 1 : Nat) : Int) by omega, wrap32_toNat_of_lt (by omega)]
    omega

/-- `RPTR` after one word: one further, `C - 1` followed by 0 (R52, R92). -/
theorem rptr_consumeOne {s : State} (h : s.cfg.WF) (h1 : 1 ≤ s.rem.toNat) (h2 : s.rem.toNat ≤ s.cfg.capacity) :
    rptr (consumeOne s) = (rptr s + 1) % s.cfg.capacity := by
  have hr := nextRem_range h h1 h2
  have e1 : rptr (consumeOne s) = s.cfg.capacity - (nextRem s).toNat :=
    readIndex_of_range (c := s.cfg) (rem := nextRem s) hr.1 hr.2.1
  have e2 : rptr s = s.cfg.capacity - s.rem.toNat := readIndex_of_range h1 h2
  rw [e1, e2, hr.2.2]
  split
  · rw [show s.cfg.capacity - s.rem.toNat + 1 = s.cfg.capacity by omega, Nat.mod_self]; omega
  · rw [Nat.mod_eq_of_lt (by omega)]; omega

end Sys2Proof.Machine
end

