-- ==== Sys2Proof/Laws/Consume.lean ====
section
/-! SUPPORT. What consuming words does: the frame, the answers, `RPTR`, and that word counts add. -/

namespace Sys2Proof.Machine

/-- Consuming touches `REM` and `OUT` only. -/
theorem consumeWords_frame (k : Nat) (s : State) :
    consumeWords k s = { s with rem := (consumeWords k s).rem, out := (consumeWords k s).out } := by
  induction k generalizing s with
  | zero => rfl
  | succ k ih => exact ih (consumeOne s)

theorem consumeWords_add (k l : Nat) (s : State) :
    consumeWords (k + l) s = consumeWords l (consumeWords k s) := by
  induction k generalizing s with
  | zero => rw [Nat.zero_add]; rfl
  | succ k ih => rw [Nat.succ_add]; exact ih (consumeOne s)

/-- Consuming answers `WORD` records only. -/
theorem consumeWords_answers (k : Nat) (s : State) :
    ∃ a, (consumeWords k s).out = s.out ++ a ∧ ∀ r ∈ a, r.kind = .word := by
  induction k generalizing s with
  | zero => exact ⟨[], by simp [consumeWords], by simp⟩
  | succ k ih =>
    obtain ⟨a, h1, h2⟩ := ih (consumeOne s)
    refine ⟨⟨.word, (s.buf.read (rptr s)).setWidth 32⟩ :: a, ?_, ?_⟩
    · rw [consumeWords, h1, consumeOne_out, List.append_assoc]; rfl
    · intro r hr
      rcases List.mem_cons.mp hr with rfl | hr
      · rfl
      · exact h2 r hr

theorem consumeWords_playing (k : Nat) (s : State) : (consumeWords k s).playing = s.playing := by
  rw [consumeWords_frame]

/-- `REM` stays in its range, and `RPTR` moves by the number of words modulo `C`. -/
theorem consumeWords_rptr {s : State} (h : s.cfg.WF) (h1 : 1 ≤ s.rem.toNat) (h2 : s.rem.toNat ≤ s.cfg.capacity)
    (k : Nat) :
    1 ≤ (consumeWords k s).rem.toNat ∧ (consumeWords k s).rem.toNat ≤ s.cfg.capacity ∧
    rptr (consumeWords k s) = (rptr s + k) % s.cfg.capacity := by
  induction k generalizing s with
  | zero => exact ⟨h1, h2, (Nat.mod_eq_of_lt (rptr_lt h)).symm⟩
  | succ k ih =>
    have hr := nextRem_range h h1 h2
    have := ih (s := consumeOne s) h hr.1 hr.2.1
    refine ⟨this.1, this.2.1, this.2.2.trans ?_⟩
    rw [consumeOne_cfg, rptr_consumeOne h h1 h2, Nat.mod_add_mod]
    congr 1; omega

/-- The answers: the words at `RPTR`, `RPTR + 1`, … modulo `C`. -/
theorem consumeWords_out {s : State} (h : s.cfg.WF) (h1 : 1 ≤ s.rem.toNat) (h2 : s.rem.toNat ≤ s.cfg.capacity)
    (k : Nat) :
    (consumeWords k s).out = s.out ++ (List.range k).map fun j =>
      ⟨.word, (s.buf.read ((rptr s + j) % s.cfg.capacity)).setWidth 32⟩ := by
  induction k generalizing s with
  | zero => simp [consumeWords]
  | succ k ih =>
    have hr := nextRem_range h h1 h2
    have := ih (s := consumeOne s) h hr.1 hr.2.1
    show (consumeWords k (consumeOne s)).out = _
    rw [this, consumeOne_out, List.append_assoc, List.range_succ_eq_map, List.map_cons, List.map_map]
    congr 1
    rw [Nat.add_zero, Nat.mod_eq_of_lt (rptr_lt h)]
    simp only [List.singleton_append]
    congr 1
    apply List.map_congr_left
    intro j _
    simp only [Function.comp, consumeOne_cfg, consumeOne_buf, rptr_consumeOne h h1 h2, Nat.mod_add_mod]
    rw [show rptr s + 1 + j = rptr s + (j + 1) by omega]

end Sys2Proof.Machine
end

