-- ==== Sys2Proof/Laws/Decode.lean ====
section
/-! SUPPORT. The opcode map as ranges of the word's value: every mask of R72 keeps the bits from some bit on, so a row is an
interval, and questions about decoding become linear arithmetic. And the fields of an encoded word. -/

namespace Sys2Proof

/-- Keeping the bits from `k` on rounds the value down to a multiple of `2^k`. -/
theorem and_highMask_toNat (ev : Word) (k : Nat) :
    (ev &&& (BitVec.allOnes 32 <<< k)).toNat = ev.toNat / 2 ^ k * 2 ^ k := by
  have e : ev &&& (BitVec.allOnes 32 <<< k) = (ev >>> k) <<< k := by
    apply BitVec.eq_of_getLsbD_eq
    intro i hi
    simp only [BitVec.getLsbD_and, BitVec.getLsbD_shiftLeft, BitVec.getLsbD_allOnes, BitVec.getLsbD_ushiftRight]
    by_cases h : i < k
    · simp [h]
    · simp [h, hi, show k + (i - k) = i by omega, show i - k < 32 by omega]
  have hle := Nat.div_mul_le_self ev.toNat (2 ^ k)
  have hlt := ev.isLt
  rw [e, BitVec.toNat_shiftLeft, BitVec.toNat_ushiftRight, Nat.shiftLeft_eq, Nat.shiftRight_eq_div_pow,
    Nat.mod_eq_of_lt (by omega)]

/-- A row whose mask keeps the bits from `k` on. -/
theorem selects_iff (op : Op) (p m : Word) (k : Nat) (hm : m = BitVec.allOnes 32 <<< k) (ev : Word) :
    OpRow.selects ⟨op, p, m⟩ ev = decide (ev.toNat / 2 ^ k * 2 ^ k = p.toNat) := by
  subst hm
  rw [← and_highMask_toNat, Bool.eq_iff_iff]
  simp only [OpRow.selects, beq_iff_eq, decide_eq_true_eq]
  exact BitVec.toNat_inj.symm

/-- The opcode map over the value of the word. -/
def opOfValue (n : Nat) : Option Op :=
  if n = 0 then some .nop
  else if n / 2 ^ 8 = 0x100000 then some .push
  else if n / 2 ^ 24 = 0x20 then some .consume
  else if n = 0x30000000 then some .sof
  else if n / 2 ^ 24 = 0x31 then some .capture
  else if n / 2 ^ 24 = 0x40 then some .setAlt
  else if n / 2 ^ 24 = 0x41 then some .setMute
  else if n / 2 ^ 24 = 0x42 then some .getMute
  else if n / 2 ^ 24 = 0x43 then some .getRate
  else if n / 2 ^ 25 = 0x22 then some .setRate
  else if n / 2 ^ 24 = 0x46 then some .forceInactive
  else if n / 2 ^ 24 = 0x47 then some .regRead
  else if n / 2 ^ 24 = 0x48 then some .ctlBad
  else if n / 2 ^ 24 = 0x49 then some .ctlUnimpl49
  else if n / 2 ^ 25 = 0x25 then some .ctlUnimpl4A
  else if n / 2 ^ 26 = 0x13 then some .ctlUnimpl4C
  else if n = 0x50000000 then some .fbTx
  else if n = 0x51000000 then some .fbIncomplete
  else none

theorem findOp_cons (p : OpRow → Bool) (r : OpRow) (rows : List OpRow) :
    ((r :: rows).find? p).map (·.op) = if p r = true then some r.op else (rows.find? p).map (·.op) := by
  rw [List.find?_cons]
  cases p r <;> rfl

theorem decodeOp_eq (ev : Word) : decodeOp ev = opOfValue ev.toNat := by
  have h0 : ∀ p : Nat, ∀ op w, w.toNat = p → OpRow.selects ⟨op, w, 0xFFFFFFFF#32⟩ ev = decide (ev.toNat = p) := by
    rintro _ op w rfl
    rw [selects_iff op w _ 0 (by decide), Nat.pow_zero, Nat.div_one, Nat.mul_one]
  have hk : ∀ (k p : Nat) op w m, m = BitVec.allOnes 32 <<< k → w.toNat = p * 2 ^ k →
      OpRow.selects ⟨op, w, m⟩ ev = decide (ev.toNat / 2 ^ k = p) := by
    rintro k p op w m hm hw
    rw [selects_iff op w m k hm, hw]
    have hpos : 0 < 2 ^ k := Nat.two_pow_pos k
    rw [Bool.eq_iff_iff]
    simp only [decide_eq_true_eq]
    exact ⟨fun h => Nat.eq_of_mul_eq_mul_right hpos h, fun h => by rw [h]⟩
  unfold decodeOp opTable opOfValue
  simp only [findOp_cons, List.find?_nil, Option.map_none]
  rw [h0 0 .nop _ rfl, hk 8 0x100000 .push _ _ (by decide) rfl, hk 24 0x20 .consume _ _ (by decide) rfl,
    h0 0x30000000 .sof _ rfl, hk 24 0x31 .capture _ _ (by decide) rfl, hk 24 0x40 .setAlt _ _ (by decide) rfl,
    hk 24 0x41 .setMute _ _ (by decide) rfl, hk 24 0x42 .getMute _ _ (by decide) rfl,
    hk 24 0x43 .getRate _ _ (by decide) rfl, hk 25 0x22 .setRate _ _ (by decide) rfl,
    hk 24 0x46 .forceInactive _ _ (by decide) rfl, hk 24 0x47 .regRead _ _ (by decide) rfl,
    hk 24 0x48 .ctlBad _ _ (by decide) rfl, hk 24 0x49 .ctlUnimpl49 _ _ (by decide) rfl,
    hk 25 0x25 .ctlUnimpl4A _ _ (by decide) rfl, hk 26 0x13 .ctlUnimpl4C _ _ (by decide) rfl,
    h0 0x50000000 .fbTx _ rfl, h0 0x51000000 .fbIncomplete _ rfl]
  simp only [decide_eq_true_eq]

/-- The range of values a row of R72 covers. -/
def opRange : Op → Nat → Prop
  | .nop, n => n = 0
  | .push, n => n / 2 ^ 8 = 0x100000
  | .consume, n => n / 2 ^ 24 = 0x20
  | .sof, n => n = 0x30000000
  | .capture, n => n / 2 ^ 24 = 0x31
  | .setAlt, n => n / 2 ^ 24 = 0x40
  | .setMute, n => n / 2 ^ 24 = 0x41
  | .getMute, n => n / 2 ^ 24 = 0x42
  | .getRate, n => n / 2 ^ 24 = 0x43
  | .setRate, n => n / 2 ^ 25 = 0x22
  | .forceInactive, n => n / 2 ^ 24 = 0x46
  | .regRead, n => n / 2 ^ 24 = 0x47
  | .ctlBad, n => n / 2 ^ 24 = 0x48
  | .ctlUnimpl49, n => n / 2 ^ 24 = 0x49
  | .ctlUnimpl4A, n => n / 2 ^ 25 = 0x25
  | .ctlUnimpl4C, n => n / 2 ^ 26 = 0x13
  | .fbTx, n => n = 0x50000000
  | .fbIncomplete, n => n = 0x51000000

theorem opOfValue_range {n : Nat} {op : Op} (h : opOfValue n = some op) : opRange op n := by
  have key : ∀ (c : Prop) (_ : Decidable c) (o : Op) (x : Option Op), (c → opRange o n) →
      (x = some op → opRange op n) → (if c then some o else x) = some op → opRange op n := by
    intro c _ o x h1 h2 h3
    by_cases hc : c
    · rw [if_pos hc] at h3; cases h3; exact h1 hc
    · rw [if_neg hc] at h3; exact h2 h3
  revert h
  unfold opOfValue
  iterate 18 refine key _ _ _ _ id ?_
  intro h
  cases h

theorem opOfValue_none {n : Nat} : opOfValue n = none ↔ ∀ op, ¬ opRange op n := by
  have key : ∀ (c : Prop) (_ : Decidable c) (o : Op) (x : Option Op),
      ((if c then some o else x) = none ↔ ¬ c ∧ x = none) := by
    intro c _ o x
    by_cases hc : c
    · rw [if_pos hc]; simp [hc]
    · rw [if_neg hc]; simp [hc]
  unfold opOfValue
  simp only [key, and_true]
  constructor
  · rintro ⟨h1, h2, h3, h4, h5, h6, h7, h8, h9, h10, h11, h12, h13, h14, h15, h16, h17, h18⟩ op
    cases op <;> assumption
  · intro h
    exact ⟨h .nop, h .push, h .consume, h .sof, h .capture, h .setAlt, h .setMute, h .getMute, h .getRate,
      h .setRate, h .forceInactive, h .regRead, h .ctlBad, h .ctlUnimpl49, h .ctlUnimpl4A, h .ctlUnimpl4C, h .fbTx, h .fbIncomplete⟩

theorem eventWord_toNat (opc : BitVec 8) (imm : Imm) : (eventWord opc imm).toNat = opc.toNat * 2 ^ 24 + imm.toNat := by
  unfold eventWord
  rw [BitVec.toNat_append, ← Nat.shiftLeft_add_eq_or_of_lt imm.isLt, Nat.shiftLeft_eq]

theorem immField_toNat (ev : Word) : (immField ev).toNat = ev.toNat % 2 ^ 24 := by
  simp [immField, BitVec.extractLsb'_toNat]

theorem immField_eventWord (opc : BitVec 8) (imm : Imm) : immField (eventWord opc imm) = imm := by
  apply BitVec.eq_of_toNat_eq
  have := imm.isLt
  rw [immField_toNat, eventWord_toNat]
  omega

theorem sampleField_setWidth (v : Sample) : sampleField (v.setWidth 32) = v := by
  apply BitVec.eq_of_toNat_eq
  have := v.isLt
  simp [sampleField, BitVec.extractLsb'_toNat]
  omega

/-- The payload of R71 read back. -/
theorem takeFrames_frameWords (fs : List Frame) (rest : List Word) :
    takeFrames fs.length (fs.flatMap frameWords ++ rest) = some (fs, rest) := by
  induction fs with
  | nil => cases rest <;> rfl
  | cons f fs ih =>
    simp only [List.length_cons, List.flatMap_cons, frameWords, List.cons_append, List.nil_append, takeFrames]
    rw [sampleField_setWidth, sampleField_setWidth, ih]

/-- Taking frames from enough words: each pair of words is one frame, the bits above the sample dropped (R73). -/
theorem takeFrames_append {n : Nat} {ws : List Word} (h : ws.length = 2 * n) (rest : List Word) :
    ∃ fs, takeFrames n (ws ++ rest) = some (fs, rest) ∧ fs.length = n ∧
      ∀ (k : Nat) (l r : Word), ws[2 * k]? = some l → ws[2 * k + 1]? = some r →
        fs[k]? = some ⟨sampleField l, sampleField r⟩ := by
  induction n generalizing ws with
  | zero =>
    obtain rfl : ws = [] := List.eq_nil_of_length_eq_zero h
    exact ⟨[], by cases rest <;> rfl, rfl, by simp⟩
  | succ n ih =>
    match ws, h with
    | a :: b :: ws, h =>
      simp only [List.length_cons] at h
      obtain ⟨fs, h1, h2, h3⟩ := ih (ws := ws) (by omega)
      refine ⟨⟨sampleField a, sampleField b⟩ :: fs, by simp [takeFrames, h1], by simp [h2], ?_⟩
      rintro (_ | k) l r hl hr
      · simp only [Nat.mul_zero, List.getElem?_cons_zero, Nat.zero_add, List.getElem?_cons_succ, Option.some.injEq] at hl hr
        subst hl hr
        rfl
      · rw [Nat.mul_succ] at hl hr
        exact h3 k l r hl hr
    | [_], h => simp at h; omega
    | [], h => simp at h

/-- A payload is there exactly when there are words enough. -/
theorem takeFrames_none {n : Nat} {ws : List Word} : takeFrames n ws = none ↔ ws.length < 2 * n := by
  induction n generalizing ws with
  | zero => simp [takeFrames]
  | succ n ih =>
    match ws with
    | [] => simp [takeFrames]
    | [_] => simp [takeFrames]; omega
    | l :: r :: ws =>
      simp only [takeFrames, List.length_cons]
      cases h : takeFrames n ws with
      | none => have := ih.mp h; simp; omega
      | some p =>
        have : ¬ ws.length < 2 * n := fun hc => by rw [ih.mpr hc] at h; cases h
        obtain ⟨fs, rest⟩ := p
        simp; omega

/-- What reading a payload gives: the frames, and the words taken. -/
theorem takeFrames_some {n : Nat} {ws : List Word} {fs : List Frame} {rest : List Word}
    (h : takeFrames n ws = some (fs, rest)) :
    fs.length = n ∧ ∃ p, ws = p ++ rest ∧ p.length = 2 * n ∧
      fs.flatMap frameWords = p.map fun w => (w.setWidth 24).setWidth 32 := by
  induction n generalizing ws fs rest with
  | zero =>
    simp only [takeFrames, Option.some.injEq, Prod.mk.injEq] at h
    obtain ⟨rfl, rfl⟩ := h
    exact ⟨rfl, [], rfl, rfl, rfl⟩
  | succ n ih =>
    match ws with
    | [] => simp [takeFrames] at h
    | [_] => simp [takeFrames] at h
    | l :: r :: ws =>
      simp only [takeFrames] at h
      cases ht : takeFrames n ws with
      | none => rw [ht] at h; cases h
      | some p =>
        obtain ⟨gs, re⟩ := p
        rw [ht] at h
        cases h
        obtain ⟨h1, p, h2, h3, h4⟩ := ih ht
        have hs : ∀ w : Word, sampleField w = w.setWidth 24 := by
          intro w
          apply BitVec.eq_of_toNat_eq
          simp [sampleField, BitVec.extractLsb'_toNat]
        refine ⟨by rw [List.length_cons, h1], l :: r :: p, by rw [h2]; rfl, ?_, ?_⟩
        · rw [List.length_cons, List.length_cons, h3]; omega
        · rw [List.flatMap_cons, h4, frameWords, hs, hs]; rfl

/-- Decoding takes exactly the event's words. -/
theorem decode_event_words {l : List Word} {i : Instr} {rest : List Word} (h : decode l = .event i rest) :
    ∃ p, l = p ++ rest ∧ p.length = i.length := by
  cases l with
  | nil => cases h
  | cons ev ws =>
    simp only [decode] at h
    cases ho : decodeOp ev with
    | none => rw [ho] at h; cases h
    | some op =>
      rw [ho] at h
      cases op <;> simp only at h <;> try (cases h; exact ⟨[ev], rfl, rfl⟩)
      split at h
      · rename_i fs re ht
        cases h
        obtain ⟨h1, p, h2, h3, -⟩ := takeFrames_some ht
        refine ⟨ev :: p, by rw [h2]; rfl, ?_⟩
        rw [List.length_cons, h3, Instr.length, h1]
        omega
      · cases h

theorem decode_invalid_iff {l : List Word} {w : Word} :
    decode l = .invalid w ↔ ∃ ws, l = w :: ws ∧ decodeOp w = none := by
  cases l with
  | nil => simp [decode]
  | cons ev ws =>
    simp only [decode]
    cases ho : decodeOp ev with
    | none =>
      simp only [Decoded.invalid.injEq, List.cons.injEq]
      constructor
      · rintro rfl; exact ⟨ws, ⟨rfl, rfl⟩, ho⟩
      · rintro ⟨_, ⟨rfl, _⟩, _⟩; rfl
    | some op =>
      have hno : ¬ ∃ us, ev :: ws = w :: us ∧ decodeOp w = none := by
        rintro ⟨_, h, h2⟩
        cases h
        rw [ho] at h2
        cases h2
      rw [iff_false_right hno]
      cases op <;> simp only [reduceCtorEq, not_false_eq_true]
      split <;> simp

theorem decode_empty_iff {l : List Word} : decode l = .empty ↔ l = [] := by
  cases l with
  | nil => simp [decode]
  | cons ev ws =>
    simp only [decode, reduceCtorEq, iff_false]
    cases ho : decodeOp ev with
    | none => simp
    | some op =>
      cases op <;> simp only [reduceCtorEq, not_false_eq_true]
      split <;> simp

theorem decode_truncated_iff {ev : Word} {ws : List Word} {needed given : Nat} :
    decode (ev :: ws) = .truncated needed given ↔
      decodeOp ev = some .push ∧ ws.length < 2 * (countField ev).toNat ∧ needed = 2 * (countField ev).toNat ∧
        given = ws.length := by
  simp only [decode]
  cases ho : decodeOp ev with
  | none => simp
  | some op =>
    cases op <;> simp only [Option.some.injEq, reduceCtorEq, false_and, true_and]
    cases ht : takeFrames (countField ev).toNat ws with
    | none =>
      have := takeFrames_none.mp ht
      simp [this, eq_comm]
    | some p =>
      have : ¬ ws.length < 2 * (countField ev).toNat := fun hc => by rw [takeFrames_none.mpr hc] at ht; cases ht
      simp [this]

end Sys2Proof
end

