-- ==== Sys2Proof/Laws/Memory.lean ====
section
/-! SUPPORT. The buffer space: a read after a write, and that a write keeps the canonical form. -/

namespace Sys2Proof.Machine

/-- Every index of the list is above `i`. -/
def memAbove (i : Nat) (m : Memory) : Prop := ∀ e ∈ m, i < e.1

theorem memWfAbove_above {i : Nat} {m : Memory} (h : memWfAbove i m = true) : memAbove i m := by
  induction m generalizing i with
  | nil => intro e he; cases he
  | cons hd tl ih =>
    obtain ⟨j, w⟩ := hd
    simp only [memWfAbove, Bool.and_eq_true, decide_eq_true_eq] at h
    intro e he
    rcases List.mem_cons.mp he with rfl | he
    · exact h.1.1
    · exact Nat.lt_trans h.1.1 (ih h.2 e he)

theorem memWfAbove_mono {i j : Nat} {m : Memory} (hij : i ≤ j) (h : memWfAbove j m = true) :
    memWfAbove i m = true := by
  cases m with
  | nil => rfl
  | cons hd tl =>
    obtain ⟨k, w⟩ := hd
    simp only [memWfAbove, Bool.and_eq_true, decide_eq_true_eq] at h ⊢
    exact ⟨⟨by omega, h.1.2⟩, h.2⟩

theorem Memory.wf_cons {j : Nat} {w : Slot} {m : Memory} :
    Memory.wf ((j, w) :: m) = true ↔ w ≠ 0 ∧ memWfAbove j m = true := by
  simp [Memory.wf]

theorem memWfAbove_wf {i : Nat} {m : Memory} (h : memWfAbove i m = true) : Memory.wf m = true := by
  cases m with
  | nil => rfl
  | cons hd tl =>
    obtain ⟨k, w⟩ := hd
    simp only [memWfAbove, Bool.and_eq_true, decide_eq_true_eq] at h
    simp only [Memory.wf, Bool.and_eq_true]
    exact ⟨h.1.2, h.2⟩

theorem memCons_wfAbove {b i : Nat} {w : Slot} {m : Memory} (hb : b < i) (h : memWfAbove i m = true) :
    memWfAbove b (memCons i w m) = true := by
  unfold memCons
  split
  · exact memWfAbove_mono (Nat.le_of_lt hb) h
  · simp_all [memWfAbove]

theorem Memory.write_wfAbove {b i : Nat} {w : Slot} {m : Memory} (hb : b < i) (h : memWfAbove b m = true) :
    memWfAbove b (Memory.write m i w) = true := by
  induction m generalizing b with
  | nil => exact memCons_wfAbove hb rfl
  | cons hd tl ih =>
    obtain ⟨j, v⟩ := hd
    simp only [memWfAbove, Bool.and_eq_true, decide_eq_true_eq] at h
    simp only [Memory.write]
    split
    · subst i; exact memCons_wfAbove hb h.2
    · split
      · exact memCons_wfAbove hb (by simp_all [memWfAbove])
      · simp only [memWfAbove, Bool.and_eq_true, decide_eq_true_eq]
        exact ⟨h.1, ih (by omega) h.2⟩

/-- A write keeps the canonical form. -/
theorem Memory.write_wf {i : Nat} {w : Slot} {m : Memory} (h : m.wf = true) : (m.write i w).wf = true := by
  cases m with
  | nil =>
    show Memory.wf (memCons i w []) = true
    unfold memCons
    split
    · rfl
    · simp_all [Memory.wf, memWfAbove]
  | cons hd tl =>
    obtain ⟨j, v⟩ := hd
    have hv := Memory.wf_cons.mp h
    simp only [Memory.write]
    split
    · subst i
      unfold memCons
      split
      · exact memWfAbove_wf hv.2
      · exact Memory.wf_cons.mpr ⟨‹_›, hv.2⟩
    · split
      · unfold memCons
        split
        · exact h
        · exact Memory.wf_cons.mpr ⟨‹_›, by simp_all [memWfAbove]⟩
      · exact Memory.wf_cons.mpr ⟨hv.1, Memory.write_wfAbove (by omega) hv.2⟩

theorem Memory.read_of_above {i k : Nat} {m : Memory} (h : memAbove i m) (hk : k ≤ i) : m.read k = 0 := by
  cases m with
  | nil => rfl
  | cons hd tl =>
    obtain ⟨j, v⟩ := hd
    have := h (j, v) (by simp)
    simp only at this
    simp only [Memory.read]
    rw [if_neg (by omega), if_pos (by omega)]

theorem memCons_read {i k : Nat} {w : Slot} {m : Memory} (h : memAbove i m) :
    (memCons i w m).read k = if k = i then w else m.read k := by
  unfold memCons
  by_cases hw : w = 0
  · rw [if_pos hw]
    split
    · subst k; rw [Memory.read_of_above h (Nat.le_refl _), hw]
    · rfl
  · rw [if_neg hw]
    simp only [Memory.read]
    by_cases hk : k = i
    · simp [hk]
    · simp only [if_neg hk]
      split
      · rw [Memory.read_of_above h (by omega)]
      · rfl

/-- A read after a write: the slot written holds the word, every other slot is as before. -/
theorem Memory.read_write {m : Memory} (hm : m.wf = true) (i k : Nat) (w : Slot) :
    (m.write i w).read k = if k = i then w else m.read k := by
  have key : ∀ (m : Memory), m.wf = true →
      (Memory.write m i w).read k = if k = i then w else Memory.read m k := by
    intro m
    induction m with
    | nil =>
      intro _
      exact memCons_read (m := []) (by intro e he; cases he)
    | cons hd tl ih =>
      intro hm
      obtain ⟨j, v⟩ := hd
      have hv := Memory.wf_cons.mp hm
      have ha := memWfAbove_above hv.2
      simp only [Memory.write]
      split
      · subst i
        rw [memCons_read ha]
        by_cases hk : k = j
        · simp [hk]
        · simp only [if_neg hk, Memory.read]
          split
          · exact Memory.read_of_above ha (by omega)
          · rfl
      · split
        · have : memAbove i ((j, v) :: tl) := by
            intro e he
            rcases List.mem_cons.mp he with rfl | he
            · assumption
            · exact Nat.lt_trans ‹i < j› (ha e he)
          rw [memCons_read this]
        · have ih' := ih (memWfAbove_wf hv.2)
          simp only [Memory.read, ih']
          by_cases hk : k = j
          · have hki : k ≠ i := by omega
            rw [if_pos hk, if_neg hki, if_pos hk]
          · rw [if_neg hk, if_neg hk]
            by_cases hkj : k < j
            · have hki : k ≠ i := by omega
              rw [if_pos hkj, if_neg hki, if_pos hkj]
            · rw [if_neg hkj, if_neg hkj]
  exact key m hm

theorem Memory.below_cons {n j : Nat} {w : Slot} {m : Memory} :
    Memory.below n ((j, w) :: m) = true ↔ j < n ∧ Memory.below n m = true := by
  simp only [Memory.below, List.all_cons, Bool.and_eq_true, decide_eq_true_eq]

theorem memCons_below {n i : Nat} {w : Slot} {m : Memory} (hi : i < n) (h : Memory.below n m = true) :
    Memory.below n (memCons i w m) = true := by
  unfold memCons
  split
  · exact h
  · rw [Memory.below_cons]; exact ⟨hi, h⟩

/-- A write below `n` keeps every listed index below `n`. -/
theorem Memory.write_below {n i : Nat} {w : Slot} {m : Memory} (hi : i < n) (h : m.below n = true) :
    (m.write i w).below n = true := by
  induction m with
  | nil => exact memCons_below hi rfl
  | cons hd tl ih =>
    obtain ⟨j, v⟩ := hd
    have hh := Memory.below_cons.mp h
    simp only [Memory.write]
    split
    · exact memCons_below hi hh.2
    · split
      · exact memCons_below hi h
      · exact Memory.below_cons.mpr ⟨hh.1, ih hh.2⟩

/-- Two canonical buffers that read alike everywhere are equal. -/
theorem Memory.ext_read {m n : Memory} (hm : m.wf = true) (hn : n.wf = true) (h : ∀ i, m.read i = n.read i) :
    m = n := by
  induction m generalizing n with
  | nil =>
    cases n with
    | nil => rfl
    | cons hd tl =>
      obtain ⟨j, v⟩ := hd
      have := h j
      simp only [Memory.read, if_true] at this
      exact absurd this.symm (Memory.wf_cons.mp hn).1
  | cons hd tl ih =>
    obtain ⟨j, v⟩ := hd
    have hv := Memory.wf_cons.mp hm
    cases n with
    | nil =>
      have := h j
      simp only [Memory.read, if_true] at this
      exact absurd this hv.1
    | cons hd' tl' =>
      obtain ⟨k, u⟩ := hd'
      have hu := Memory.wf_cons.mp hn
      have hjk : j = k := by
        rcases Nat.lt_trichotomy j k with hlt | heq | hgt
        · have := h j
          simp only [Memory.read, if_true, if_neg (Nat.ne_of_lt hlt), if_pos hlt] at this
          exact absurd this hv.1
        · exact heq
        · have := h k
          simp only [Memory.read, if_true, if_neg (Nat.ne_of_lt hgt), if_pos hgt] at this
          exact absurd this.symm hu.1
      subst hjk
      have hvu : v = u := by
        have := h j
        simpa only [Memory.read, if_true] using this
      subst hvu
      have : tl = tl' := by
        apply ih (memWfAbove_wf hv.2) (memWfAbove_wf hu.2)
        intro i
        by_cases hij : i ≤ j
        · rw [Memory.read_of_above (memWfAbove_above hv.2) hij, Memory.read_of_above (memWfAbove_above hu.2) hij]
        · have := h i
          simpa only [Memory.read, if_neg (show ¬ i = j by omega), if_neg (show ¬ i < j by omega)] using this
      rw [this]

end Sys2Proof.Machine
end

