-- ==== Sys2Proof/Laws/Push.lean ====
section
/-! SUPPORT. What pushing a list of slots does: one lemma each for the frame, `WPTR`, `FILL`, the canonical form and the
reads; and that the start transition touches only `PLAYING`. -/

namespace Sys2Proof.Machine

/-- Pushing slots touches `BUF` and `WPTR` only. -/
theorem pushSlots_frame (ws : List Slot) (s : State) :
    ws.foldl pushSlot s = { s with buf := (ws.foldl pushSlot s).buf, wptr := (ws.foldl pushSlot s).wptr } := by
  induction ws generalizing s with
  | nil => rfl
  | cons w ws ih =>
    simp only [List.foldl_cons]
    exact ih (pushSlot s w)

theorem pushSlots_cfg (ws : List Slot) (s : State) : (ws.foldl pushSlot s).cfg = s.cfg := by
  rw [pushSlots_frame]

theorem pushSlots_rem (ws : List Slot) (s : State) : (ws.foldl pushSlot s).rem = s.rem := by
  rw [pushSlots_frame]

theorem pushSlots_playing (ws : List Slot) (s : State) : (ws.foldl pushSlot s).playing = s.playing := by
  rw [pushSlots_frame]

/-- `WPTR` after any number of slots. -/
theorem pushSlots_wptr {s : State} (h : s.cfg.WF) (hw : s.wptr.toNat < s.cfg.capacity) (ws : List Slot) :
    (ws.foldl pushSlot s).wptr.toNat = (s.wptr.toNat + ws.length) % s.cfg.capacity := by
  induction ws generalizing s with
  | nil => simp [Nat.mod_eq_of_lt hw]
  | cons w ws ih =>
    simp only [List.foldl_cons, List.length_cons]
    rw [ih (s := pushSlot s w) h (by rw [pushSlot_wptr, nextWptr_toNat h]; exact Nat.mod_lt _ h.pos)]
    rw [pushSlot_wptr, nextWptr_toNat h, pushSlot_cfg, Nat.mod_add_mod]
    congr 1; omega

/-- The fill level after any number of slots. -/
theorem pushSlots_fill {s : State} (h : s.cfg.WF) (ws : List Slot) :
    fill (ws.foldl pushSlot s) = (fill s + ws.length) % s.cfg.capacity := by
  induction ws generalizing s with
  | nil => simp [Nat.mod_eq_of_lt (fill_lt h)]
  | cons w ws ih =>
    simp only [List.foldl_cons, List.length_cons]
    rw [ih (s := pushSlot s w) h, fill_pushSlot h, pushSlot_cfg, Nat.mod_add_mod]
    congr 1; omega

theorem pushSlots_wf {s : State} (hb : s.buf.wf = true) (ws : List Slot) : (ws.foldl pushSlot s).buf.wf = true := by
  induction ws generalizing s with
  | nil => exact hb
  | cons w ws ih => exact ih (s := pushSlot s w) (Memory.write_wf hb)

theorem pushSlots_below {s : State} (h : s.cfg.WF) (hb : s.buf.below s.cfg.capacity = true) (ws : List Slot) :
    (ws.foldl pushSlot s).buf.below s.cfg.capacity = true := by
  induction ws generalizing s with
  | nil => exact hb
  | cons w ws ih => exact ih (s := pushSlot s w) h (Memory.write_below (writeIndex_lt h) hb)

/-- A slot outside those pushed reads as before. -/
theorem pushSlots_read_outside {s : State} (h : s.cfg.WF) (hw : s.wptr.toNat < s.cfg.capacity) (hb : s.buf.wf = true)
    (ws : List Slot) (a : Nat) (ha : ∀ q, q < ws.length → a ≠ (s.wptr.toNat + q) % s.cfg.capacity) :
    (ws.foldl pushSlot s).buf.read a = s.buf.read a := by
  induction ws generalizing s with
  | nil => rfl
  | cons w ws ih =>
    simp only [List.foldl_cons]
    have hw' : (pushSlot s w).wptr.toNat < (pushSlot s w).cfg.capacity := by
      rw [pushSlot_wptr, nextWptr_toNat h]; exact Nat.mod_lt _ h.pos
    rw [ih (s := pushSlot s w) h hw' (Memory.write_wf hb)]
    · rw [pushSlot_buf, Memory.read_write hb, if_neg]
      have := ha 0 (by simp)
      rwa [writeIndex_eq]
    · intro q hq
      have := ha (q + 1) (by simpa using hq)
      rw [pushSlot_wptr, nextWptr_toNat h, pushSlot_cfg, Nat.mod_add_mod]
      rwa [show s.wptr.toNat + 1 + q = s.wptr.toNat + (q + 1) by omega]

/-- A pushed slot holds its word, unless a later one of the same list laps it. -/
theorem pushSlots_read {s : State} (h : s.cfg.WF) (hw : s.wptr.toNat < s.cfg.capacity) (hb : s.buf.wf = true)
    (ws : List Slot) (q : Nat) (hq : q < ws.length) (hlap : ws.length ≤ q + s.cfg.capacity) :
    (ws.foldl pushSlot s).buf.read ((s.wptr.toNat + q) % s.cfg.capacity) = ws[q] := by
  induction ws generalizing s q with
  | nil => simp at hq
  | cons w ws ih =>
    simp only [List.foldl_cons]
    have hw' : (pushSlot s w).wptr.toNat < (pushSlot s w).cfg.capacity := by
      rw [pushSlot_wptr, nextWptr_toNat h]; exact Nat.mod_lt _ h.pos
    cases q with
    | zero =>
      rw [pushSlots_read_outside (s := pushSlot s w) h hw' (Memory.write_wf hb), pushSlot_buf, Memory.read_write hb]
      · simp [writeIndex_eq]
      · intro q' hq'
        rw [pushSlot_wptr, nextWptr_toNat h, pushSlot_cfg, Nat.mod_add_mod, Nat.add_zero]
        intro he
        have hp := h.pos
        simp only [List.length_cons] at hlap
        have hlt : q' + 1 < s.cfg.capacity := by omega
        rw [show s.wptr.toNat + 1 + q' = s.wptr.toNat + (q' + 1) by omega, Nat.mod_eq_of_lt hw] at he
        by_cases hc : s.wptr.toNat + (q' + 1) < s.cfg.capacity
        · rw [Nat.mod_eq_of_lt hc] at he; omega
        · rw [Nat.mod_eq_sub_mod (by omega), Nat.mod_eq_of_lt (by omega)] at he; omega
    | succ q =>
      simp only [List.length_cons] at hq hlap
      have := ih (s := pushSlot s w) h hw' (Memory.write_wf hb) q (by omega) (by show ws.length ≤ q + s.cfg.capacity; omega)
      rw [pushSlot_wptr, nextWptr_toNat h, pushSlot_cfg, Nat.mod_add_mod] at this
      rw [show s.wptr.toNat + (q + 1) = s.wptr.toNat + 1 + q by omega, this]
      simp

/-- Pushing zeros leaves zeros. -/
theorem pushSlots_read_zero {s : State} (h : s.cfg.WF) (hw : s.wptr.toNat < s.cfg.capacity) (hb : s.buf.wf = true)
    (ws : List Slot) (hz : ∀ x ∈ ws, x = 0) (q : Nat) (hq : q < ws.length) :
    (ws.foldl pushSlot s).buf.read ((s.wptr.toNat + q) % s.cfg.capacity) = 0 := by
  induction ws using List.reverseRecOn with
  | nil => simp at hq
  | append_singleton ws w ih =>
    rw [List.foldl_append]
    simp only [List.foldl_cons, List.foldl_nil, pushSlot_buf]
    rw [Memory.read_write (pushSlots_wf hb ws)]
    split
    · exact hz w (by simp)
    · rename_i hne
      rw [List.length_append, List.length_singleton] at hq
      by_cases hq' : q < ws.length
      · exact ih (fun x hx => hz x (by simp [hx])) hq'
      · exfalso
        apply hne
        rw [writeIndex_eq, pushSlots_wptr h hw, pushSlots_cfg, show q = ws.length by omega, Nat.mod_mod]

/-- `s` with another log. -/
def setOut (o : List Response) (s : State) : State := { s with out := o }

theorem setOut_out (o : List Response) (s : State) : (setOut o s).out = o := rfl

theorem fill_setOut (o : List Response) (s : State) : fill (setOut o s) = fill s := rfl

theorem setOut_setOut (o p : List Response) (s : State) : setOut o (setOut p s) = setOut o s := rfl

/-- Pushing does not look at the log. -/
theorem pushSlots_setOut (ws : List Slot) (o : List Response) (s : State) :
    ws.foldl pushSlot (setOut o s) = setOut o (ws.foldl pushSlot s) := by
  induction ws generalizing s with
  | nil => rfl
  | cons w ws ih => exact ih (pushSlot s w)

theorem pushFrame_setOut (f : Frame) (o : List Response) (s : State) :
    pushFrame (setOut o s) f = setOut o (pushFrame s f) := by
  unfold pushFrame
  exact (congrArg startCheck (pushSlots_setOut (frameSlots s.cfg.split f) o s)).trans rfl

/-- The start transition touches `PLAYING` only. -/
theorem startCheck_frame (s : State) : startCheck s = { s with playing := (startCheck s).playing } := rfl

theorem fill_startCheck (s : State) : fill (startCheck s) = fill s := rfl

theorem frameSlots_length (sp : Split) (f : Frame) : (frameSlots sp f).length = 4 := rfl

theorem pushedSlots_cons (sp : Split) (m : Bool) (f : Frame) (fs : List Frame) :
    pushedSlots sp m (f :: fs) = frameSlots sp (mutedFrame m f) ++ pushedSlots sp m fs := rfl

theorem pushedSlots_length (sp : Split) (m : Bool) (fs : List Frame) : (pushedSlots sp m fs).length = 4 * fs.length := by
  induction fs with
  | nil => rfl
  | cons f fs ih => rw [pushedSlots_cons, List.length_append, ih, frameSlots_length, List.length_cons]; omega

/-- `PLAYING` does not matter to what pushing slots does elsewhere. -/
theorem pushSlots_playing_comm (ws : List Slot) (p : Bool) (s : State) :
    ws.foldl pushSlot { s with playing := p } = { ws.foldl pushSlot s with playing := p } := by
  induction ws generalizing s with
  | nil => rfl
  | cons w ws ih => exact ih (pushSlot s w)

theorem pushFrames_cons (m : Bool) (f : Frame) (fs : List Frame) (s : State) :
    pushFrames m (f :: fs) s = pushFrames m fs (pushFrame s (mutedFrame m f)) := rfl

theorem pushFrames_setOut (m : Bool) (fs : List Frame) (o : List Response) (s : State) :
    pushFrames m fs (setOut o s) = setOut o (pushFrames m fs s) := by
  induction fs generalizing s with
  | nil => rfl
  | cons f fs ih => rw [pushFrames_cons, pushFrame_setOut, ih, pushFrames_cons]

theorem answerFill_eq_setOut (s : State) : answerFill s = setOut (s.out ++ [⟨.fill, wrap32 (fill s)⟩]) s := rfl

/-- The frame loop of R90 is the pushing of all slots, but for `PLAYING`. -/
theorem pushFrames_eq (m : Bool) (fs : List Frame) (s : State) :
    pushFrames m fs s =
      { (pushedSlots s.cfg.split m fs).foldl pushSlot s with playing := (pushFrames m fs s).playing } := by
  induction fs generalizing s with
  | nil => rfl
  | cons f fs ih =>
    rw [pushFrames_cons, ih, pushedSlots_cons, List.foldl_append]
    have hcfg : (pushFrame s (mutedFrame m f)).cfg = s.cfg := pushSlots_cfg _ _
    rw [hcfg]
    conv_lhs => rw [pushFrame, startCheck_frame, pushSlots_playing_comm]
    rfl

/-- Pushing frames touches `BUF`, `WPTR` and `PLAYING` only. -/
theorem pushFrames_frame (m : Bool) (fs : List Frame) (s : State) :
    pushFrames m fs s =
      { s with buf := (pushFrames m fs s).buf, wptr := (pushFrames m fs s).wptr, playing := (pushFrames m fs s).playing } := by
  conv_lhs => rw [pushFrames_eq, pushSlots_frame]
  conv_rhs => rw [pushFrames_eq]

theorem pushFrames_buf (m : Bool) (fs : List Frame) (s : State) :
    (pushFrames m fs s).buf = ((pushedSlots s.cfg.split m fs).foldl pushSlot s).buf := by
  conv_lhs => rw [pushFrames_eq]

theorem pushFrames_wptr {s : State} (h : s.cfg.WF) (hw : s.wptr.toNat < s.cfg.capacity) (m : Bool) (fs : List Frame) :
    (pushFrames m fs s).wptr.toNat = (s.wptr.toNat + 4 * fs.length) % s.cfg.capacity := by
  conv_lhs => rw [pushFrames_eq]
  rw [← pushedSlots_length s.cfg.split m fs]
  exact pushSlots_wptr h hw _

theorem pushFrames_fill {s : State} (h : s.cfg.WF) (m : Bool) (fs : List Frame) :
    fill (pushFrames m fs s) = (fill s + 4 * fs.length) % s.cfg.capacity := by
  conv_lhs => rw [pushFrames_eq]
  rw [← pushedSlots_length s.cfg.split m fs]
  exact pushSlots_fill h _

theorem pushFrames_cfg (m : Bool) (fs : List Frame) (s : State) : (pushFrames m fs s).cfg = s.cfg := by
  rw [pushFrames_frame]

theorem pushFrames_active (m : Bool) (fs : List Frame) (s : State) : (pushFrames m fs s).active = s.active := by
  rw [pushFrames_frame]

theorem pushFrames_muted (m : Bool) (fs : List Frame) (s : State) : (pushFrames m fs s).muted = s.muted := by
  rw [pushFrames_frame]

theorem pushFrames_rem (m : Bool) (fs : List Frame) (s : State) : (pushFrames m fs s).rem = s.rem := by
  rw [pushFrames_frame]

theorem pushFrames_out (m : Bool) (fs : List Frame) (s : State) : (pushFrames m fs s).out = s.out := by
  rw [pushFrames_frame]

theorem pushFrames_append (m : Bool) (fs gs : List Frame) (s : State) :
    pushFrames m (fs ++ gs) s = pushFrames m gs (pushFrames m fs s) := by
  simp [pushFrames]

/-- One frame: `WPTR`, `FILL` and `PLAYING`. -/
theorem pushFrame_cfg (s : State) (f : Frame) : (pushFrame s f).cfg = s.cfg := pushSlots_cfg _ _

theorem pushFrame_wptr {s : State} (h : s.cfg.WF) (hw : s.wptr.toNat < s.cfg.capacity) (f : Frame) :
    (pushFrame s f).wptr.toNat = (s.wptr.toNat + 4) % s.cfg.capacity :=
  pushSlots_wptr h hw (frameSlots s.cfg.split f)

theorem pushFrame_fill {s : State} (h : s.cfg.WF) (f : Frame) :
    fill (pushFrame s f) = (fill s + 4) % s.cfg.capacity :=
  pushSlots_fill h (frameSlots s.cfg.split f)

theorem pushFrame_playing (s : State) (f : Frame) :
    (pushFrame s f).playing = (s.playing || decide (s.cfg.half ≤ fill (pushFrame s f))) := by
  have h2 : fill (pushFrame s f) = fill ((frameSlots s.cfg.split f).foldl pushSlot s) := rfl
  rw [h2, pushFrame, startCheck_playing, startsPlaying, pushSlots_playing, pushSlots_cfg]
  cases s.playing <;> simp

/-- The four slots of a frame among those pushed. -/
theorem pushedSlots_get (sp : Split) (m : Bool) (fs : List Frame) (k : Nat) (f : Frame) (hk : fs[k]? = some f)
    (j : Nat) (hj : j < 4) :
    (pushedSlots sp m fs)[4 * k + j]? = (frameSlots sp (mutedFrame m f))[j]? := by
  induction fs generalizing k with
  | nil => simp at hk
  | cons g gs ih =>
    rw [pushedSlots_cons]
    cases k with
    | zero =>
      simp at hk; subst hk
      rw [List.getElem?_append_left (by rw [frameSlots_length]; omega)]; simp
    | succ k =>
      rw [List.getElem?_append_right (by rw [frameSlots_length]; omega), frameSlots_length]
      rw [show 4 * (k + 1) + j - 4 = 4 * k + j by omega]
      exact ih k (by simpa using hk)

end Sys2Proof.Machine
end

