-- ==== Sys2Proof/Laws/Exec.lean ====
section
/-! SUPPORT. What `exec` answers for each event, case by case: a later proof cites these instead of unfolding the meanings. -/

namespace Sys2Proof.Machine

theorem exec_nop (s : State) : exec .nop s = .next s := rfl

theorem exec_push_active {s : State} (h : s.active = true) (fs : List Frame) :
    exec (.push fs) s = .next (answerFill (pushFrames s.muted fs s)) := by
  simp [exec, execPush, h]

theorem exec_push_inactive {s : State} (h : s.active = false) (fs : List Frame) :
    exec (.push fs) s = .next (answerFill s) := by
  simp [exec, execPush, h]

theorem exec_consume_playing {s : State} (h : s.playing = true) (k : Imm) :
    exec (.consume k) s = .next (consumeWords k.toNat s) := by
  simp [exec, execConsume, h]

theorem exec_consume_stopped {s : State} (h : s.playing = false) (k : Imm) : exec (.consume k) s = .next s := by
  simp [exec, execConsume, h]

theorem exec_sof_active {s : State} (h : s.active = true) : exec .sof s = .next (sofTick s.rem s.wptr s) := by
  simp [exec, execSof, h]

theorem exec_sof_inactive {s : State} (h : s.active = false) : exec .sof s = .next s := by
  simp [exec, execSof, h]

theorem exec_capture (v : Imm) (s : State) : exec (.capture v) s = .next { s with cap := v.setWidth 32 } := rfl

theorem exec_fbTx_pending {s : State} (h : s.pending = true) : exec .fbTx s = .next (sendFeedback s) := by
  simp [exec, execFbTx, h]

theorem exec_fbTx_idle {s : State} (h : s.pending = false) : exec .fbTx s = .next s := by
  simp [exec, execFbTx, h]

theorem exec_fbIncomplete_active {s : State} (h : s.active = true) :
    exec .fbIncomplete s = .next (sendFeedback (respond .flush 0 s)) := by
  simp [exec, execFbIncomplete, h]

theorem exec_fbIncomplete_inactive {s : State} (h : s.active = false) : exec .fbIncomplete s = .next s := by
  simp [exec, execFbIncomplete, h]

theorem exec_setAlt_zero (s : State) : exec (.setAlt 0) s = .next (respond .ack 0 (deactivate s)) := rfl

theorem exec_setAlt_one_inactive {s : State} (h : s.active = false) :
    exec (.setAlt 1) s = .next (respond .ack 0 (activate s)) := by
  simp [exec, execSetAlt, h]

theorem exec_setAlt_one_active {s : State} (h : s.active = true) : exec (.setAlt 1) s = .next (respond .ack 0 s) := by
  simp [exec, execSetAlt, h]

theorem exec_setAlt_other {a : Imm} (h0 : a ≠ 0) (h1 : a ≠ 1) (s : State) :
    exec (.setAlt a) s = .next (raiseStall .malformed s) := by
  simp only [exec, execSetAlt, if_neg h0, if_neg h1]

theorem exec_setMute_legal {m : Imm} (h : m.toNat ≤ 1) (s : State) :
    exec (.setMute m) s = .next (respond .ack 0 { s with muted := m == 1 }) := by
  simp only [exec, execSetMute, if_neg (Nat.not_lt.mpr h)]

theorem exec_setMute_illegal {m : Imm} (h : 1 < m.toNat) (s : State) :
    exec (.setMute m) s = .next (raiseStall .malformed s) := by
  simp only [exec, execSetMute, gt_iff_lt, if_pos h]

theorem exec_getMute_zero (s : State) :
    exec (.getMute 0) s = .next (respond .data ((flagBit s.muted).setWidth 32) s) := rfl

theorem exec_getMute_other {imm : Imm} (h : imm ≠ 0) (s : State) :
    exec (.getMute imm) s = .next (raiseStall .malformed s) := by
  simp only [exec, execGetMute, if_neg h]

theorem exec_getRate_zero (s : State) : exec (.getRate 0) s = .next (respond .data s.rate s) := rfl

theorem exec_getRate_other {imm : Imm} (h : imm ≠ 0) (s : State) :
    exec (.getRate imm) s = .next (raiseStall .malformed s) := by
  simp only [exec, execGetRate, if_neg h]

theorem exec_setRate_unsupported {r : Imm} (h : rateOfHz r.toNat = none) (c : Bool) (s : State) :
    exec (.setRate c r) s = .next (raiseStall .rateUnsupported s) := by
  simp [exec, execSetRate, h]

theorem exec_setRate_same {r : Imm} {q : SampleRate} (h : rateOfHz r.toNat = some q) {s : State}
    (he : r.toNat = s.rate.toNat) (c : Bool) : exec (.setRate c r) s = .next (respond .ack 0 s) := by
  simp only [exec, execSetRate, h, Option.isNone_some, Bool.false_eq_true, if_false, if_pos he]

theorem exec_setRate_active {r : Imm} {q : SampleRate} (h : rateOfHz r.toNat = some q) {s : State}
    (he : r.toNat ≠ s.rate.toNat) (ha : s.active = true) (c : Bool) :
    exec (.setRate c r) s = .next (raiseStall .rateWhileActive s) := by
  simp only [exec, execSetRate, h, Option.isNone_some, Bool.false_eq_true, if_false, if_neg he, ha, if_true]

theorem exec_setRate_clkfail {r : Imm} {q : SampleRate} (h : rateOfHz r.toNat = some q) {s : State}
    (he : r.toNat ≠ s.rate.toNat) (ha : s.active = false) :
    exec (.setRate true r) s = .next (raiseStall .clkgenFail s) := by
  simp only [exec, execSetRate, h, Option.isNone_some, Bool.false_eq_true, if_false, if_neg he, ha, if_true]

theorem exec_setRate_commit {r : Imm} {q : SampleRate} (h : rateOfHz r.toNat = some q) {s : State}
    (he : r.toNat ≠ s.rate.toNat) (ha : s.active = false) :
    exec (.setRate false r) s = .next (respond .ack 0 (commitRate (r.setWidth 32) s)) := by
  simp only [exec, execSetRate, h, Option.isNone_some, Bool.false_eq_true, if_false, if_neg he, ha]

theorem exec_forceInactive (imm : Imm) (s : State) : exec (.forceInactive imm) s = .next (deactivate s) := rfl

theorem exec_regRead_some {off : Imm} {r : WindowReg} (h : windowReg off.toNat = some r) (s : State) :
    exec (.regRead off) s = .next (respond .data (windowValue r s) s) := by
  simp only [exec, execRegRead, h]

theorem exec_regRead_none {off : Imm} (h : windowReg off.toNat = none) (s : State) :
    exec (.regRead off) s = .next (raiseStall .badRegOffset s) := by
  simp only [exec, execRegRead, h]

/-- The members of `RATES` are the four rates (R5). -/
theorem rateOfHz_some {n : Nat} {q : SampleRate} : rateOfHz n = some q ↔ n = rateHz q := by
  unfold rateOfHz
  cases q <;> (constructor <;> intro h) <;> (repeat' (split at h)) <;> simp_all [rateHz]

theorem rateOfHz_none {n : Nat} : rateOfHz n = none ↔ n ≠ 44100 ∧ n ≠ 48000 ∧ n ≠ 88200 ∧ n ≠ 96000 := by
  unfold rateOfHz
  constructor
  · intro h; repeat' (split at h)
    all_goals simp_all
  · rintro ⟨h1, h2, h3, h4⟩; simp [h1, h2, h3, h4]

/-- `DEFAULT_RATE` at a member of `RATES` (R106). -/
theorem defaultRateWord_of_rate {t : RateTable} {rate : Word} {q : SampleRate} (h : rate.toNat = rateHz q) :
    defaultRateWord t rate = wrap32 (tableEntry t q) := by
  simp only [defaultRateWord, rateOfHz_some.mpr h]

end Sys2Proof.Machine
end

