-- ==== Sys2Proof/Laws/Feedback.lean ====
section
/-! SUPPORT. What a tick does: its frame, `CORR` and `IN_TOL`, and the accumulators on a closing and on any other tick;
and the range of the correction and of the transmitted value. -/

namespace Sys2Proof.Machine

theorem half_double {c : Config} (h : c.WF) : c.capacity = 2 * c.half := by
  have := h.capFrames
  unfold Config.half
  omega

/-- The constraint of R5 at any member of `RATES`. -/
theorem tableEntry_ok {c : Config} (h : c.WF) (r : SampleRate) : RateEntryOk (tableEntry c.rateTable r) := by
  cases r
  · exact h.entry44100
  · exact h.entry48000
  · exact h.entry88200
  · exact h.entry96000

/-- `FB_RESET` at a member of `RATES` (R106). -/
theorem fbReset_defaults {s : State} {r : SampleRate} (h : s.cfg.WF) (hr : s.rate.toNat = rateHz r) :
    (fbReset s).defrate.toNat = tableEntry s.cfg.rateTable r ∧ (fbReset s).shift.toNat = s.cfg.shiftCfg := by
  obtain ⟨-, e⟩ := tableEntry_ok h r
  have := h.shiftMax
  rw [fbReset_defrate, fbReset_shift, defaultRateWord_of_rate hr, wrap32_toNat_of_lt (by omega),
    wrap32_toNat_of_lt (by omega)]
  exact ⟨rfl, rfl⟩

/-- A tick touches the six registers of R101 only. -/
theorem sofTick_frame (rem wp : Word) (s : State) :
    sofTick rem wp s =
      { s with corr := (sofTick rem wp s).corr, accum := (sofTick rem wp s).accum, sofcnt := (sofTick rem wp s).sofcnt,
               curval := (sofTick rem wp s).curval, pending := (sofTick rem wp s).pending,
               inTol := (sofTick rem wp s).inTol } := by
  unfold sofTick sofIndicate sofClose
  dsimp only
  split <;> rfl

theorem sofTick_corr (rem wp : Word) (s : State) :
    (sofTick rem wp s).corr = corrOf s.cfg (diffOf s.cfg s.playing rem wp) := by
  unfold sofTick sofIndicate sofClose
  dsimp only
  split <;> rfl

theorem sofTick_inTol (rem wp : Word) (s : State) :
    (sofTick rem wp s).inTol = inTolerance s.cfg s.playing (diffOf s.cfg s.playing rem wp) := by
  unfold sofTick sofIndicate sofClose
  dsimp only
  split <;> rfl

/-- `ACCUM` after step 3. -/
theorem sofAccumulate_toNat (s : State) :
    (sofAccumulate s).accum.toNat = (s.accum.toNat + s.cap.toNat) % 2 ^ 32 := by
  rw [sofAccumulate_accum, ← Nat.cast_add, wrap32_toNat]

/-- `SOFCNT` after the increment of step 4. -/
theorem sofCount_toNat (s : State) : (sofCount s).sofcnt.toNat = (s.sofcnt.toNat + 1) % 2 ^ 32 := by
  rw [sofCount_sofcnt, ← Nat.cast_succ, wrap32_toNat]

/-- Whether a tick closes the window. -/
theorem closesWindow_iff (diff : Nat) (s : State) :
    closesWindow (sofCount (sofAccumulate (sofCorrect diff s))) = true ↔
      (s.sofcnt.toNat + 1) % 2 ^ 32 = 2 ^ s.shift.toNat := by
  unfold closesWindow
  rw [decide_eq_true_eq, sofCount_toNat]
  rfl

/-- A closing tick. -/
theorem sofTick_closing (rem wp : Word) {s : State} (h : (s.sofcnt.toNat + 1) % 2 ^ 32 = 2 ^ s.shift.toNat) :
    (sofTick rem wp s).curval = closingValue (sofAccumulate s) ∧ (sofTick rem wp s).accum = 0 ∧
    (sofTick rem wp s).sofcnt = 0 ∧ (sofTick rem wp s).pending = true := by
  unfold sofTick sofIndicate sofClose
  dsimp only
  rw [if_pos ((closesWindow_iff _ s).mpr h)]
  exact ⟨rfl, rfl, rfl, rfl⟩

/-- Any other tick. -/
theorem sofTick_open (rem wp : Word) {s : State} (h : (s.sofcnt.toNat + 1) % 2 ^ 32 ≠ 2 ^ s.shift.toNat) :
    (sofTick rem wp s).curval = s.curval ∧ (sofTick rem wp s).accum = (sofAccumulate s).accum ∧
    (sofTick rem wp s).sofcnt = (sofCount s).sofcnt ∧ (sofTick rem wp s).pending = s.pending := by
  unfold sofTick sofIndicate sofClose
  dsimp only
  rw [if_neg (mt (closesWindow_iff _ s).mp h)]
  exact ⟨rfl, rfl, rfl, rfl⟩

/-- What a tick does to the count of its window of `N` ticks, and when it sets `PENDING` (R101 step 4, R105). -/
theorem sofTick_window (rem wp : Word) {s : State} {N n : Nat} (hN : N = 2 ^ s.shift.toNat) (hle : N ≤ 2 ^ 15)
    (hn : s.sofcnt.toNat = n % N) :
    (sofTick rem wp s).sofcnt.toNat = (n + 1) % N ∧
    ((sofTick rem wp s).pending = true ↔ s.pending = true ∨ (n + 1) % N = 0) := by
  have hpos : 0 < N := hN ▸ Nat.two_pow_pos _
  have hmod := Nat.mod_lt n hpos
  by_cases hcl : (s.sofcnt.toNat + 1) % 2 ^ 32 = 2 ^ s.shift.toNat
  · obtain ⟨-, -, g3, g4⟩ := sofTick_closing rem wp hcl
    rw [← hN, hn, Nat.mod_eq_of_lt (by omega)] at hcl
    have e : (n + 1) % N = 0 := by rw [← Nat.mod_add_mod, hcl, Nat.mod_self]
    rw [g3, g4, e]
    simp
  · obtain ⟨-, -, g3, g4⟩ := sofTick_open rem wp hcl
    rw [← hN, hn, Nat.mod_eq_of_lt (by omega)] at hcl
    have e : (n + 1) % N = n % N + 1 := by rw [← Nat.mod_add_mod, Nat.mod_eq_of_lt (by omega)]
    rw [g3, g4, sofCount_toNat, hn, e, Nat.mod_eq_of_lt (by omega)]
    simp

/-- The closing value as a natural number. -/
theorem closingValue_toNat (s : State) :
    (closingValue s).toNat =
      ((s.accum.toNat + (if s.cfg.closeAddsCapture = true then s.cap.toNat else 0)) * 2 ^ s.shift.toNat) % 2 ^ 32 := by
  have e : (((s.accum.toNat : Int) + closingExtra s) * 2 ^ s.shift.toNat) =
      (((s.accum.toNat + closingExtra s) * 2 ^ s.shift.toNat : Nat) : Int) := by push_cast; rfl
  rw [closingValue, e, wrap32_toNat]
  rfl

theorem diffOf_lt {c : Config} (h : c.WF) (playing : Bool) (rem wp : Word) : diffOf c playing rem wp < c.capacity := by
  have h1 := fillOf_lt h rem wp
  have h2 := half_double h
  have h3 := h.pos
  unfold diffOf
  split <;> omega

/-- The correction never wraps (R109 (a)). -/
theorem corrOf_toInt {c : Config} (h : c.WF) {diff : Nat} (hd : diff < c.capacity) :
    (corrOf c diff).toInt = ((c.half : Int) - diff) * c.scale := by
  have h2 := half_double h
  have h3 : (c.half : Int) * c.scale < 2 ^ 31 := by exact_mod_cast h.scaleMax
  have b1 : ((c.half : Int) - diff) * c.scale ≤ (c.half : Int) * c.scale :=
    Int.mul_le_mul_of_nonneg_right (by omega) (by omega)
  have b2 : -((c.half : Int) * c.scale) ≤ ((c.half : Int) - diff) * c.scale := by
    rw [← Int.neg_mul]
    exact Int.mul_le_mul_of_nonneg_right (by omega) (by omega)
  apply wrap32_toInt_of_range <;> omega

/-- The transmitted value lies in the window around `DEFRATE` (R104). -/
theorem fbval_range (s : State) :
    (s.defrate.toNat : Int) - 1024 ≤ fbval s ∧ fbval s ≤ (s.defrate.toNat : Int) + 1024 := by
  unfold fbval clampInt clampSpan
  split
  · omega
  · split <;> omega

/-- Sending changes `FB_LAST`, `PENDING` and `OUT` only (R102, R103). -/
theorem sendFeedback_frame (s : State) :
    sendFeedback s = { s with fbLast := wrap32 (fbval s), pending := false,
                              out := s.out ++ [⟨.fb, wrap32 (fbval s)⟩] } := rfl

end Sys2Proof.Machine
end

