-- ==== Sys2Proof/Laws/Effect.lean ====
section
/-! SUPPORT. Everything an event can do, said once: `exec` always answers a next state, and that state is one of the listed
ones. Later proofs split on `Effect` instead of unfolding `exec`. -/

namespace Sys2Proof.Machine

/-- What the event `i` makes of the state `s`. -/
inductive Effect : Instr → State → State → Prop where
  /-- Nothing at all. -/
  | none (i : Instr) (s : State)
      (hi : i = .nop ∨ (∃ k, i = .consume k ∧ s.playing = false) ∨ (i = .sof ∧ s.active = false) ∨
        (i = .fbTx ∧ s.pending = false) ∨ (i = .fbIncomplete ∧ s.active = false)) : Effect i s s
  /-- A `PUSH` while Inactive. -/
  | ignoredPush (fs : List Frame) (s : State) (ha : s.active = false) : Effect (.push fs) s (answerFill s)
  /-- A request that only answers. -/
  | answer (i : Instr) (s : State) (kind : ResponseKind) (val : Word) (hk : kind = .ack ∨ kind = .data)
      (hi : (i = .setAlt 1 ∧ s.active = true) ∨ (∃ m, i = .getMute m) ∨ (∃ m, i = .getRate m) ∨
        (∃ c r, i = .setRate c r) ∨ (∃ off, i = .regRead off)) : Effect i s (respond kind val s)
  /-- A request that is rejected. -/
  | stall (i : Instr) (s : State) (cause : StallCause)
      (hi : (∃ a, i = .setAlt a ∧ a ≠ 0 ∧ a ≠ 1) ∨ (∃ m, i = .setMute m) ∨ (∃ m, i = .getMute m) ∨
        (∃ m, i = .getRate m) ∨ (∃ c r, i = .setRate c r) ∨ (∃ off, i = .regRead off) ∨ (∃ x, i = .ctlBad x) ∨
        (∃ x, i = .ctlUnimpl49 x) ∨ (∃ a x, i = .ctlUnimpl4A a x) ∨ (∃ a x, i = .ctlUnimpl4C a x)) :
      Effect i s (raiseStall cause s)
  | push (fs : List Frame) (s : State) (ha : s.active = true) :
      Effect (.push fs) s (answerFill (pushFrames s.muted fs s))
  | consume (k : Imm) (s : State) (hp : s.playing = true) : Effect (.consume k) s (consumeWords k.toNat s)
  | sof (s : State) (ha : s.active = true) : Effect .sof s (sofTick s.rem s.wptr s)
  | capture (v : Imm) (s : State) : Effect (.capture v) s { s with cap := v.setWidth 32 }
  | idle (s : State) : Effect (.setAlt 0) s (respond .ack 0 (deactivate s))
  | activate (s : State) (ha : s.active = false) : Effect (.setAlt 1) s (respond .ack 0 (activate s))
  | mute (m : Imm) (s : State) (hm : m.toNat ≤ 1) :
      Effect (.setMute m) s (respond .ack 0 { s with muted := m == 1 })
  | rate (r : Imm) (q : SampleRate) (s : State) (hr : r.toNat = rateHz q) (ha : s.active = false) :
      Effect (.setRate false r) s (respond .ack 0 (commitRate (r.setWidth 32) s))
  | powerLoss (imm : Imm) (s : State) : Effect (.forceInactive imm) s (deactivate s)
  | send (s : State) (hp : s.pending = true) : Effect .fbTx s (sendFeedback s)
  | resend (s : State) (ha : s.active = true) : Effect .fbIncomplete s (sendFeedback (respond .flush 0 s))

/-- `exec` answers a next state, for every event in every state, and it is one of the listed ones. -/
theorem exec_effect (i : Instr) (s : State) : ∃ t, exec i s = .next t ∧ Effect i s t := by
  cases i with
  | nop => exact ⟨_, exec_nop s, .none _ _ (.inl rfl)⟩
  | push fs =>
    cases ha : s.active with
    | true => exact ⟨_, exec_push_active ha fs, .push _ _ ha⟩
    | false => exact ⟨_, exec_push_inactive ha fs, .ignoredPush _ _ ha⟩
  | consume k =>
    cases hp : s.playing with
    | true => exact ⟨_, exec_consume_playing hp k, .consume _ _ hp⟩
    | false => exact ⟨_, exec_consume_stopped hp k, .none _ _ (.inr (.inl ⟨k, rfl, hp⟩))⟩
  | sof =>
    cases ha : s.active with
    | true => exact ⟨_, exec_sof_active ha, .sof _ ha⟩
    | false => exact ⟨_, exec_sof_inactive ha, .none _ _ (.inr (.inr (.inl ⟨rfl, ha⟩)))⟩
  | capture v => exact ⟨_, exec_capture v s, .capture v s⟩
  | setAlt a =>
    by_cases h0 : a = 0
    · subst h0; exact ⟨_, exec_setAlt_zero s, .idle s⟩
    · by_cases h1 : a = 1
      · subst h1
        cases ha : s.active with
        | true => exact ⟨_, exec_setAlt_one_active ha, .answer _ _ _ _ (.inl rfl) (.inl ⟨rfl, ha⟩)⟩
        | false => exact ⟨_, exec_setAlt_one_inactive ha, .activate s ha⟩
      · exact ⟨_, exec_setAlt_other h0 h1 s, .stall _ _ _ (.inl ⟨a, rfl, h0, h1⟩)⟩
  | setMute m =>
    by_cases hm : m.toNat ≤ 1
    · exact ⟨_, exec_setMute_legal hm s, .mute m s hm⟩
    · exact ⟨_, exec_setMute_illegal (by omega) s, .stall _ _ _ (by simp)⟩
  | getMute m =>
    by_cases h : m = 0
    · subst h; exact ⟨_, exec_getMute_zero s, .answer _ _ _ _ (.inr rfl) (by simp)⟩
    · exact ⟨_, exec_getMute_other h s, .stall _ _ _ (by simp)⟩
  | getRate m =>
    by_cases h : m = 0
    · subst h; exact ⟨_, exec_getRate_zero s, .answer _ _ _ _ (.inr rfl) (by simp)⟩
    · exact ⟨_, exec_getRate_other h s, .stall _ _ _ (by simp)⟩
  | setRate c r =>
    cases hq : rateOfHz r.toNat with
    | none => exact ⟨_, exec_setRate_unsupported hq c s, .stall _ _ _ (by simp)⟩
    | some q =>
      by_cases he : r.toNat = s.rate.toNat
      · exact ⟨_, exec_setRate_same hq he c, .answer _ _ _ _ (.inl rfl) (by simp)⟩
      · cases ha : s.active with
        | true => exact ⟨_, exec_setRate_active hq he ha c, .stall _ _ _ (by simp)⟩
        | false =>
          cases c with
          | true => exact ⟨_, exec_setRate_clkfail hq he ha, .stall _ _ _ (by simp)⟩
          | false => exact ⟨_, exec_setRate_commit hq he ha, .rate r q s (rateOfHz_some.mp hq) ha⟩
  | forceInactive imm => exact ⟨_, exec_forceInactive imm s, .powerLoss imm s⟩
  | regRead off =>
    cases hr : windowReg off.toNat with
    | some r => exact ⟨_, exec_regRead_some hr s, .answer _ _ _ _ (.inr rfl) (by simp)⟩
    | none => exact ⟨_, exec_regRead_none hr s, .stall _ _ _ (by simp)⟩
  | ctlBad x => exact ⟨_, rfl, .stall _ _ .malformed (by simp)⟩
  | ctlUnimpl49 x => exact ⟨_, rfl, .stall _ _ .unimplementedSelector (by simp)⟩
  | ctlUnimpl4A a x => exact ⟨_, rfl, .stall _ _ .unimplementedSelector (by simp)⟩
  | ctlUnimpl4C a x => exact ⟨_, rfl, .stall _ _ .unimplementedSelector (by simp)⟩
  | fbTx =>
    cases hp : s.pending with
    | true => exact ⟨_, exec_fbTx_pending hp, .send s hp⟩
    | false => exact ⟨_, exec_fbTx_idle hp, .none _ _ (by simp [hp])⟩
  | fbIncomplete =>
    cases ha : s.active with
    | true => exact ⟨_, exec_fbIncomplete_active ha, .resend s ha⟩
    | false => exact ⟨_, exec_fbIncomplete_inactive ha, .none _ _ (by simp [ha])⟩

theorem effect_of_exec {i : Instr} {s t : State} (h : exec i s = .next t) : Effect i s t := by
  obtain ⟨u, h1, h2⟩ := exec_effect i s
  rw [h] at h1
  cases h1
  exact h2

/-- No event touches the configuration, the trace or `tpc`, and the log only grows. -/
theorem effect_frame {i : Instr} {s t : State} (h : Effect i s t) :
    t.cfg = s.cfg ∧ t.tpc = s.tpc ∧ t.trace = s.trace ∧ ∃ answers, t.out = s.out ++ answers := by
  cases h with
  | none => exact ⟨rfl, rfl, rfl, [], by simp⟩
  | push =>
    rw [answerFill_cfg, answerFill_tpc, answerFill_trace, answerFill_out, pushFrames_frame]
    exact ⟨rfl, rfl, rfl, _, rfl⟩
  | consume k =>
    obtain ⟨a, ha, -⟩ := consumeWords_answers k.toNat s
    rw [ha, consumeWords_frame]
    exact ⟨rfl, rfl, rfl, a, rfl⟩
  | sof => rw [sofTick_frame]; exact ⟨rfl, rfl, rfl, [], by simp⟩
  | capture => exact ⟨rfl, rfl, rfl, [], by simp⟩
  | powerLoss => exact ⟨rfl, rfl, rfl, [], by simp⟩
  | resend => exact ⟨rfl, rfl, rfl, _, by rw [sendFeedback_out, respond_out, List.append_assoc]⟩
  | _ => exact ⟨rfl, rfl, rfl, _, rfl⟩

/-- While active, every event but a tick and the two that deactivate leaves the window's registers alone; only the
transport's events clear `PENDING` (R43, R105). -/
theorem effect_while_active {i : Instr} {s t : State} (h : Effect i s t) (ha : s.active = true) (hs : i ≠ .sof)
    (h0 : i ≠ .setAlt 0) (hf : ∀ x, i ≠ .forceInactive x) :
    t.active = true ∧ t.cfg = s.cfg ∧ t.shift = s.shift ∧ t.sofcnt = s.sofcnt ∧
    (t.pending = s.pending ∨ t.pending = false ∧ (i = .fbTx ∨ i = .fbIncomplete)) := by
  cases h with
  | push =>
    rw [answerFill_active, answerFill_cfg, answerFill_shift, answerFill_sofcnt, answerFill_pending, pushFrames_frame]
    exact ⟨ha, rfl, rfl, rfl, .inl rfl⟩
  | consume => rw [consumeWords_frame]; exact ⟨ha, rfl, rfl, rfl, .inl rfl⟩
  | sof => exact absurd rfl hs
  | idle => exact absurd rfl h0
  | powerLoss => exact absurd rfl (hf _)
  | activate => simp_all
  | rate _ _ _ _ hn => rw [ha] at hn; cases hn
  | send => exact ⟨ha, rfl, rfl, rfl, .inr ⟨rfl, .inl rfl⟩⟩
  | resend => exact ⟨ha, rfl, rfl, rfl, .inr ⟨rfl, .inr rfl⟩⟩
  | _ => exact ⟨ha, rfl, rfl, rfl, .inl rfl⟩

/-- Events in a row: the second list runs on the state the first one left. -/
theorem execAll_append (a b : List Instr) (s : State) :
    execAll (a ++ b) s = match execAll a s with
      | .next t => execAll b t
      | .fault r => .fault r
      | .refused r => .refused r := by
  induction a generalizing s with
  | nil => rfl
  | cons i is ih =>
    simp only [List.cons_append, execAll]
    cases exec i s <;> simp [ih]

/-- Every event keeps the canonical form of the buffer. -/
theorem effect_buf_wf {i : Instr} {s t : State} (h : Effect i s t) (hb : s.buf.wf = true) : t.buf.wf = true := by
  cases h with
  | push => rw [answerFill_buf, pushFrames_buf]; exact pushSlots_wf hb _
  | consume => rw [consumeWords_frame]; exact hb
  | sof => rw [sofTick_frame]; exact hb
  | idle => rfl
  | powerLoss => rfl
  | _ => exact hb

/-- The reset buffer has the canonical form. -/
theorem resetOf_buf_wf (c : Config) : (State.resetOf c).buf.wf = true := rfl

theorem reset_buf_wf : State.reset.buf.wf = true := rfl

/-- `step` on a decoded event. -/
theorem step_event {s : State} {i : Instr} {rest : List Word} (hd : fetch s = .event i rest) {t : State}
    (he : exec i s = .next t) : step s = .next (advance i.length t) := by
  have hne : s.tpc ≠ s.trace.length := by
    intro hc
    rw [fetch, hc, List.drop_length] at hd
    cases hd
  unfold step
  rw [if_neg hne, hd]
  dsimp only
  rw [he]

/-- What a step is: an event fetched, performed, and the trace advanced. -/
theorem step_cases {s t : State} (h : step s = .next t) :
    ∃ i rest u, fetch s = .event i rest ∧ exec i s = .next u ∧ Effect i s u ∧ t = advance i.length u := by
  unfold step at h
  split at h
  · cases h
  · cases hd : fetch s with
    | empty => rw [hd] at h; cases h
    | invalid w => rw [hd] at h; cases h
    | truncated m n => rw [hd] at h; cases h
    | event i rest =>
      rw [hd] at h
      dsimp only at h
      obtain ⟨u, h1, h2⟩ := exec_effect i s
      rw [h1] at h
      cases h
      exact ⟨i, rest, u, rfl, h1, h2, rfl⟩

end Sys2Proof.Machine
end

