-- ==== Sys2Proof/Laws/Micro.lean ====
section
/-! SUPPORT. What a micro step leaves alone: the configuration, and a first reading under way until its own second one. -/

namespace Sys2Proof.Machine

/-- No micro step changes the configuration. -/
theorem microStep_cfg {a : Micro} {m n : MicroState} (h : microStep a m = some n) : n.st.cfg = m.st.cfg := by
  cases a with
  | whole i =>
    obtain ⟨t, ht, e⟩ := exec_effect i m.st
    simp only [microStep, ht] at h
    split at h
    · cases h
      exact (effect_frame e).1
    · cases h
  | pushNext =>
    simp only [microStep] at h
    split at h
    · cases h
      dsimp only
      split
      · rw [startCheck_cfg, pushSlot_cfg]
      · rw [pushSlot_cfg]
    · cases h
    · cases h
  | tickEnd =>
    simp only [microStep] at h
    split at h
    · cases h
      dsimp only
      rw [sofTick_frame]
    · cases h
  | _ =>
    simp only [microStep] at h
    repeat' split at h
    all_goals first | (cases h; rfl) | cases h

/-- The first reading of an `SOF` stays until its second one (R61). -/
theorem microStep_tick {a : Micro} {m n : MicroState} {rem : Word} (h : microStep a m = some n) (ht : m.tick = some rem)
    (ha : a ≠ .tickEnd) : n.tick = some rem := by
  cases a with
  | tickEnd => exact absurd rfl ha
  | tickRead => simp [microStep, ht] at h
  | whole i =>
    obtain ⟨t, he, -⟩ := exec_effect i m.st
    simp only [microStep, he] at h
    split at h
    · cases h
      exact ht
    · cases h
  | _ =>
    simp only [microStep] at h
    repeat' split at h
    all_goals first | (cases h; exact ht) | cases h

/-- The first reading of a derived register stays until its second one (R128). -/
theorem microStep_look {a : Micro} {m n : MicroState} {reading : WindowReg × Word} (h : microStep a m = some n)
    (hl : m.look = some reading) (ha : a ≠ .lookEnd) : n.look = some reading := by
  cases a with
  | lookEnd => exact absurd rfl ha
  | lookRead off => simp [microStep, hl] at h
  | whole i =>
    obtain ⟨t, he, -⟩ := exec_effect i m.st
    simp only [microStep, he] at h
    split at h
    · cases h
      exact hl
    · cases h
  | _ =>
    simp only [microStep] at h
    repeat' split at h
    all_goals first | (cases h; exact hl) | cases h

/-- What every micro step of a schedule keeps, the schedule keeps. -/
theorem microRun_keeps {p : MicroState → Prop} {acts : List Micro}
    (hp : ∀ a ∈ acts, ∀ m n, p m → microStep a m = some n → p n) {m n : MicroState} (h : microRun acts m = some n)
    (hm : p m) : p n := by
  induction acts generalizing m with
  | nil => cases h; exact hm
  | cons a as ih =>
    simp only [microRun] at h
    cases hs : microStep a m with
    | none => rw [hs] at h; cases h
    | some m' =>
      rw [hs] at h
      exact ih (fun b hb => hp b (by simp [hb])) h (hp a (by simp) m m' hm hs)

end Sys2Proof.Machine
end

