-- ==== Sys2Proof/Laws/PerInstr.lean ====
section
/-! SUPPORT. A statement about every event as syntax, one lemma per constructor: the words of an event are as many as its
length says, and the first word's PORT is the number of the event's agent (30_encoding.md R70, R72, R80). -/

namespace Sys2Proof.Laws.PortOfAgent

open Sys2Proof Sys2Proof.Machine

/-- `PORT` of the event word is the agent's, and the event takes `length` words. -/
def Statement (i : Instr) : Prop :=
  (encode i).length = i.length ∧ ∃ ev ws, encode i = ev :: ws ∧ portField ev = portNumber (agentOf i)

theorem portField_eventWord (opc : BitVec 8) (imm : Imm) : (portField (eventWord opc imm)).toNat = opc.toNat / 16 := by
  have h1 := imm.isLt
  have h2 := opc.isLt
  simp only [portField, BitVec.extractLsb'_toNat, eventWord_toNat, Nat.shiftRight_eq_div_pow]
  omega

/-- The shape of every lemma below. -/
theorem one_word {i : Instr} {opc : BitVec 8} {imm : Imm} (he : encode i = [eventWord opc imm]) (hl : i.length = 1)
    (hp : opc.toNat / 16 = (portNumber (agentOf i)).toNat) : Statement i :=
  ⟨by rw [he, hl]; rfl, _, _, he, BitVec.eq_of_toNat_eq (by rw [portField_eventWord, hp])⟩

theorem nop : Statement .nop := one_word rfl rfl rfl
theorem consume (k : Imm) : Statement (.consume k) := one_word rfl rfl rfl
theorem sof : Statement .sof := one_word rfl rfl rfl
theorem capture (v : Imm) : Statement (.capture v) := one_word rfl rfl rfl
theorem setAlt (a : Imm) : Statement (.setAlt a) := one_word rfl rfl rfl
theorem setMute (m : Imm) : Statement (.setMute m) := one_word rfl rfl rfl
theorem getMute (imm : Imm) : Statement (.getMute imm) := one_word rfl rfl rfl
theorem getRate (imm : Imm) : Statement (.getRate imm) := one_word rfl rfl rfl
theorem setRate (clkfail : Bool) (r : Imm) : Statement (.setRate clkfail r) :=
  one_word rfl rfl (by cases clkfail <;> rfl)
theorem forceInactive (imm : Imm) : Statement (.forceInactive imm) := one_word rfl rfl rfl
theorem regRead (off : Imm) : Statement (.regRead off) := one_word rfl rfl rfl
theorem ctlBad (x : Imm) : Statement (.ctlBad x) := one_word rfl rfl rfl
theorem ctlUnimpl49 (x : Imm) : Statement (.ctlUnimpl49 x) := one_word rfl rfl rfl
theorem ctlUnimpl4A (sel : BitVec 1) (x : Imm) : Statement (.ctlUnimpl4A sel x) :=
  one_word rfl rfl (show _ = 4 by revert sel; decide)
theorem ctlUnimpl4C (sel : BitVec 2) (x : Imm) : Statement (.ctlUnimpl4C sel x) :=
  one_word rfl rfl (show _ = 4 by revert sel; decide)
theorem fbTx : Statement .fbTx := one_word rfl rfl rfl
theorem fbIncomplete : Statement .fbIncomplete := one_word rfl rfl rfl

theorem flatMap_frameWords_length (fs : List Frame) : (fs.flatMap frameWords).length = 2 * fs.length := by
  induction fs with
  | nil => rfl
  | cons f fs ih => rw [List.flatMap_cons, List.length_append, ih, List.length_cons]; simp [frameWords]; omega

theorem push (frames : List Frame) : Statement (.push frames) := by
  refine ⟨?_, _, _, rfl, BitVec.eq_of_toNat_eq (by rw [portField_eventWord]; rfl)⟩
  rw [encode, List.length_cons, flatMap_frameWords_length, Instr.length]
  omega

end Sys2Proof.Laws.PortOfAgent
end

