-- ==== Sys2Proof/Machine/Assembler.lean ====
section
/-! DEFINITION. The assembler syntax of 30_encoding.md R76 and R77: one event per line, a mnemonic and its operands,
numbers in decimal or 0x hexadecimal, a semicolon starts a comment. What R76 leaves open is in log 12. -/

namespace Sys2Proof.Machine

/-- A token of a line. -/
inductive Token where
  | text (cs : List Char)
  | opening
  | comma
  | closing
  deriving DecidableEq, Repr

/-- The token collected so far, if any, in front of the tokens after it. -/
def flushToken (acc : List Char) (ts : List Token) : List Token :=
  if acc.isEmpty then ts else .text acc.reverse :: ts

/-- The tokens of a line, up to a comment. -/
def tokens : List Char → List Char → List Token
  | [], acc => flushToken acc []
  | c :: cs, acc =>
    if c = ';' then flushToken acc []
    else if c = ' ' ∨ c = '\t' ∨ c = '\r' then flushToken acc (tokens cs [])
    else if c = '(' then flushToken acc (.opening :: tokens cs [])
    else if c = ',' then flushToken acc (.comma :: tokens cs [])
    else if c = ')' then flushToken acc (.closing :: tokens cs [])
    else tokens cs (c :: acc)

/-- The value of a digit below `base`. -/
def digit (base : Nat) (c : Char) : Option Nat :=
  let n := c.toNat
  let d := if 48 ≤ n ∧ n ≤ 57 then n - 48
    else if 97 ≤ n ∧ n ≤ 102 then n - 87
    else if 65 ≤ n ∧ n ≤ 70 then n - 55
    else 16
  if d < base then some d else none

/-- Digits to a number, most significant first. -/
def digits (base : Nat) : List Char → Nat → Option Nat
  | [], n => some n
  | c :: cs, n =>
    match digit base c with
    | some d => digits base cs (n * base + d)
    | none => none

/-- A number, decimal or `0x` hexadecimal (R76). -/
def number : List Char → Option Nat
  | '0' :: 'x' :: c :: cs => digits 16 (c :: cs) 0
  | c :: cs => digits 10 (c :: cs) 0
  | [] => none

/-- A number that fits 24 bits. -/
def number24 (cs : List Char) : Option (BitVec 24) :=
  match number cs with
  | some n => if n < 2 ^ 24 then some (BitVec.ofNat 24 n) else none
  | none => none

/-- A number that fits one byte. -/
def number8 (cs : List Char) : Option Byte :=
  match number cs with
  | some n => if n < 256 then some (BitVec.ofNat 8 n) else none
  | none => none

/-- A number of frames, 0 to 255. -/
def countOperand (cs : List Char) : Option Nat :=
  match number cs with
  | some n => if n ≤ 255 then some n else none
  | none => none

/-- The frames of a `PUSH` line, each `(L,R)` (R76). -/
def frameOperands : List Token → Option (List Frame)
  | [] => some []
  | .opening :: .text l :: .comma :: .text r :: .closing :: ts =>
    match number24 l, number24 r, frameOperands ts with
    | some lv, some rv, some fs => some (⟨lv, rv⟩ :: fs)
    | _, _, _ => none
  | _ => none

/-- The bytes of a `PUSHBYTES` line (R77). -/
def byteOperands : List Token → Option (List Byte)
  | [] => some []
  | .text b :: ts =>
    match number8 b, byteOperands ts with
    | some v, some bs => some (v :: bs)
    | _, _ => none
  | _ => none

/-- `CTL_UNIMPL` with its opcode 0x49 to 0x4F given explicitly (R76). -/
def ctlUnimpl (opc : Nat) (x : Imm) : Option Instr :=
  if opc = 0x49 then some (.ctlUnimpl49 x)
  else if opc = 0x4A ∨ opc = 0x4B then some (.ctlUnimpl4A (BitVec.ofNat 1 opc) x)
  else if 0x4C ≤ opc ∧ opc ≤ 0x4F then some (.ctlUnimpl4C (BitVec.ofNat 2 opc) x)
  else none

/-- A mnemonic with one 24-bit operand. -/
def unary (m : List Char) (v : Imm) : Option Instr :=
  if m = ['C', 'O', 'N', 'S', 'U', 'M', 'E'] then some (.consume v)
  else if m = ['C', 'A', 'P', 'T', 'U', 'R', 'E'] then some (.capture v)
  else if m = ['S', 'E', 'T', '_', 'A', 'L', 'T'] then some (.setAlt v)
  else if m = ['S', 'E', 'T', '_', 'M', 'U', 'T', 'E'] then some (.setMute v)
  else if m = ['S', 'E', 'T', '_', 'R', 'A', 'T', 'E'] then some (.setRate false v)
  else if m = ['S', 'E', 'T', '_', 'R', 'A', 'T', 'E', '.', 'F'] then some (.setRate true v)
  else if m = ['R', 'E', 'G', '_', 'R', 'E', 'A', 'D'] then some (.regRead v)
  else if m = ['C', 'T', 'L', '_', 'B', 'A', 'D'] then some (.ctlBad v)
  else none

/-- A mnemonic with no operand; the two that expand to events with operands are pseudo-events (R77). -/
def nullary (m : List Char) : Option (List Instr) :=
  if m = ['N', 'O', 'P'] then some [.nop]
  else if m = ['S', 'O', 'F'] then some [.sof]
  else if m = ['G', 'E', 'T', '_', 'M', 'U', 'T', 'E'] then some [.getMute 0]
  else if m = ['G', 'E', 'T', '_', 'R', 'A', 'T', 'E'] then some [.getRate 0]
  else if m = ['F', 'O', 'R', 'C', 'E', '_', 'I', 'N', 'A', 'C', 'T', 'I', 'V', 'E'] then some [.forceInactive 0]
  else if m = ['F', 'B', '_', 'T', 'X'] then some [.fbTx]
  else if m = ['F', 'B', '_', 'I', 'N', 'C', 'O', 'M', 'P', 'L', 'E', 'T', 'E'] then some [.fbIncomplete]
  else if m = ['A', 'C', 'T', 'I', 'V', 'A', 'T', 'E'] then some (expand .activate)
  else if m = ['I', 'D', 'L', 'E'] then some (expand .idle)
  else none

/-- A `PUSH` of frames the encoding can count. -/
def pushLine (fs : List Frame) : Option (List Instr) :=
  if fs.length ≤ 255 then some [.push fs] else none

/-- The events of a mnemonic and the tokens after it. -/
def assembleTokens (m : List Char) (ts : List Token) : Option (List Instr) :=
  if m = ['P', 'U', 'S', 'H'] then (frameOperands ts).bind pushLine
  else if m = ['P', 'U', 'S', 'H', 'B', 'Y', 'T', 'E', 'S'] then
    (byteOperands ts).bind fun bs => pushLine (framesOfBytes bs)
  else match ts with
    | [] => nullary m
    | [.text a] =>
      if m = ['T', 'I', 'C', 'K'] then (number24 a).map fun v => expand (.tick v)
      else if m = ['P', 'U', 'S', 'H', 'Z'] then (countOperand a).map fun n => expand (.pushz n)
      else (number24 a).bind fun v => (unary m v).map fun i => [i]
    | [.text a, .text b] =>
      if m = ['C', 'T', 'L', '_', 'U', 'N', 'I', 'M', 'P', 'L'] then
        (number a).bind fun opc => (number24 b).bind fun x => (ctlUnimpl opc x).map fun i => [i]
      else none
    | [.text a, .comma, .text b, .comma, .text c] =>
      if m = ['P', 'U', 'S', 'H', 'N'] then
        (countOperand a).bind fun n => (number24 b).bind fun l => (number24 c).map fun r => expand (.pushn n l r)
      else none
    | _ => none

/-- The events of one line; a line with no token has none (R76). -/
def assembleLine (line : List Char) : Option (List Instr) :=
  match tokens line [] with
  | [] => some []
  | .text m :: ts => assembleTokens m ts
  | _ => none

/-- The lines of a text. -/
def textLines : List Char → List Char → List (List Char)
  | [], acc => [acc.reverse]
  | c :: cs, acc => if c = '\n' then acc.reverse :: textLines cs [] else textLines cs (c :: acc)

/-- The events of the lines in order, none if a line is wrong. -/
def assembleLines : List (List Char) → Option (List Instr)
  | [] => some []
  | l :: ls =>
    match assembleLine l, assembleLines ls with
    | some is, some js => some (is ++ js)
    | _, _ => none

/-- The trace a text stands for. -/
def assemble (cs : List Char) : Option (List Word) :=
  (assembleLines (textLines cs [])).map fun is => is.flatMap encode

end Sys2Proof.Machine
end

