-- ==== Sys2Proof/Tests/Slice0.lean ====
section
/-! SUPPORT. Tests: the check of WellFormed, the decoding of words written out from 30_encoding.md, single events against
the vectors of 95_test_vectors.md (its row is named beside each), and a witness for every statement with hypotheses. -/

namespace Sys2Proof.Tests

open Sys2Proof Sys2Proof.Machine

/-! ## WellFormed -/

theorem push_replicate_wf (n : Nat) (f : Frame) : (Instr.push (List.replicate n f)).wf = decide (n ≤ 255) := by
  show decide ((List.replicate n f).length ≤ 255) = _
  rw [List.length_replicate]

/-- A `PUSH` of 256 frames has no encoding (R71). -/
theorem test_wf_refuses_256_frames : (Instr.push (List.replicate 256 ⟨0, 0⟩)).wf = false :=
  (push_replicate_wf 256 _).trans (by decide)

theorem test_wf_takes_255_frames : (Instr.push (List.replicate 255 ⟨0, 0⟩)).wf = true :=
  (push_replicate_wf 255 _).trans (by decide)

/-! ## Decoding: the words of part 3, and words written from R70 to R73 -/

theorem test_decode_nop : decode [0x00000000] = .event .nop [] := by decide
theorem test_decode_push : decode [0x10000001, 0x00123456, 0xFFABCDEF, 0x30000000] =
    .event (.push [⟨0x123456, 0xABCDEF⟩]) [0x30000000] := by decide
theorem test_decode_consume : decode [0x20FFFFFF] = .event (.consume 16777215) [] := by decide
theorem test_decode_sof : decode [0x30000000] = .event .sof [] := by decide
theorem test_decode_capture : decode [0x31002C1A] = .event (.capture 11290) [] := by decide
theorem test_decode_setAlt : decode [0x40000001] = .event (.setAlt 1) [] := by decide
theorem test_decode_setMute : decode [0x41000001] = .event (.setMute 1) [] := by decide
theorem test_decode_getMute : decode [0x42000005] = .event (.getMute 5) [] := by decide
theorem test_decode_getRate : decode [0x43000000] = .event (.getRate 0) [] := by decide
theorem test_decode_setRate : decode [0x4400AC44] = .event (.setRate false 44100) [] := by decide
theorem test_decode_setRateF : decode [0x45017700] = .event (.setRate true 96000) [] := by decide
theorem test_decode_forceInactive : decode [0x46ABCDEF] = .event (.forceInactive 0xABCDEF) [] := by decide
theorem test_decode_regRead : decode [0x47000018] = .event (.regRead 0x18) [] := by decide
theorem test_decode_ctlBad : decode [0x48000000] = .event (.ctlBad 0) [] := by decide
theorem test_decode_ctlUnimpl49 : decode [0x49000000] = .event (.ctlUnimpl49 0) [] := by decide
theorem test_decode_ctlUnimpl4A : decode [0x4B123456] = .event (.ctlUnimpl4A 1 0x123456) [] := by decide
theorem test_decode_ctlUnimpl4C : decode [0x4F000000] = .event (.ctlUnimpl4C 3 0) [] := by decide
theorem test_decode_fbTx : decode [0x50000000] = .event .fbTx [] := by decide
theorem test_decode_fbIncomplete : decode [0x51000000] = .event .fbIncomplete [] := by decide

/-- The invalid words of part 3. -/
theorem test_decode_invalid :
    [0x00000001, 0x10000100, 0x11000000, 0x21000000, 0x30000001, 0x32000000, 0x50000001, 0x52000000, 0x60000000,
      0xFFFFFFFF].all (fun w : Word => decide (decode [w] = .invalid w)) = true := by decide

/-- The cut trace at the end of part 3. -/
theorem test_decode_cut_push : decode [0x10000001, 0x00123456] = .truncated 2 1 := by decide

/-- The words are written back (R80), the payload's ignored bits as 0 (R73). -/
theorem test_encode_push : encode (.push [⟨0x123456, 0xABCDEF⟩]) = [0x10000001, 0x00123456, 0x00ABCDEF] := by decide

/-! ## Single events -/

/-- The default configuration with another capacity (part 2: `SCALE` = 1, `CAP_INIT` = 0). -/
def configOf (c : Nat) : Config := { Config.default with capacity := c }

/-- "Fresh active" (part 2): the reset state after `SET_ALT 1` (T1). -/
def freshActive (c : Nat) : State := { State.resetOf (configOf c) with active := true }

/-- The event answers a next state of which `p` holds. -/
def leads (i : Instr) (s : State) (p : State → Bool) : Bool :=
  match exec i s with
  | .next t => p t
  | .fault _ => false
  | .refused _ => false

/-- The records an event appends, as (code, value). -/
def answers (s t : State) : List (Nat × Nat) := (t.out.drop s.out.length).map fun r => (responseCode r.kind, r.val.toNat)

/-- The listed slots. -/
def slots (t : State) (a n : Nat) : List Nat := (List.range n).map fun k => (t.buf.read (a + k)).toNat

/-- T27. -/
theorem test_nop : leads .nop (freshActive 16) (fun t => t = freshActive 16) = true := by decide

/-- B6: the start transition is tested after each frame, and `WPTR` wraps. -/
theorem test_push_starts_inside :
    leads (.push [⟨0x010000, 0⟩, ⟨0x020000, 0⟩, ⟨0x030000, 0⟩, ⟨0x040000, 0⟩]) (freshActive 16) (fun t =>
      t.playing && t.wptr == 0 && answers (freshActive 16) t == [(4, 0)] &&
      slots t 0 16 == [0x0100, 0, 0, 0, 0x0200, 0, 0, 0, 0x0300, 0, 0, 0, 0x0400, 0, 0, 0]) = true := by decide

/-- The start state of B9. -/
def b9 : State := { freshActive 3072 with playing := true, wptr := 3068, rem := 2000 }

/-- B9: the split, the slot order and the wrap from `C - 1` to 0. -/
theorem test_push_wraps :
    leads (.push [⟨0xABCDEF, 0x123456⟩]) b9 (fun t =>
      slots t 3068 4 == [0xABCD, 0xEF00, 0x1234, 0x5600] && t.wptr == 0 && answers b9 t == [(4, 2000)]) = true := by
  decide

/-- The start state of K2. -/
def k2 : State :=
  { freshActive 16 with playing := true, rem := 1, buf := [(0, 0xCAFE), (15, 0xBEEF)] }

/-- K2: the reload from 1 to `C`. -/
theorem test_consume_reloads :
    leads (.consume 2) k2 (fun t =>
      answers k2 t == [(5, 0xBEEF), (5, 0xCAFE)] && t.rem == 15 && rptr t == 1 && t.buf == k2.buf) = true := by decide

/-- K1: an armed engine ignores `CONSUME`. -/
theorem test_consume_armed : leads (.consume 3) (freshActive 16) (fun t => t = freshActive 16) = true := by decide

/-- The start state of part 2.3, playing, with `WPTR` and `REM` given. -/
def ticking (wptr rem : Word) : State :=
  { freshActive 3072 with playing := true, cap := 100, wptr := wptr, rem := rem }

/-- S8: the consumer one slot ahead reads as a nearly full buffer. -/
theorem test_sof_overtaken :
    leads .sof (ticking 99 2972) (fun t =>
      t.corr == 0xFFFFFA01 && !t.inTol && t.accum == 100 && t.sofcnt == 1 && !t.pending) = true := by decide

/-- W7's closing tick: `ACCUM` and `CURVAL` wrap; and a closing tick sets `PENDING`. -/
theorem test_sof_closes :
    leads .sof { freshActive 3072 with cap := 0xFFFFFFFF, accum := 0xFFFFFFFD, sofcnt := 3 } (fun t =>
      t.curval == 0xFFFFFFEC && t.accum == 0 && t.sofcnt == 0 && t.pending) = true := by decide

/-- Part 2.7, in Inactive. -/
theorem test_capture : leads (.capture 11290) State.reset (fun t => t = { State.reset with cap := 0x2C1A }) = true := by
  decide

/-- The start state of T2 and T3, with the rows deactivation keeps set as well. -/
def t2 : State :=
  { freshActive 3072 with playing := true, wptr := 2000, accum := 5000, sofcnt := 2, pending := true,
                          corr := 0xFFFFFFC0, muted := true, cap := 7, fbLast := 9, buf := [(3, 5)] }

/-- T3: the reset state but for the rows that are kept. -/
theorem test_setAlt_zero :
    leads (.setAlt 0) t2 (fun t =>
      t = { State.reset with muted := true, cap := 7, fbLast := 9, out := [⟨.ack, 0⟩] }) = true := by decide

/-- T1, from reset, and what it leaves. -/
theorem test_setAlt_one :
    leads (.setAlt 1) State.reset (fun t => t = { freshActive 3072 with out := [⟨.ack, 0⟩] }) = true := by decide

/-- T6. -/
theorem test_setMute : leads (.setMute 1) State.reset (fun t => t.muted && answers State.reset t == [(1, 0)]) = true := by
  decide

/-- T7. -/
theorem test_setMute_two :
    leads (.setMute 2) State.reset (fun t => t = { State.reset with out := [⟨.stall, 2⟩] }) = true := by decide

/-- T9 with `m` = 1. -/
theorem test_getMute : leads (.getMute 0) t2 (fun t => answers t2 t == [(3, 1)]) = true := by decide

/-- T10. -/
theorem test_getMute_operand : leads (.getMute 5) t2 (fun t => answers t2 t == [(2, 2)]) = true := by decide

/-- T11. -/
theorem test_getRate : leads (.getRate 0) State.reset (fun t => answers State.reset t == [(3, 0xAC44)]) = true := by
  decide

/-- T12, 48000. -/
theorem test_setRate :
    leads (.setRate false 48000) State.reset (fun t =>
      t = { State.reset with rate := 48000, rateInd := 48000, defrate := 786432, curval := 786432,
                             out := [⟨.ack, 0⟩] }) = true := by decide

/-- T19: the first failing check is reported. -/
theorem test_setRate_order :
    leads (.setRate true 12345) (freshActive 3072) (fun t => answers (freshActive 3072) t == [(2, 3)]) = true := by
  decide

/-- T21. -/
theorem test_forceInactive :
    leads (.forceInactive 0xABCDEF) t2 (fun t => t = { State.reset with muted := true, cap := 7, fbLast := 9 }) = true := by
  decide

/-- T28. -/
theorem test_regRead_streamStat :
    leads (.regRead 0) { t2 with rate := 96000 } (fun t => answers t2 t == [(3, 0x1837)]) = true := by decide

/-- T24. -/
theorem test_regRead_bad :
    leads (.regRead 0x44) t2 (fun t => answers t2 t == [(2, 6)]) = true := by decide

/-- T25. -/
theorem test_ctlBad : leads (.ctlBad 3) t2 (fun t => t = { t2 with out := [⟨.stall, 2⟩] }) = true := by decide

/-- T26, one word of each of the three rows. -/
theorem test_ctlUnimpl49 : leads (.ctlUnimpl49 0) t2 (fun t => t = { t2 with out := [⟨.stall, 1⟩] }) = true := by decide
theorem test_ctlUnimpl4A : leads (.ctlUnimpl4A 1 7) t2 (fun t => t = { t2 with out := [⟨.stall, 1⟩] }) = true := by decide
theorem test_ctlUnimpl4C : leads (.ctlUnimpl4C 2 7) t2 (fun t => t = { t2 with out := [⟨.stall, 1⟩] }) = true := by decide

/-- F6: a negative sum is clamped over the integers. -/
theorem test_fbTx_negative :
    leads .fbTx { freshActive 3072 with pending := true, curval := 0, corr := 0xFFFFFFFB } (fun t =>
      answers (freshActive 3072) t == [(7, 721837)] && t.fbLast == 721837 && !t.pending) = true := by decide

/-- F9: the correction is read signed; the wire bytes go least significant first. -/
theorem test_fbTx_signed :
    leads .fbTx { freshActive 3072 with pending := true, corr := 0xFFFFFFC0 } (fun t =>
      answers (freshActive 3072) t == [(7, 722797)] && t.out.flatMap feedbackBytes == [0x6D, 0x07, 0x0B]) = true := by
  decide

/-- The last example of part 2.5. -/
theorem test_fbIncomplete :
    leads .fbIncomplete { freshActive 3072 with corr := 0xFFFFFFC0 } (fun t =>
      answers (freshActive 3072) t == [(6, 0), (7, 0x0B076D)] && t.fbLast == 0x0B076D) = true := by decide

/-- The first step of P3 from State.reset: the event is fetched from the trace, and `tpc` moves on. -/
theorem test_step_from_reset :
    (match step (State.reset.withFetchWord 32 0x43000000) with
      | .next t => answers State.reset t == [(3, 0xAC44)] && t.tpc == 1
      | .fault _ => false
      | .refused _ => false) = true := by decide

/-! ## The edges -/

/-- The byte adapter's example under part 2.1. -/
theorem test_framesOfBytes :
    framesOfBytes [0x56, 0x34, 0x12, 0xEF, 0xCD, 0xAB, 0x01, 0x00, 0x00, 0xFF, 0xFF, 0xFF, 0x99] =
      [⟨0x123456, 0xABCDEF⟩, ⟨0x000001, 0xFFFFFF⟩] := by decide

/-- X12. -/
theorem test_fixed_point : fixedInt 722861 = 44 ∧ fixedFrac 722861 = 1965 ∧ wireBytes 722861 = [0xAD, 0x07, 0x0B] := by
  decide

/-- R56: 0x00AC44 as bytes is 44100; two bytes are no rate. -/
theorem test_rateRequest :
    rateRequest false [0x44, 0xAC, 0x00] = .setRate false 44100 ∧ rateRequest false [0x44, 0xAC] = .ctlBad 0 := by decide

/-- R76's own lines. -/
theorem test_assemble :
    assemble "PUSH (0x123456,0xABCDEF)  ; n = 1\nSET_RATE.F 48000\nCTL_UNIMPL 0x4B 7\n".toList =
      some [0x10000001, 0x00123456, 0x00ABCDEF, 0x4500BB80, 0x4B000007] := by decide

/-- R77's pseudo-events. -/
theorem test_assemble_pseudo :
    assemble "TICK 11290\nPUSHN 1, 1, 2".toList = some [0x31002C1A, 0x30000000, 0x10000001, 1, 2] := by decide

/-- P4: a `CONSUME` placed after the second frame of a `PUSH` of 3 frames, inside it, reads the first frame's words. -/
theorem test_micro_consume_inside_push :
    (match microRun (.pushBegin [⟨0x010000, 0⟩, ⟨0, 0⟩, ⟨0, 0⟩] ::
          (List.replicate 8 .pushNext ++ [.whole (.consume 4)] ++ List.replicate 4 .pushNext ++ [.pushEnd]))
        (.idle (freshActive 16)) with
      | some m => m.st.wptr == 12 && m.st.playing && m.st.rem == 12 &&
          answers (freshActive 16) m.st == [(5, 0x0100), (5, 0), (5, 0), (5, 0), (4, 8)]
      | none => false) = true := by decide

/-- R60: a control request does not run inside a `PUSH`. -/
theorem test_micro_control_waits :
    microRun [.pushBegin [⟨0, 0⟩], .whole (.setAlt 0)] (.idle (freshActive 16)) = none := by decide

/-! ## Witnesses: states and operands that meet the hypotheses of each statement of Obligations.lean together -/

theorem config8_wf : (configOf 8).WF := by constructor <;> decide

/-- `C` = 8, Inactive. -/
def inactive8 : State := State.resetOf (configOf 8)

/-- `C` = 8, Active-Filling. -/
def filling8 : State := freshActive 8

/-- `C` = 8, Active-Playing, a feedback value pending. -/
def playing8 : State :=
  { freshActive 8 with playing := true, wptr := 4, buf := [(0, 1), (3, 2)], pending := true, muted := true }

theorem inactive8_good : GoodState inactive8 where
  cfgWF := config8_wf
  bufWf := by decide
  bufBelow := by decide
  playingActive := by decide
  wptrRange := by decide
  remRange := by decide
  wptrAligned := by decide
  heldReset := fun _ => by unfold HeldReset; decide
  filling := fun h => by cases h
  settings := ⟨.r44100, by unfold SettingsAgree; decide⟩
  sofcntRange := by decide
  pendingActive := by decide
  fbLastRange := by decide
  inTolPlaying := by decide
  tpcRange := by decide

theorem filling8_good : GoodState filling8 where
  cfgWF := config8_wf
  bufWf := by decide
  bufBelow := by decide
  playingActive := by decide
  wptrRange := by decide
  remRange := by decide
  wptrAligned := by decide
  heldReset := fun h => by cases h
  filling := fun _ _ => by unfold FillingFromZero; decide
  settings := ⟨.r44100, by unfold SettingsAgree; decide⟩
  sofcntRange := by decide
  pendingActive := by decide
  fbLastRange := by decide
  inTolPlaying := by decide
  tpcRange := by decide

theorem playing8_good : GoodState playing8 where
  cfgWF := config8_wf
  bufWf := by decide
  bufBelow := by decide
  playingActive := by decide
  wptrRange := by decide
  remRange := by decide
  wptrAligned := by decide
  heldReset := fun h => by cases h
  filling := fun _ h => by cases h
  settings := ⟨.r44100, by unfold SettingsAgree; decide⟩
  sofcntRange := by decide
  pendingActive := by decide
  fbLastRange := by decide
  inTolPlaying := by decide
  tpcRange := by decide

theorem witness_DecodeOfEncodeIsTheEvent : (Instr.push [⟨1, 2⟩]).wf = true := by decide

theorem witness_EncodeOfDecodeRestoresTheWords :
    decode (0x10000001 :: [0xFF000001, 0x00000002, 0x50000000]) = .event (.push [⟨1, 2⟩]) [0x50000000] := by decide

theorem witness_OpcodeRowsNeverOverlap :
    ∃ r ∈ opTable, ∃ q ∈ opTable, r.selects 0x45000000 = true ∧ q.selects 0x45000000 = true :=
  ⟨⟨.setRate, 0x44000000#32, 0xFE000000#32⟩, by decide, ⟨.setRate, 0x44000000#32, 0xFE000000#32⟩, by decide, by decide,
    by decide⟩

/-- A cut payload, one word short of complete; and a complete one. -/
theorem witness_CutPushPayloadIsRefused :
    (loaded (configOf 8) [0x10000001, 7]).trace.drop 0 = 0x10000001 :: [7] ∧ [(7 : Word)].length < 2 * (countField 0x10000001).toNat ∧
    (loaded (configOf 8) [0x10000001, 7, 8]).trace.drop 0 = 0x10000001 :: [7, 8] ∧
    ¬ [(7 : Word), 8].length < 2 * (countField 0x10000001).toNat := by decide

theorem witness_StepRunsTheDecodedEvent :
    decode ((loaded (configOf 8) [0x40000002, 0]).trace.drop (loaded (configOf 8) [0x40000002, 0]).tpc) =
      .event (.setAlt 2) [0] := by decide

/-- The four ends of a step, each met. -/
theorem witness_StepStopsOnlyWhereTheHarnessDoes :
    step (loaded (configOf 8) []) = .fault .endOfTrace ∧
    step { loaded (configOf 8) [] with tpc := 1 } = .fault .tpcBeyondTrace ∧
    step (loaded (configOf 8) [0x60000000]) = .refused (.invalidWord 0x60000000) ∧
    step (loaded (configOf 8) [0x10000001, 7]) = .refused (.truncatedPush 2 1) := ⟨rfl, rfl, rfl, rfl⟩

/-- Every clause at the ends of its range: `d` = 0 and `C - 1`, `k` = 1 and `C - 1`, and exactly `C` outstanding. -/
theorem witness_FillLevelCountsOutstandingSlots :
    playing8.cfg.WF ∧ playing8.wptr.toNat < 8 ∧ rptr playing8 = 0 ∧
    fill { playing8 with wptr := 0 } = 0 ∧ fill { playing8 with wptr := 7 } = 7 ∧
    (rptr { playing8 with rem := 3 } = (4 + 1) % 8 ∧ fill { playing8 with rem := 3 } = 8 - 1) ∧
    (rptr { playing8 with rem := 5 } = (4 + 7) % 8 ∧ fill { playing8 with rem := 5 } = 8 - 7) ∧
    (playing8.wptr.toNat = (4 + 8) % 8 ∧ fill { playing8 with rem := 4 } = 0) := ⟨config8_wf, by decide⟩

theorem witness_BufferIndicesStayInside :
    playing8.cfg.WF ∧ ({ playing8 with wptr := 7 } : State).wptr.toNat = 8 - 1 ∧
    rptr { playing8 with rem := 1 } = 8 - 1 ∧ playing8.buf.below 8 = true := ⟨config8_wf, by decide⟩

theorem witness_PushMovesThePointerAndAnswersTheFill :
    filling8.cfg.WF ∧ filling8.active = true ∧ filling8.wptr.toNat < filling8.cfg.capacity := ⟨config8_wf, by decide⟩

/-- `n` = 3 frames in `C` = 8: frame 1 is the first that no later frame laps, frame 0 is lapped. -/
theorem witness_PushPlacesItsFrames :
    playing8.cfg.WF ∧ playing8.active = true ∧ playing8.wptr.toNat < playing8.cfg.capacity ∧ playing8.buf.wf = true ∧
    ([⟨1, 2⟩, ⟨3, 4⟩, ⟨5, 6⟩] : List Frame)[1]? = some ⟨3, 4⟩ ∧ 4 * 3 ≤ 4 * 1 + playing8.cfg.capacity ∧
    ¬ 4 * 3 ≤ 4 * 0 + playing8.cfg.capacity := ⟨config8_wf, by decide⟩

/-- One frame reaches `HALF` = 4 exactly; no frame does not. -/
theorem witness_PushStartsPlayingAtHalf :
    filling8.cfg.WF ∧ filling8.active = true ∧ filling8.wptr.toNat < filling8.cfg.capacity ∧ filling8.playing = false ∧
    filling8.cfg.half ≤ (fill filling8 + 4 * 1) % filling8.cfg.capacity ∧ ¬ filling8.cfg.half ≤ fill filling8 :=
  ⟨config8_wf, by decide⟩

theorem witness_PushWhileInactiveStoresNothing : inactive8.active = false ∧ GoodState inactive8 :=
  ⟨rfl, inactive8_good⟩

/-- Both clauses: muted while active, and muted while Inactive. -/
theorem witness_MutedPushWritesZerosAndMovesAlike :
    playing8.cfg.WF ∧ playing8.muted = true ∧ playing8.wptr.toNat < playing8.cfg.capacity ∧ playing8.buf.wf = true ∧
    playing8.active = true ∧ ({ inactive8 with muted := true } : State).active = false := ⟨config8_wf, by decide⟩

theorem witness_FillCountsPushedFramesModuloCapacity :
    filling8.cfg.WF ∧ filling8.active = true ∧ filling8.wptr = 0 ∧ filling8.rem.toNat = filling8.cfg.capacity :=
  ⟨config8_wf, by decide⟩

/-- At both ends of the range of `REM`. -/
theorem witness_ConsumeAnswersTheNextWords :
    playing8.cfg.WF ∧ playing8.playing = true ∧ (1 ≤ playing8.rem.toNat ∧ playing8.rem.toNat = playing8.cfg.capacity) ∧
    ({ playing8 with rem := 1 } : State).rem.toNat = 1 := ⟨config8_wf, by decide⟩

theorem witness_ConsumeOfSumSplits : (3 : Imm).toNat + (4 : Imm).toNat < 2 ^ 24 := by decide

/-- A consumer that laps by one word. -/
theorem witness_ReadsChangeNothingAndResetsAreIdempotent :
    playing8.cfg.WF ∧ playing8.playing = true ∧ 1 ≤ playing8.rem.toNat ∧ playing8.rem.toNat ≤ playing8.cfg.capacity ∧
    0 + playing8.cfg.capacity < (9 : Imm).toNat ∧ (∃ t, exec (.consume 9) playing8 = .next t) ∧
    (∃ t, exec (.regRead 0x18) playing8 = .next t) := ⟨config8_wf, by decide, by decide, by decide, by decide, ⟨_, exec_consume_playing rfl 9⟩, ⟨_, rfl⟩⟩

theorem witness_BufResetZeroesBufferAndPointers : playing8.cfg.WF := config8_wf

theorem witness_ThreeByteValuesAreLittleEndian :
    (⟨.fb, 722861⟩ : Response).kind = .fb ∧ ([1, 2] : List Byte).length ≠ 3 := by decide

/-- Both cases of `diff`, and both edges of the tolerance (`TOL` = 16 with `C` = 3072: S2 to S5). -/
theorem witness_SofCorrectsTowardHalf :
    (configOf 3072).WF ∧ (ticking 1552 3072).active = true ∧ (ticking 1552 3072).playing = true ∧
    (freshActive 3072).playing = false ∧ fill (ticking 1552 3072) = 1536 + 16 ∧ fill (ticking 1520 3072) + 16 = 1536 ∧
    fill (ticking 1553 3072) = 1536 + 17 := ⟨by constructor <;> decide, by decide⟩

/-- A closing tick and one that is not. -/
theorem witness_SofAccumulatesAndClosesWindows :
    playing8.active = true ∧ (3 + 1) % 2 ^ 32 = 2 ^ ({ playing8 with sofcnt := 3 } : State).shift.toNat ∧
    ¬ (playing8.sofcnt.toNat + 1) % 2 ^ 32 = 2 ^ playing8.shift.toNat := by decide

/-- Every clause: under, at and over half-full, and both ends. -/
theorem witness_CorrectionPushesTowardHalf :
    playing8.cfg.WF ∧ playing8.active = true ∧ fill playing8 = playing8.cfg.half ∧
    fill { playing8 with wptr := 0 } = 0 ∧ fill { playing8 with wptr := 7 } = playing8.cfg.capacity - 1 ∧
    filling8.playing = false := ⟨config8_wf, by decide⟩

/-- A run with every kind of event between its ticks, of which the last closes the window; a tick of it sets `PENDING`, and a
transmission clears it. -/
theorem witness_EveryWindowClosesOnItsLastTick :
    filling8.cfg.WF ∧ filling8.active = true ∧ filling8.shift.toNat = filling8.cfg.shiftCfg ∧ filling8.sofcnt = 0 ∧
    filling8.pending = false ∧
    ([.sof, .capture 5, .push [⟨1, 2⟩], .sof, .consume 1, .setAlt 1, .sof, .setRate false 48000, .fbTx, .fbIncomplete,
      .sof] : List Instr).count .sof = 2 ^ filling8.cfg.shiftCfg := ⟨config8_wf, by decide⟩

/-- The clauses on which event sets `PENDING` and which clears it. -/
theorem witness_EveryWindow_clauses :
    (∃ u, exec .sof { filling8 with sofcnt := 3 } = .next u ∧ filling8.pending = false ∧ u.pending = true) ∧
    (∃ u, exec .fbTx { filling8 with pending := true } = .next u ∧ u.pending = false) := ⟨⟨_, rfl, rfl, rfl⟩, ⟨_, rfl, rfl⟩⟩

theorem witness_WindowMeasuresTheSumOfItsCaptures :
    filling8.cfg.WF ∧ filling8.active = true ∧ filling8.shift.toNat = filling8.cfg.shiftCfg ∧ filling8.sofcnt = 0 ∧
    filling8.accum = 0 ∧ ([36140, 36145, 36143, 36144] : List Imm).length = 2 ^ filling8.cfg.shiftCfg :=
  ⟨config8_wf, by decide⟩

theorem capture_bound : ∀ v ∈ ([1, 2, 3, 0xFFFFFF] : List Imm), NoWrapCapture filling8.cfg v := by
  intro v _
  have := v.isLt
  show v.toNat ≤ (2 ^ 32 - 1) / ((2 ^ 2 + 1) * 2 ^ 2)
  omega

/-- The largest capture meets the bound at `SHIFT_CFG` = 3. -/
theorem witness_BoundedCapturesNeverWrap :
    filling8.cfg.WF ∧ filling8.active = true ∧ filling8.shift.toNat = filling8.cfg.shiftCfg ∧ filling8.sofcnt = 0 ∧
    filling8.accum = 0 ∧ ([1, 2, 3, 0xFFFFFF] : List Imm).length = 2 ^ filling8.cfg.shiftCfg ∧
    (∀ v ∈ ([1, 2, 3, 0xFFFFFF] : List Imm), NoWrapCapture filling8.cfg v) ∧
    ({ configOf 8 with shiftCfg := 3 } : Config).shiftCfg ≤ 3 :=
  ⟨config8_wf, by decide, by decide, by decide, by decide, by decide, capture_bound, by decide⟩

theorem witness_FeedbackValueIsTheClampedSum : GoodState playing8 := playing8_good

theorem witness_FbTxSendsWhatIsPending : playing8.pending = true ∧ filling8.pending = false := by decide

theorem witness_FbIncompleteFlushesAndResends : filling8.active = true ∧ inactive8.active = false := by decide

theorem witness_FbResetRestoresTheDefaults : playing8.cfg.WF ∧ playing8.rate.toNat = rateHz .r44100 :=
  ⟨config8_wf, by decide⟩

theorem witness_DeactivationResetsEverythingItOwns :
    playing8.cfg.WF ∧ playing8.rate.toNat = rateHz .r44100 ∧ playing8.active = true ∧
    ∃ u, exec (.setAlt 0) playing8 = .next u ∧ u.active = false := ⟨config8_wf, by decide, by decide, _, rfl, rfl⟩

theorem witness_SetAltActivatesOnce :
    inactive8.active = false ∧ inactive8.cfg.WF ∧ inactive8.rate.toNat = rateHz .r44100 ∧ playing8.active = true ∧
    2 ≤ (2 : Imm).toNat := ⟨rfl, config8_wf, by decide⟩

theorem witness_SetMuteSetsTheFlag : (0 : Imm).toNat ≤ 1 ∧ (1 : Imm).toNat ≤ 1 ∧ 2 ≤ (2 : Imm).toNat := by decide

/-- One request for each check and one that commits. -/
theorem witness_SetRateChecksInOrder :
    inactive8.cfg.WF ∧ ((44101 : Imm).toNat ≠ 44100 ∧ (44101 : Imm).toNat ≠ 48000 ∧ (44101 : Imm).toNat ≠ 88200 ∧
      (44101 : Imm).toNat ≠ 96000) ∧
    (44100 : Imm).toNat = rateHz .r44100 ∧ (44100 : Imm).toNat = inactive8.rate.toNat ∧
    (48000 : Imm).toNat = rateHz .r48000 ∧ (48000 : Imm).toNat ≠ inactive8.rate.toNat ∧ playing8.active = true ∧
    inactive8.active = false := ⟨config8_wf, by decide⟩

/-- The last offset, the one after it, and an unaligned one. -/
theorem witness_RegReadAnswersAtTheWindowOffsets :
    ((0x40 : Imm).toNat % 4 = 0 ∧ (0x40 : Imm).toNat ≤ 0x40) ∧
    ¬ ((0x44 : Imm).toNat % 4 = 0 ∧ (0x44 : Imm).toNat ≤ 0x40) ∧
    ¬ ((0x02 : Imm).toNat % 4 = 0 ∧ (0x02 : Imm).toNat ≤ 0x40) := by decide

theorem witness_RegReadValuesFollowTheWindow :
    ((0x18#24, 4#32) : Imm × Word) ∈ [((0x18#24, BitVec.ofNat 32 (fill playing8)) : Imm × Word)] := by decide

theorem witness_StatusRegistersHoldTheirFields :
    inactive8.rate.toNat = rateHz .r44100 ∧ ({ inactive8 with rate := 96000 } : State).rate.toNat = rateHz .r96000 := by
  decide

/-- Both kinds of word, at the ends of the range. -/
theorem witness_BadAndUnimplementedRequestsStall :
    (0x48FFFFFF : Word).toNat / 2 ^ 24 = 0x48 ∧ 0x49 ≤ (0x49000000 : Word).toNat / 2 ^ 24 ∧
    (0x4FFFFFFF : Word).toNat / 2 ^ 24 ≤ 0x4F := by decide

theorem witness_IdleEventsDoNothing : filling8.playing = false ∧ inactive8.active = false := by decide

theorem witness_StalledEventChangesNothingElse :
    ∃ t, exec (.setAlt 2) (loaded (configOf 8) [0x40000002]) = .next t ∧
      (⟨.stall, 2⟩ : Response) ∈ t.out.drop (loaded (configOf 8) [0x40000002]).out.length ∧
      decode ((loaded (configOf 8) [0x40000002]).trace.drop (loaded (configOf 8) [0x40000002]).tpc) =
        .event (.setAlt 2) [] := ⟨_, rfl, by decide, by decide⟩

theorem witness_EveryHostRequestIsAnsweredOnce : sourceOf (.setRate false 44100) = some .controlRequest := by decide

/-- All three stream states. -/
theorem witness_StreamStateFollowsTheTable :
    (GoodState inactive8 ∧ streamState inactive8 = some .inactive) ∧
    (GoodState filling8 ∧ streamState filling8 = some .activeFilling) ∧
    (GoodState playing8 ∧ streamState playing8 = some .activePlaying) :=
  ⟨⟨inactive8_good, rfl⟩, ⟨filling8_good, rfl⟩, ⟨playing8_good, rfl⟩⟩

/-- Each of the four movements happens. -/
theorem witness_OnlyTheirEventsMoveActiveAndPlaying :
    Reachable (loaded (configOf 8) []) ∧
    (∃ t, exec (.setAlt 1) inactive8 = .next t ∧ inactive8.active = false ∧ t.active = true) ∧
    (∃ t, exec (.setAlt 0) filling8 = .next t ∧ filling8.active = true ∧ t.active = false) ∧
    (∃ t, exec (.push [⟨1, 2⟩]) filling8 = .next t ∧ filling8.playing = false ∧ t.playing = true) ∧
    (∃ t, exec (.setAlt 0) playing8 = .next t ∧ (playing8.playing = true → playing8.active = true) ∧
      playing8.playing = true ∧ t.playing = false) :=
  ⟨.start _ _ config8_wf, ⟨_, rfl, rfl, rfl⟩, ⟨_, rfl, rfl, rfl⟩, ⟨_, rfl, rfl, by decide⟩, ⟨_, rfl, fun _ => rfl, rfl, rfl⟩⟩

theorem witness_EventsWriteOnlyWhatTheirAgentOwns : mayWrite .rem (.push []) = false ∧ mayWrite .rem (.consume 1) = true := by
  decide

theorem witness_IndicatorsInfluenceNothing : ∀ off, Instr.sof ≠ .regRead off := by intro off h; cases h

/-- Every source whose enable can be off is off in Inactive. -/
theorem witness_DisabledSourcesAreIgnored :
    (sourceOf (.push []) = some .usbDataReceived ∧ sourceEnabled inactive8 .usbDataReceived = false) ∧
    (sourceOf (.consume 1) = some .engineWordRequest ∧ sourceEnabled inactive8 .engineWordRequest = false) ∧
    (sourceOf .sof = some .startOfFrame ∧ sourceEnabled inactive8 .startOfFrame = false) ∧
    (sourceOf .fbTx = some .feedbackService ∧ sourceEnabled inactive8 .feedbackService = false) ∧
    (sourceOf .fbIncomplete = some .incompleteTransfer ∧ sourceEnabled inactive8 .incompleteTransfer = false) := by decide

theorem witness_PowerOnStateMeetsTheInvariant : (configOf 8).WF := config8_wf

theorem witness_EveryStepKeepsTheInvariant :
    GoodState { playing8 with trace := [0x20000009] } ∧
    ∃ t, step { playing8 with trace := [0x20000009] } = .next t :=
  ⟨{ playing8_good with heldReset := (fun h => by cases h), filling := (fun _ h => by cases h),
                        settings := playing8_good.settings, tpcRange := (by decide) }, _, rfl⟩

theorem witness_ResetLeavesTheTableOfR45 :
    (configOf 8).WF ∧ playing8.cfg.WF ∧ playing8.rate.toNat = rateHz playing8.cfg.rateInit :=
  ⟨config8_wf, config8_wf, by decide⟩

/-- A good state whose next step sends, and a run that sends: activation, then a notification. -/
theorem witness_EveryFeedbackSentIsInTheWindow :
    (GoodState { filling8 with trace := [0x51000000] } ∧
      ∃ t r, step { filling8 with trace := [0x51000000] } = .next t ∧ r ∈ t.out.drop filling8.out.length ∧ r.kind = .fb) ∧
    ∃ s t r, Reachable s ∧ step s = .next t ∧ r ∈ t.out.drop s.out.length ∧ r.kind = .fb :=
  ⟨⟨{ filling8_good with tpcRange := by decide }, _, ⟨.fb, 722861⟩, rfl, by decide, rfl⟩,
    _, _, ⟨.fb, 722861⟩, .next _ _ (.start (configOf 8) [0x40000001, 0x51000000] config8_wf) rfl, rfl, by decide, rfl⟩

/-- Active and Inactive; and between the two readings of a tick, and of a derived register, a word consumed and a slot
pushed. -/
theorem witness_MicroStepsAreTheEventOrMixTwoReads :
    filling8.active = true ∧ inactive8.active = false ∧
    ((MicroState.idle playing8).st.cfg.WF ∧ (MicroState.idle playing8).st.active = true ∧
      (∀ a ∈ ([.whole (.consume 1), .pushBegin [⟨1, 2⟩], .pushNext] : List Micro), a ≠ .tickEnd ∧ a ≠ .lookEnd) ∧
      (microRun [.tickRead, .whole (.consume 1), .pushBegin [⟨1, 2⟩], .pushNext] (.idle playing8)).isSome = true ∧
      (microRun [.lookRead 0x18, .whole (.consume 1), .pushBegin [⟨1, 2⟩], .pushNext] (.idle playing8)).isSome = true) :=
  ⟨rfl, rfl, config8_wf, by decide⟩

theorem witness_ReadersInsideAPushDoNotChangeIt :
    filling8.active = true ∧ (∃ t, exec (.push [⟨1, 2⟩]) filling8 = .next t) ∧
    (∃ m, microRun (.pushBegin [⟨1, 2⟩] :: ([.pushNext, .tickRead, .pushNext, .pushNext, .pushNext, .whole (.consume 1),
      .tickEnd] ++ [.pushEnd])) (.idle filling8) = some m) ∧ isReader (.consume 1) = true := ⟨rfl, ⟨_, rfl⟩, ⟨_, rfl⟩, rfl⟩

/-- Each clause: a `PUSH`, an `SOF` and a derived read under way, an event each excludes, and one that runs. -/
theorem witness_PushAndTickExcludeControlAndTheirOwnAgent :
    (agentOf (.setAlt 0) = some .controller ∧ (∀ off, Instr.setAlt 0 ≠ .regRead off)) ∧
    agentOf (.push []) = some .producer ∧ agentOf (.capture 7) = some .ticker ∧ agentOf .fbTx = some .transport ∧
    agentOf (.consume 1) = some .consumer ∧
    ({ MicroState.idle filling8 with push := some ⟨[1]⟩ } : MicroState).push.isSome = true ∧
    ({ MicroState.idle filling8 with tick := some 8 } : MicroState).tick.isSome = true ∧
    ({ MicroState.idle filling8 with tick := some 8 } : MicroState).look = none ∧
    ({ MicroState.idle filling8 with look := some (.bufFill, 8) } : MicroState).look.isSome = true ∧
    ({ MicroState.idle filling8 with look := some (.bufFill, 8) } : MicroState).tick = none :=
  ⟨⟨rfl, fun _ h => by cases h⟩, by decide⟩

/-- A `CAPTURE` does not run between the two reads of an `SOF`, a window read does. -/
theorem test_captureInsideTick :
    microStep (.whole (.capture 7)) { MicroState.idle filling8 with tick := some 8 } = none ∧
    (microStep (.whole (.regRead 4)) { MicroState.idle filling8 with tick := some 8 }).isSome = true := by decide

/-- A payload of one frame for the `PUSH` clause. -/
theorem witness_DecodeVectorsOfTheSpec : ([0x00123456, 0xFFABCDEF] : List Word).length = 2 * (1 : BitVec 8).toNat := by decide

theorem witness_ByteAdapterMakesLittleEndianFrames :
    (framesOfBytes [0x56, 0x34, 0x12, 0xEF, 0xCD, 0xAB, 0x01, 0x00, 0x00, 0xFF, 0xFF, 0xFF, 0x99])[1]? =
      some ⟨0x000001#24, 0xFFFFFF#24⟩ := by decide

theorem witness_GetsAnswerTheCurrentValue : (0 : Imm) = 0 ∧ (0xFFFFFF#24 : Imm) ≠ 0 := by decide

end Sys2Proof.Tests
end

section
/-! Proofs of the state family (10_state.md): the fill level as a count of outstanding slots (R28). -/

namespace Sys2Proof.Machine

/-- A producer `d` slots ahead of the consumer is seen as `d` modulo `C` (R28). -/
theorem fill_eq_mod_of_wptr_ahead {s : State} (h : s.cfg.WF) {d : Nat}
    (hd : s.wptr.toNat = (rptr s + d) % s.cfg.capacity) : fill s = d % s.cfg.capacity := by
  zify
  calc (fill s : Int)
      _ = ((s.wptr.toNat : Int) - rptr s) % s.cfg.capacity := fill_cast h
      _ = (((rptr s : Int) + d) % s.cfg.capacity - rptr s) % s.cfg.capacity := by rw [hd]; push_cast; rfl
      _ = d % s.cfg.capacity := by rw [Int.emod_sub_emod, add_sub_cancel_left]

/-- A consumer `k` slots ahead of the producer is a producer `C - k` slots ahead of the consumer. -/
theorem wptr_ahead_of_rptr_ahead {s : State} (hw : s.wptr.toNat < s.cfg.capacity) {k : Nat} (hk : k < s.cfg.capacity)
    (hr : rptr s = (s.wptr.toNat + k) % s.cfg.capacity) :
    s.wptr.toNat = (rptr s + (s.cfg.capacity - k)) % s.cfg.capacity := by
  rw [hr, Nat.mod_add_mod, add_assoc, Nat.add_sub_cancel' hk.le, Nat.add_mod_right, Nat.mod_eq_of_lt hw]

/-- Settles O9: the clauses for `d`, `C` and `C - k` outstanding slots are one reduction modulo `C`. -/
theorem fillLevelCountsOutstandingSlots : Obligations.FillLevelCountsOutstandingSlots := by
  intro s h hw
  refine ⟨fill_lt h, fill_cast h, fun d hd ha => ?fewer, fun ha => ?exactlyC, fun k hk0 hk hr => ?overtaken⟩
  case fewer => rw [fill_eq_mod_of_wptr_ahead h ha, Nat.mod_eq_of_lt hd]
  case exactlyC => rw [fill_eq_mod_of_wptr_ahead h ha, Nat.mod_self]
  case overtaken =>
    rw [fill_eq_mod_of_wptr_ahead h (wptr_ahead_of_rptr_ahead hw hk hr), Nat.mod_eq_of_lt (by omega)]

end Sys2Proof.Machine
end

section
/-! Proofs of the memory family (20_memory.md): indices inside the buffer (R52), what reads and resets leave unchanged
(R55), and 3-byte values in wire order (R56). -/

namespace Sys2Proof.Machine

/-! ## Indices stay inside (R52) -/

/-- `WPTR` goes from `C - 1` to 0 (R52). -/
theorem nextWptr_toNat_of_last {s : State} (h : s.cfg.WF) (hw : s.wptr.toNat = s.cfg.capacity - 1) :
    (nextWptr s).toNat = 0 := by
  rw [nextWptr_toNat h, hw, Nat.sub_add_cancel h.pos, Nat.mod_self]

/-- `RPTR` goes from `C - 1` to 0 (R52). -/
theorem rptr_consumeOne_of_last {s : State} (h : s.cfg.WF) (h1 : 1 ≤ s.rem.toNat) (h2 : s.rem.toNat ≤ s.cfg.capacity)
    (hr : rptr s = s.cfg.capacity - 1) : rptr (consumeOne s) = 0 := by
  rw [rptr_consumeOne h h1 h2, hr, Nat.sub_add_cancel h.pos, Nat.mod_self]

/-- No event lists a slot outside the buffer: only a `PUSH` writes words, at reduced indices, and only a deactivation
clears them (R29, R52). -/
theorem effect_buf_below {i : Instr} {s t : State} (e : Effect i s t) (h : s.cfg.WF)
    (hb : s.buf.below s.cfg.capacity = true) : t.buf.below s.cfg.capacity = true := by
  cases e with
  | push fs => rw [answerFill_buf, pushFrames_buf]; exact pushSlots_below h hb _
  | consume => rw [consumeWords_frame]; exact hb
  | sof => rw [sofTick_frame]; exact hb
  | idle => rfl
  | powerLoss => rfl
  | _ => exact hb

/-- Settles O10: both indices are residues modulo `C`, and every event is one of the listed effects. -/
theorem bufferIndicesStayInside : Obligations.BufferIndicesStayInside := by
  intro s h
  refine ⟨writeIndex_lt h, rptr_lt h, fun w hw => nextWptr_toNat_of_last h hw,
    fun h1 h2 hr => rptr_consumeOne_of_last h h1 h2 hr, fun i => ?_⟩
  obtain ⟨t, ht, e⟩ := exec_effect i s
  obtain ⟨hcfg, -⟩ := effect_frame e
  exact ⟨t, ht, fun hb => hcfg ▸ effect_buf_below e h hb⟩

/-! ## Reads change nothing, resets are idempotent (R55) -/

/-- A consumer read leaves every slot as it was, playing or stopped (R55). -/
theorem exec_consume_buf {s t : State} {k : Imm} (h : exec (.consume k) s = .next t) : t.buf = s.buf := by
  cases hp : s.playing with
  | false => rw [exec_consume_stopped hp] at h; cases h; rfl
  | true => rw [exec_consume_playing hp] at h; cases h; rw [consumeWords_frame]

/-- The `j`-th answer is the word `j` slots after `RPTR`, modulo `C` (R92). -/
theorem consumeWords_out_getElem? {s : State} (h : s.cfg.WF) (h1 : 1 ≤ s.rem.toNat) (h2 : s.rem.toNat ≤ s.cfg.capacity)
    {j k : Nat} (hj : j < k) :
    (consumeWords k s).out[s.out.length + j]? =
      some ⟨.word, (s.buf.read ((rptr s + j) % s.cfg.capacity)).setWidth 32⟩ := by
  rw [consumeWords_out h h1 h2, List.getElem?_append_right (Nat.le_add_right _ _), Nat.add_sub_cancel_left,
    List.getElem?_map, List.getElem?_range hj, Option.map_some]

/-- A consumer that laps is answered the same words again: nothing has drained them (R55). -/
theorem consumeWords_out_lap {s : State} (h : s.cfg.WF) (h1 : 1 ≤ s.rem.toNat) (h2 : s.rem.toNat ≤ s.cfg.capacity)
    {j k : Nat} (hj : j + s.cfg.capacity < k) :
    (consumeWords k s).out[s.out.length + j + s.cfg.capacity]? = (consumeWords k s).out[s.out.length + j]? := by
  rw [Nat.add_assoc, consumeWords_out_getElem? h h1 h2 hj, consumeWords_out_getElem? h h1 h2 (by omega), ← Nat.add_assoc,
    Nat.add_mod_right]

/-- A window read, answered or rejected, changes the log only (R55, R128). -/
theorem exec_regRead_frame {s t : State} {off : Imm} (h : exec (.regRead off) s = .next t) :
    t = { s with out := t.out } := by
  cases hr : windowReg off.toNat with
  | some r => rw [exec_regRead_some hr] at h; cases h; rfl
  | none => rw [exec_regRead_none hr] at h; cases h; rfl

/-- A good state in which both `CONSUME` and `PUSH` act: the reset state, active and playing. -/
def playingFromReset : State := { State.reset with active := true, playing := true }

theorem playingFromReset_good : GoodState playingFromReset := by
  constructor
  case cfgWF => constructor <;> decide
  case heldReset => intro h; cases h
  case filling => intro _ h; cases h
  case settings => exact ⟨.r44100, by unfold SettingsAgree; decide⟩
  all_goals decide

/-- One word and one word more: `REM` moves both times. -/
theorem consume_not_idempotent : ∃ s k t u, GoodState s ∧ exec (.consume k) s = .next t ∧
    exec (.consume k) t = .next u ∧ t.rem ≠ s.rem ∧ u.rem ≠ t.rem :=
  ⟨playingFromReset, 1, _, _, playingFromReset_good, rfl, rfl, by decide, by decide⟩

/-- One frame and the same frame again: `WPTR` moves both times. -/
theorem push_not_idempotent : ∃ s fs t u, GoodState s ∧ exec (.push fs) s = .next t ∧
    exec (.push fs) t = .next u ∧ t.wptr ≠ s.wptr ∧ u.wptr ≠ t.wptr :=
  ⟨playingFromReset, [⟨1, 2⟩], _, _, playingFromReset_good, rfl, rfl, by decide, by decide⟩

/-- Settles O20. The three resets write values of the configuration and of `RATE`, which they keep, so each is idempotent by
computation. -/
theorem readsChangeNothingAndResetsAreIdempotent : Obligations.ReadsChangeNothingAndResetsAreIdempotent := by
  refine ⟨fun _ _ _ => exec_consume_buf, fun s k t j h hp h1 h2 ht hj => ?lap, fun _ _ _ => exec_regRead_frame,
    consume_not_idempotent, push_not_idempotent, fun _ => ⟨rfl, rfl, rfl⟩⟩
  case lap =>
    rw [exec_consume_playing hp] at ht
    cases ht
    exact consumeWords_out_lap h h1 h2 hj

/-! ## Three bytes, least significant first (R56) -/

/-- The value of three wire bytes (R56). -/
theorem le24_toNat (b0 b1 b2 : Byte) : (le24 b0 b1 b2).toNat = b0.toNat + 256 * b1.toNat + 65536 * b2.toNat := by
  have h0 := b0.isLt
  have h1 := b1.isLt
  rw [le24, BitVec.toNat_append, BitVec.toNat_append, ← Nat.shiftLeft_add_eq_or_of_lt h1,
    ← Nat.shiftLeft_add_eq_or_of_lt h0, Nat.shiftLeft_eq, Nat.shiftLeft_eq]
  omega

/-- The byte of a word at bit `start`, as a quotient and a remainder. -/
theorem extractByte_toNat (v : Word) (start : Nat) : (v.extractLsb' start 8 : Byte).toNat = v.toNat / 2 ^ start % 256 := by
  rw [BitVec.extractLsb'_toNat, Nat.shiftRight_eq_div_pow]

/-- A request of any other length is a malformed one (R130). -/
theorem rateRequest_other_length (clkfail : Bool) {bytes : List Byte} (h : bytes.length ≠ 3) :
    rateRequest clkfail bytes = .ctlBad 0 := by
  unfold rateRequest
  split
  · exact absurd rfl h
  · rfl

/-- Settles O24: the wire bytes are the base-256 digits, and `le24` puts them together again. -/
theorem threeByteValuesAreLittleEndian : Obligations.ThreeByteValuesAreLittleEndian := by
  refine ⟨fun r hr => ⟨_, _, _, if_pos hr, ?_, extractByte_toNat r.val 8, extractByte_toNat r.val 16⟩,
    fun _ b0 b1 b2 => ⟨_, rfl, le24_toNat b0 b1 b2⟩,
    fun clkfail _ h => ⟨0, rateRequest_other_length clkfail h⟩⟩
  rw [extractByte_toNat, Nat.pow_zero, Nat.div_one]

end Sys2Proof.Machine
end

section
/-! Proofs of the feedback family (41_feedback_ops.md): the sign and the range of the correction, and what of the drift a
tick shows (R108). -/

namespace Sys2Proof.Machine

/-! ## Sign and range of the correction (R108) -/

section
variable {c : Config} (h : c.WF) {diff : Nat}
include h

/-- Under-filled: the host should send faster. -/
theorem corrOf_pos_of_lt_half (hd : diff < c.half) : 0 < (corrOf c diff).toInt := by
  have hC := half_double h
  have hs := h.scalePos
  rw [corrOf_toInt h (by omega)]
  exact Int.mul_pos (by omega) (by omega)

theorem corrOf_half : (corrOf c c.half).toInt = 0 := by
  have hC := half_double h
  have hpos := h.pos
  rw [corrOf_toInt h (by omega), Int.sub_self, Int.zero_mul]

/-- Over-filled: the host should send slower. -/
theorem corrOf_neg_of_half_lt (hd : c.half < diff) (hdC : diff < c.capacity) : (corrOf c diff).toInt < 0 := by
  have hs := h.scalePos
  rw [corrOf_toInt h hdC]
  exact Int.mul_neg_of_neg_of_pos (by omega) (by omega)

/-- The lower end, an all but full buffer. -/
theorem corrOf_last : (corrOf c (c.capacity - 1)).toInt = -(((c.half : Int) - 1) * c.scale) := by
  have hC := half_double h
  have hpos := h.pos
  have e : (c.half : Int) - (c.capacity - 1 : Nat) = -((c.half : Int) - 1) := by omega
  rw [corrOf_toInt h (by omega), e, Int.neg_mul]

/-- The upper end, an empty buffer. -/
theorem corrOf_zero : (corrOf c 0).toInt = (c.half : Int) * c.scale := by
  rw [corrOf_toInt h h.pos, Nat.cast_zero, Int.sub_zero]

/-- The correction falls as the buffer fills. -/
theorem corrOf_antitone {diff' : Nat} (hle : diff ≤ diff') (hd : diff' < c.capacity) :
    (corrOf c diff').toInt ≤ (corrOf c diff).toInt := by
  rw [corrOf_toInt h hd, corrOf_toInt h (by omega)]
  exact Int.mul_le_mul_of_nonneg_right (by omega) (by omega)

/-- The range lies between the values at the two ends, since the correction is antitone. -/
theorem corrOf_range (hd : diff < c.capacity) :
    -(((c.half : Int) - 1) * c.scale) ≤ (corrOf c diff).toInt ∧ (corrOf c diff).toInt ≤ (c.half : Int) * c.scale := by
  rw [← corrOf_last h, ← corrOf_zero h]
  exact ⟨corrOf_antitone h (by omega) (by omega), corrOf_antitone h (by omega) hd⟩

end

/-! ## Drift shows in `CORR` and `IN_TOL` only (R108) -/

/-- A tick answers nothing, however far the fill level is from half. -/
theorem sofTick_out (rem wp : Word) (s : State) : (sofTick rem wp s).out = s.out := by
  rw [sofTick_frame]

/-- The readings and `WPTR` do not reach the registers of the averaging window: whether the window closes, and on what, is
decided by the capture and the counters (R101 steps 3 and 4). -/
theorem sofTick_window_registers_eq (rem wp rem' wp' w : Word) (s : State) :
    (sofTick rem' wp' { s with wptr := w }).curval = (sofTick rem wp s).curval ∧
    (sofTick rem' wp' { s with wptr := w }).accum = (sofTick rem wp s).accum ∧
    (sofTick rem' wp' { s with wptr := w }).sofcnt = (sofTick rem wp s).sofcnt ∧
    (sofTick rem' wp' { s with wptr := w }).pending = (sofTick rem wp s).pending := by
  refine ⟨?curval, ?accum, ?sofcnt, ?pending⟩
  case curval => simp only [sofTick, sofIndicate_curval, sofClose_curval]; rfl
  case accum => simp only [sofTick, sofIndicate_accum, sofClose_accum]; rfl
  case sofcnt => simp only [sofTick, sofIndicate_sofcnt, sofClose_sofcnt]; rfl
  case pending => simp only [sofTick, sofIndicate_pending, sofClose_pending]; rfl

/-- Two ticks of states that differ in `WPTR` only, whatever they read, differ in `WPTR`, `CORR` and `IN_TOL` only. -/
theorem sofTick_eq_up_to_corr_inTol (rem wp rem' wp' w : Word) (s : State) :
    { sofTick rem' wp' { s with wptr := w } with
      wptr := s.wptr, corr := (sofTick rem wp s).corr, inTol := (sofTick rem wp s).inTol } = sofTick rem wp s := by
  obtain ⟨hcurval, haccum, hsofcnt, hpending⟩ := sofTick_window_registers_eq rem wp rem' wp' w s
  rw [sofTick_frame rem' wp' { s with wptr := w }, hcurval, haccum, hsofcnt, hpending]
  exact (sofTick_frame rem wp s).symm

/-- Settles O28: the tick's `CORR` is `corrOf` at `diff`, which is antitone with the stated values at 0, `HALF` and `C - 1`;
and a tick with any other `WPTR` is the same tick but for `CORR` and `IN_TOL`. -/
theorem correctionPushesTowardHalf : Obligations.CorrectionPushesTowardHalf := by
  intro s diff h ha hdiff
  have hd : diffOf s.cfg s.playing s.rem s.wptr = diff := hdiff.symm
  have hlt : diff < s.cfg.capacity := hd ▸ diffOf_lt h _ _ _
  obtain ⟨hlow, hhigh⟩ := corrOf_range h hlt
  refine ⟨_, exec_sof_active ha, ?_⟩
  rw [sofTick_corr, hd]
  refine ⟨corrOf_pos_of_lt_half h, ?half, fun hgt => corrOf_neg_of_half_lt h hgt hlt, hlow, hhigh, ?last, ?empty,
    sofTick_out _ _ s, fun wp => ⟨_, exec_sof_active ha, ?drift⟩⟩
  case half => rintro rfl; exact corrOf_half h
  case last => rintro rfl; exact corrOf_last h
  case empty => rintro rfl; exact corrOf_zero h
  case drift => rw [← hd, ← sofTick_corr]; exact sofTick_eq_up_to_corr_inTol ..

end Sys2Proof.Machine
end

section
/-! Proofs of the control family (42_control_ops.md): the requests that only stall (R130, R131), and the stream state
machine (R132). -/

namespace Sys2Proof

/-! ## Malformed and unimplemented requests (R130, R131) -/

/-- Opcode 0x48 selects the row of R130: every row before it has another range of values. -/
theorem decodeOp_ctlBad {ev : Word} (h : ev.toNat / 2 ^ 24 = 0x48) : decodeOp ev = some .ctlBad := by
  rw [decodeOp_eq]
  simp (disch := omega) only [opOfValue, if_neg, if_pos]

/-- Opcodes 0x49 to 0x4F select the rows of R131, which hold one opcode, two and four of them. -/
theorem decodeOp_ctlUnimpl {ev : Word} (hlo : 0x49 ≤ ev.toNat / 2 ^ 24) (hhi : ev.toNat / 2 ^ 24 ≤ 0x4F) :
    decodeOp ev = some .ctlUnimpl49 ∨ decodeOp ev = some .ctlUnimpl4A ∨ decodeOp ev = some .ctlUnimpl4C := by
  have hrow : ev.toNat / 2 ^ 24 = 0x49 ∨ ev.toNat / 2 ^ 25 = 0x25 ∨ ev.toNat / 2 ^ 26 = 0x13 := by omega
  rw [decodeOp_eq]
  rcases hrow with h | h | h <;> simp (disch := omega) [opOfValue, if_neg, if_pos]

theorem decode_ctlBad {ev : Word} (h : ev.toNat / 2 ^ 24 = 0x48) : decode [ev] = .event (.ctlBad (immField ev)) [] := by
  simp only [decode, decodeOp_ctlBad h]

theorem decode_ctlUnimpl {ev : Word} (hlo : 0x49 ≤ ev.toNat / 2 ^ 24) (hhi : ev.toNat / 2 ^ 24 ≤ 0x4F) :
    decode [ev] = .event (.ctlUnimpl49 (immField ev)) [] ∨
    decode [ev] = .event (.ctlUnimpl4A (ev.extractLsb' 24 1) (immField ev)) [] ∨
    decode [ev] = .event (.ctlUnimpl4C (ev.extractLsb' 24 2) (immField ev)) [] := by
  rcases decodeOp_ctlUnimpl hlo hhi with h | h | h <;> simp [decode, h]

end Sys2Proof

namespace Sys2Proof.Machine

/-- Settles O44: the four meanings raise one stall whatever their operands, and each opcode's range of words is a row's. -/
theorem badAndUnimplementedRequestsStall : Obligations.BadAndUnimplementedRequestsStall := by
  refine ⟨fun s x a b => ⟨rfl, rfl, rfl, rfl⟩, fun ev h => ⟨decode_ctlBad h, rfl⟩, fun ev hlo hhi => ?unimplemented⟩
  case unimplemented =>
    rcases decode_ctlUnimpl hlo hhi with h | h | h
    · exact ⟨_, h, rfl, .inl ⟨_, rfl⟩⟩
    · exact ⟨_, h, rfl, .inr (.inl ⟨_, _, rfl⟩)⟩
    · exact ⟨_, h, rfl, .inr (.inr ⟨_, _, rfl⟩)⟩

/-! ## Stream states as flags (R47) -/

theorem streamState_eq_inactive_iff {s : State} :
    streamState s = some .inactive ↔ s.active = false ∧ s.playing = false := by
  unfold streamState
  cases s.active <;> cases s.playing <;> simp

theorem streamState_eq_filling_iff {s : State} :
    streamState s = some .activeFilling ↔ s.active = true ∧ s.playing = false := by
  unfold streamState
  cases s.active <;> cases s.playing <;> simp

theorem streamState_eq_playing_iff {s : State} :
    streamState s = some .activePlaying ↔ s.active = true ∧ s.playing = true := by
  unfold streamState
  cases s.active <;> cases s.playing <;> simp

/-- Only Active-Playing has `PLAYING` set (R24, R47). -/
theorem playing_eq_false_of_streamState {s : State} {st : StreamState} (h : streamState s = some st)
    (hst : st ≠ .activePlaying) : s.playing = false := by
  cases st with
  | inactive => exact (streamState_eq_inactive_iff.mp h).2
  | activeFilling => exact (streamState_eq_filling_iff.mp h).2
  | activePlaying => exact absurd rfl hst

/-- Only Inactive has `ACTIVE` clear (R47). -/
theorem active_eq_true_of_streamState {s : State} {st : StreamState} (h : streamState s = some st)
    (hst : st ≠ .inactive) : s.active = true := by
  cases st with
  | inactive => exact absurd rfl hst
  | activeFilling => exact (streamState_eq_filling_iff.mp h).1
  | activePlaying => exact (streamState_eq_playing_iff.mp h).1

theorem streamState_congr {s t : State} (ha : t.active = s.active) (hp : t.playing = s.playing) :
    streamState t = streamState s := by
  rw [streamState, streamState, ha, hp]

/-! ## The rows of `PUSH` (R91, R132) -/

theorem pushFrames_playing_of_playing {s : State} (hp : s.playing = true) (m : Bool) (fs : List Frame) :
    (pushFrames m fs s).playing = true := by
  induction fs generalizing s with
  | nil => exact hp
  | cons f fs ih => exact ih (by rw [pushFrame_playing, hp, Bool.true_or])

/-- Below `HALF` a frame cannot wrap the fill level, so the frames start the engine exactly when they reach `HALF`. -/
theorem pushFrames_playing_of_filling {s : State} (h : s.cfg.WF) (hp : s.playing = false) (hf : fill s < s.cfg.half)
    (m : Bool) (fs : List Frame) :
    (pushFrames m fs s).playing = decide (s.cfg.half ≤ fill s + 4 * fs.length) := by
  induction fs generalizing s with
  | nil => simpa [pushFrames, hp] using hf
  | cons f fs ih =>
    have hC := half_double h
    have hmin := h.capMin
    have hfill : fill (pushFrame s (mutedFrame m f)) = fill s + 4 := by
      rw [pushFrame_fill h, Nat.mod_eq_of_lt (by omega)]
    have hplay : (pushFrame s (mutedFrame m f)).playing = decide (s.cfg.half ≤ fill s + 4) := by
      rw [pushFrame_playing, hp, hfill, Bool.false_or]
    rw [pushFrames_cons, List.length_cons]
    by_cases hreach : s.cfg.half ≤ fill s + 4
    · rw [pushFrames_playing_of_playing (by rw [hplay, decide_eq_true hreach]), eq_comm, decide_eq_true_eq]
      omega
    · rw [ih (by rwa [pushFrame_cfg]) (by rw [hplay, decide_eq_false hreach]) (by rw [pushFrame_cfg, hfill]; omega),
        pushFrame_cfg, hfill, Nat.mul_succ, Nat.add_assoc, Nat.add_comm 4]

/-- The two rows of `PUSH`, in every column. -/
theorem push_follows_table {s t : State} {st : StreamState} {fs : List Frame} (hg : GoodState s)
    (h : streamState s = some st) (ht : exec (.push fs) s = .next t) :
    streamState t = some (nextStream (reachesHalf s (.push fs)) (.push fs) st) := by
  cases st with
  | inactive =>
    obtain ⟨ha, -⟩ := streamState_eq_inactive_iff.mp h
    rw [exec_push_inactive ha] at ht
    cases ht
    exact h
  | activeFilling =>
    obtain ⟨ha, hp⟩ := streamState_eq_filling_iff.mp h
    obtain ⟨-, hfill, hbelow⟩ := hg.filling ha hp
    rw [exec_push_active ha] at ht
    cases ht
    have hplay := pushFrames_playing_of_filling hg.cfgWF hp (hfill ▸ hbelow) s.muted fs
    have hact := (pushFrames_active s.muted fs s).trans ha
    by_cases hreach : s.cfg.half ≤ fill s + 4 * fs.length
    · rw [decide_eq_true hreach] at hplay
      rw [nextStream, reachesHalf, slotsPerFrame, decide_eq_true hreach, if_pos rfl]
      exact streamState_eq_playing_iff.mpr ⟨hact, hplay⟩
    · rw [decide_eq_false hreach] at hplay
      rw [nextStream, reachesHalf, slotsPerFrame, decide_eq_false hreach, if_neg Bool.false_ne_true]
      exact streamState_eq_filling_iff.mpr ⟨hact, hplay⟩
  | activePlaying =>
    obtain ⟨ha, hp⟩ := streamState_eq_playing_iff.mp h
    rw [exec_push_active ha] at ht
    cases ht
    exact streamState_eq_playing_iff.mpr
      ⟨(pushFrames_active s.muted fs s).trans ha, pushFrames_playing_of_playing hp s.muted fs⟩

/-! ## The rows of `SET_ALT` and the rows without a movement (R132) -/

/-- `SET_ALT`: 0 leads to Inactive, 1 out of it, and any other setting is rejected. -/
theorem setAlt_follows_table {s t : State} {st : StreamState} {a : Imm} (reaches : Bool) (h : streamState s = some st)
    (ht : exec (.setAlt a) s = .next t) : streamState t = some (nextStream reaches (.setAlt a) st) := by
  by_cases h0 : a = 0
  · subst h0
    cases ht
    rfl
  by_cases h1 : a = 1
  · subst h1
    by_cases hst : st = .inactive
    · subst hst
      rw [exec_setAlt_one_inactive (streamState_eq_inactive_iff.mp h).1] at ht
      cases ht
      rfl
    · rw [exec_setAlt_one_active (active_eq_true_of_streamState h hst)] at ht
      cases ht
      cases st with
      | inactive => exact absurd rfl hst
      | activeFilling => exact h
      | activePlaying => exact h
  · rw [exec_setAlt_other h0 h1] at ht
    cases ht
    exact h.trans (congrArg some ((if_neg h0).trans (if_neg h1)).symm)

/-- Every event but `PUSH`, `SET_ALT` and `FORCE_INACTIVE` leaves both flags alone (R24). -/
theorem effect_flags {i : Instr} {s t : State} (e : Effect i s t) (hpush : ∀ fs, i ≠ .push fs)
    (halt : ∀ a, i ≠ .setAlt a) (hforce : ∀ imm, i ≠ .forceInactive imm) :
    t.active = s.active ∧ t.playing = s.playing := by
  cases e with
  | push fs => exact absurd rfl (hpush fs)
  | idle => exact absurd rfl (halt 0)
  | activate => exact absurd rfl (halt 1)
  | powerLoss imm => exact absurd rfl (hforce imm)
  | consume => rw [consumeWords_frame]; exact ⟨rfl, rfl⟩
  | sof => rw [sofTick_frame]; exact ⟨rfl, rfl⟩
  | _ => exact ⟨rfl, rfl⟩

/-- The table of R132. -/
theorem exec_follows_table {i : Instr} {s t : State} {st : StreamState} (hg : GoodState s)
    (h : streamState s = some st) (ht : exec i s = .next t) :
    streamState t = some (nextStream (reachesHalf s i) i st) := by
  cases i with
  | push fs => exact push_follows_table hg h ht
  | setAlt a => exact setAlt_follows_table _ h ht
  | forceInactive imm => cases ht; rfl
  | _ =>
    obtain ⟨ha, hp⟩ := effect_flags (effect_of_exec ht) (by simp) (by simp) (by simp)
    exact (streamState_congr ha hp).trans h

/-! ## The notes of the table (R132) -/

/-- While Inactive, the resets of R121 rewrite the values that R44 items 2, 4 and 6 already demand. -/
theorem deactivate_eq_self {s : State} (hg : GoodState s) (ha : s.active = false) (hp : s.playing = false) :
    deactivate s = s := by
  obtain ⟨hwptr, hrem, hbuf, hpending, haccum, hsofcnt, hcorr, hinTol, hcurval⟩ := hg.heldReset ha
  obtain ⟨r, hrate, -, hdefrate, hshift⟩ := hg.settings
  obtain ⟨hdefrate', hshift'⟩ := fbReset_defaults hg.cfgWF hrate
  have hd : (fbReset s).defrate = s.defrate := BitVec.eq_of_toNat_eq (hdefrate'.trans hdefrate.symm)
  have hs : (fbReset s).shift = s.shift := BitVec.eq_of_toNat_eq (hshift'.trans hshift.symm)
  have hr : wrap32 s.cfg.capacity = s.rem := BitVec.eq_of_toNat_eq ((wrap32_toNat_of_lt hg.cfgWF.lt).trans hrem.symm)
  cases s
  simp only [deactivate, fbReset, bufReset, State.mk.injEq, true_and, and_true]
  exact ⟨ha.symm, hp.symm, hbuf.symm, hwptr.symm, hr, hd, hd.trans hcurval.symm, haccum.symm, hsofcnt.symm, hcorr.symm,
    hpending.symm, hs, hinTol.symm⟩

/-- The activation of R122 where `PLAYING` is clear already: the engine armed, and `FB_RESET`. -/
theorem activate_of_stopped {s : State} (hp : s.playing = false) :
    activate s = fbReset { s with rem := wrap32 s.cfg.capacity, active := true } := by
  unfold activate
  rw [← hp]

/-- Settles O48: the table row by row, and each note from the event's case of `exec`. -/
theorem streamStateFollowsTheTable : Obligations.StreamStateFollowsTheTable := by
  intro s i st hg hst
  obtain ⟨t, ht, -⟩ := exec_effect i s
  refine ⟨t, ht, exec_follows_table hg hst ht, ?inactive, ?active, ?stopped⟩
  case inactive =>
    rintro rfl
    obtain ⟨ha, hp⟩ := streamState_eq_inactive_iff.mp hst
    refine ⟨?arm, ?deselect, ?force, ?push⟩
    case arm =>
      rintro rfl
      rw [exec_setAlt_one_inactive ha, activate_of_stopped hp] at ht
      cases ht
      rfl
    case deselect =>
      rintro rfl
      rw [exec_setAlt_zero, deactivate_eq_self hg ha hp] at ht
      cases ht
      rfl
    case force =>
      rintro imm rfl
      rw [exec_forceInactive, deactivate_eq_self hg ha hp] at ht
      cases ht
      rfl
    case push =>
      rintro fs rfl
      rw [exec_push_inactive ha] at ht
      cases ht
      rfl
  case active =>
    rintro hne rfl
    rw [exec_setAlt_one_active (active_eq_true_of_streamState hst hne)] at ht
    cases ht
    rfl
  case stopped =>
    rintro hne k rfl
    rw [exec_consume_stopped (playing_eq_false_of_streamState hst hne)] at ht
    cases ht
    rfl

end Sys2Proof.Machine
end

section
/-! Proofs of the exceptions family (60_exceptions.md): a stalled event leaves its one record and nothing else (R141). -/

namespace Sys2Proof.Machine

/-! ## Which events answer `STALL` -/

/-- The records of `t` after those of `s`, none of them a `STALL`. -/
def AnswersWithoutStall (s t : State) : Prop := ∀ r ∈ t.out.drop s.out.length, r.kind ≠ .stall

theorem answersWithoutStall_of_append {s t : State} {a : List Response} (h : t.out = s.out ++ a)
    (ha : ∀ r ∈ a, r.kind ≠ .stall) : AnswersWithoutStall s t := by
  rw [AnswersWithoutStall, h, List.drop_left]
  exact ha

theorem answersWithoutStall_of_out_eq {s t : State} (h : t.out = s.out) : AnswersWithoutStall s t :=
  answersWithoutStall_of_append (h.trans (List.append_nil _).symm) (by simp)

theorem answersWithoutStall_of_respond {s t : State} {kind : ResponseKind} {val : Word}
    (h : t.out = s.out ++ [⟨kind, val⟩]) (hk : kind ≠ .stall) : AnswersWithoutStall s t :=
  answersWithoutStall_of_append h (by simpa using hk)

/-- `raiseStall` is the only way to a `STALL` record, and where an event takes it, it is all the event does. -/
theorem effect_raiseStall_or_answersWithoutStall {i : Instr} {s t : State} (e : Effect i s t) :
    (∃ cause, t = raiseStall cause s) ∨ AnswersWithoutStall s t := by
  cases e with
  | stall _ _ cause => exact .inl ⟨cause, rfl⟩
  | none => exact .inr (answersWithoutStall_of_out_eq rfl)
  | sof => exact .inr (answersWithoutStall_of_out_eq (by rw [sofTick_frame]))
  | capture => exact .inr (answersWithoutStall_of_out_eq rfl)
  | powerLoss => exact .inr (answersWithoutStall_of_out_eq rfl)
  | answer _ _ kind _ hk => exact .inr (answersWithoutStall_of_respond rfl (by rcases hk with rfl | rfl <;> decide))
  | push => exact .inr (answersWithoutStall_of_respond (by rw [answerFill_out, pushFrames_out]) (by decide))
  | consume k =>
    obtain ⟨a, hout, hword⟩ := consumeWords_answers k.toNat s
    exact .inr (answersWithoutStall_of_append hout fun r hr => by rw [hword r hr]; decide)
  | resend =>
    exact .inr (answersWithoutStall_of_append (by rw [sendFeedback_out, respond_out, List.append_assoc]) (by simp))
  | _ => exact .inr (answersWithoutStall_of_respond rfl (by decide))

/-- An event with a `STALL` record among its answers only raised that stall. -/
theorem exec_eq_raiseStall_of_mem {i : Instr} {s t : State} {v : Word} (h : exec i s = .next t)
    (hv : (⟨.stall, v⟩ : Response) ∈ t.out.drop s.out.length) : ∃ cause, v = stallCode cause ∧ t = raiseStall cause s := by
  rcases effect_raiseStall_or_answersWithoutStall (effect_of_exec h) with ⟨cause, rfl⟩ | hno
  · rw [raiseStall_out, List.drop_left, List.mem_singleton, Response.mk.injEq] at hv
    exact ⟨cause, hv.2, rfl⟩
  · exact absurd rfl (hno _ hv)

/-- Settles O46: the event was `raiseStall`, and a step of the trace moves `tpc` past it. -/
theorem stalledEventChangesNothingElse : Obligations.StalledEventChangesNothingElse := by
  intro s i rest t v h hv
  obtain ⟨cause, rfl, rfl⟩ := exec_eq_raiseStall_of_mem h hv
  exact ⟨rfl, ⟨cause, rfl⟩, fun hfetch => step_event hfetch h⟩

end Sys2Proof.Machine
end

section
/-! Proofs of the encoding family (30_encoding.md): the opcode map read in both directions (R72, R75), decode of encode and
encode of decode (R80). -/

namespace Sys2Proof

/-! ## The opcode map (R72, R75) -/

/-- The rows of R72 are disjoint ranges: a value in a row's range selects that row. -/
theorem opOfValue_eq_some_iff {n : Nat} {op : Op} : opOfValue n = some op ↔ opRange op n := by
  refine ⟨opOfValue_range, fun h => ?_⟩
  cases op <;> unfold opRange at h <;> simp (disch := omega) only [opOfValue, if_neg, if_pos]

theorem decodeOp_eq_some_iff {ev : Word} {op : Op} : decodeOp ev = some op ↔ opRange op ev.toNat := by
  rw [decodeOp_eq, opOfValue_eq_some_iff]

/-- Two rows that one word selects agree where both masks look. -/
theorem patterns_agree_of_selects {ev : Word} {r q : OpRow} (hr : r.selects ev = true) (hq : q.selects ev = true) :
    r.pattern &&& q.mask = q.pattern &&& r.mask := by
  rw [OpRow.selects, beq_iff_eq] at hr hq
  rw [← hr, ← hq, BitVec.and_assoc, BitVec.and_assoc, BitVec.and_comm r.mask]

/-- No two rows of R72 agree where both masks look. -/
theorem opTable_rows_disagree :
    ∀ r ∈ opTable, ∀ q ∈ opTable, r.pattern &&& q.mask = q.pattern &&& r.mask → r = q := by
  decide

/-- Settles O3. -/
theorem opcodeRowsNeverOverlap : Obligations.OpcodeRowsNeverOverlap :=
  fun _ r q hr hq hsr hsq => opTable_rows_disagree r hr q hq (patterns_agree_of_selects hsr hsq)

/-- A word selects no row exactly when its value is in no row's range. -/
theorem decodeOp_eq_none_iff {ev : Word} : decodeOp ev = none ↔ ∀ op, ¬ opRange op ev.toNat := by
  rw [decodeOp_eq, opOfValue_none]

theorem portField_toNat (ev : Word) : (portField ev).toNat = ev.toNat / 2 ^ 28 := by
  have := ev.isLt
  rw [portField, BitVec.extractLsb'_toNat, Nat.shiftRight_eq_div_pow]
  omega

theorem fnField_toNat (ev : Word) : (fnField ev).toNat = ev.toNat / 2 ^ 24 % 16 := by
  rw [fnField, BitVec.extractLsb'_toNat, Nat.shiftRight_eq_div_pow]

theorem countField_toNat (ev : Word) : (countField ev).toNat = ev.toNat % 256 := by
  rw [countField, BitVec.extractLsb'_toNat, Nat.shiftRight_eq_div_pow, Nat.pow_zero, Nat.div_one]

/-- The values of the invalid words, by port (R75). -/
def InvalidValue (n : Nat) : Prop :=
  (n / 2 ^ 28 = 0 ∧ n % 2 ^ 28 ≠ 0) ∨
  (n / 2 ^ 28 = 1 ∧ (n / 2 ^ 24 % 16 ≠ 0 ∨ n / 2 ^ 8 % 2 ^ 16 ≠ 0)) ∨
  (n / 2 ^ 28 = 2 ∧ n / 2 ^ 24 % 16 ≠ 0) ∨
  (n / 2 ^ 28 = 3 ∧ (2 ≤ n / 2 ^ 24 % 16 ∨ (n / 2 ^ 24 % 16 = 0 ∧ n % 2 ^ 24 ≠ 0))) ∨
  (n / 2 ^ 28 = 5 ∧ (2 ≤ n / 2 ^ 24 % 16 ∨ n % 2 ^ 24 ≠ 0)) ∨
  6 ≤ n / 2 ^ 28

/-- No row holds a value of the list. -/
theorem not_opRange_of_invalidValue {n : Nat} (h : InvalidValue n) (op : Op) : ¬ opRange op n := by
  unfold InvalidValue at h
  cases op <;> unfold opRange <;> omega

/-- Port 4 has a row for each of its 16 functions. -/
theorem exists_opRange_of_port_four {n : Nat} (h : n / 2 ^ 28 = 4) : ∃ op, opRange op n := by
  have hfn : n / 2 ^ 24 = 0x40 ∨ n / 2 ^ 24 = 0x41 ∨ n / 2 ^ 24 = 0x42 ∨ n / 2 ^ 24 = 0x43 ∨ n / 2 ^ 25 = 0x22 ∨
      n / 2 ^ 24 = 0x46 ∨ n / 2 ^ 24 = 0x47 ∨ n / 2 ^ 24 = 0x48 ∨ n / 2 ^ 24 = 0x49 ∨ n / 2 ^ 25 = 0x25 ∨
      n / 2 ^ 26 = 0x13 := by omega
  rcases hfn with h | h | h | h | h | h | h | h | h | h | h
  exacts [⟨.setAlt, h⟩, ⟨.setMute, h⟩, ⟨.getMute, h⟩, ⟨.getRate, h⟩, ⟨.setRate, h⟩, ⟨.forceInactive, h⟩, ⟨.regRead, h⟩,
    ⟨.ctlBad, h⟩, ⟨.ctlUnimpl49, h⟩, ⟨.ctlUnimpl4A, h⟩, ⟨.ctlUnimpl4C, h⟩]

/-- A value outside the list lies in the range of a row. -/
theorem exists_opRange_of_not_invalidValue {n : Nat} (h : ¬ InvalidValue n) : ∃ op, opRange op n := by
  unfold InvalidValue at h
  have hport : n / 2 ^ 28 = 4 ∨ n = 0 ∨ n / 2 ^ 8 = 0x100000 ∨ n / 2 ^ 24 = 0x20 ∨ n = 0x30000000 ∨
      n / 2 ^ 24 = 0x31 ∨ n = 0x50000000 ∨ n = 0x51000000 := by omega
  rcases hport with h | h | h | h | h | h | h | h
  exacts [exists_opRange_of_port_four h, ⟨.nop, h⟩, ⟨.push, h⟩, ⟨.consume, h⟩, ⟨.sof, h⟩, ⟨.capture, h⟩, ⟨.fbTx, h⟩,
    ⟨.fbIncomplete, h⟩]

theorem decodeOp_eq_none_iff_invalidValue {ev : Word} : decodeOp ev = none ↔ InvalidValue ev.toNat := by
  rw [decodeOp_eq_none_iff]
  refine ⟨fun h => by_contra fun hv => ?_, not_opRange_of_invalidValue⟩
  obtain ⟨op, hop⟩ := exists_opRange_of_not_invalidValue hv
  exact h op hop

/-- Settles O4: the list of R75, read over the word's value, is the complement of the rows' ranges. -/
theorem invalidWordsAreExactlyTheListed : Obligations.InvalidWordsAreExactlyTheListed := by
  intro ev
  rw [decodeOp_eq_none_iff_invalidValue, InvalidValue]
  simp only [ne_eq, ← BitVec.toNat_inj, portField_toNat, fnField_toNat, immField_toNat, BitVec.extractLsb'_toNat,
    Nat.shiftRight_eq_div_pow, Nat.pow_zero, Nat.div_one]
  exact Iff.rfl

/-! ## Events of one word (R80) -/

/-- The event of a one-word row, its operands read from the word (R74, R81); none for `PUSH`. -/
def oneWordEvent (ev : Word) : Op → Option Instr
  | .push => none
  | .nop => some .nop
  | .consume => some (.consume (immField ev))
  | .sof => some .sof
  | .capture => some (.capture (immField ev))
  | .setAlt => some (.setAlt (immField ev))
  | .setMute => some (.setMute (immField ev))
  | .getMute => some (.getMute (immField ev))
  | .getRate => some (.getRate (immField ev))
  | .setRate => some (.setRate (ev.getLsbD 24) (immField ev))
  | .forceInactive => some (.forceInactive (immField ev))
  | .regRead => some (.regRead (immField ev))
  | .ctlBad => some (.ctlBad (immField ev))
  | .ctlUnimpl49 => some (.ctlUnimpl49 (immField ev))
  | .ctlUnimpl4A => some (.ctlUnimpl4A (ev.extractLsb' 24 1) (immField ev))
  | .ctlUnimpl4C => some (.ctlUnimpl4C (ev.extractLsb' 24 2) (immField ev))
  | .fbTx => some .fbTx
  | .fbIncomplete => some .fbIncomplete

theorem oneWordEvent_eq_none_iff {ev : Word} {op : Op} : oneWordEvent ev op = none ↔ op = .push := by
  cases op <;> simp [oneWordEvent]

theorem decode_of_oneWordEvent {ev : Word} {op : Op} {i : Instr} (ho : decodeOp ev = some op)
    (hi : oneWordEvent ev op = some i) (ws : List Word) : decode (ev :: ws) = .event i ws := by
  cases op <;> cases hi <;> simp only [decode, ho]

/-- What a decoded event is: that of a one-word row, or a `PUSH` with the frames of its payload. -/
theorem decode_event_cases {ev : Word} {ws rest : List Word} {i : Instr} (h : decode (ev :: ws) = .event i rest) :
    (∃ op, decodeOp ev = some op ∧ oneWordEvent ev op = some i ∧ rest = ws) ∨
    (∃ fs, decodeOp ev = some .push ∧ i = .push fs ∧ takeFrames (countField ev).toNat ws = some (fs, rest)) := by
  cases ho : decodeOp ev with
  | none => simp only [decode, ho] at h; cases h
  | some op =>
    cases hi : oneWordEvent ev op with
    | some j =>
      rw [decode_of_oneWordEvent ho hi] at h
      cases h
      exact .inl ⟨op, rfl, hi, rfl⟩
    | none =>
      obtain rfl : op = .push := oneWordEvent_eq_none_iff.mp hi
      simp only [decode, ho] at h
      split at h
      · next fs re ht =>
        cases h
        exact .inr ⟨fs, rfl, rfl, ht⟩
      · cases h

/-! ## Decode of encode (R80) -/

/-- An opcode that is a whole row selects it, whatever the immediate. -/
theorem decodeOp_eventWord {opc : BitVec 8} {op : Op} (h : ∀ n, n / 2 ^ 24 = opc.toNat → opRange op n) (imm : Imm) :
    decodeOp (eventWord opc imm) = some op := by
  refine decodeOp_eq_some_iff.mpr (h _ ?_)
  have := imm.isLt
  rw [eventWord_toNat]
  omega

/-- An opcode inside a row of two or four opcodes selects that row. -/
theorem opRange_of_opcode {n : Nat} {opc : BitVec 8} {k p : Nat} (hn : n / 2 ^ 24 = opc.toNat)
    (hp : opc.toNat / 2 ^ k = p) : n / 2 ^ (24 + k) = p := by
  rw [Nat.pow_add, ← Nat.div_div_eq_div_mul, hn, hp]

theorem decodeOp_push {n : Nat} (h : n ≤ 255) : decodeOp (eventWord 0x10#8 (BitVec.ofNat 24 n)) = some .push := by
  refine decodeOp_eq_some_iff.mpr ?_
  simp only [eventWord_toNat, opRange, BitVec.toNat_ofNat]
  omega

theorem countField_push {n : Nat} (h : n ≤ 255) : (countField (eventWord 0x10#8 (BitVec.ofNat 24 n))).toNat = n := by
  simp only [countField_toNat, eventWord_toNat, BitVec.toNat_ofNat]
  omega

/-- The qualifier bit of R81 is the opcode's lowest. -/
theorem getLsbD_eventWord (opc : BitVec 8) (imm : Imm) : (eventWord opc imm).getLsbD 24 = opc.getLsbD 0 := by
  rw [eventWord, BitVec.getLsbD_append]
  rfl

/-- The selector bits of R131 are the opcode's lowest. -/
theorem selector_toNat_eventWord (w : Nat) (opc : BitVec 8) (imm : Imm) :
    ((eventWord opc imm).extractLsb' 24 w).toNat = opc.toNat % 2 ^ w := by
  have := imm.isLt
  rw [BitVec.extractLsb'_toNat, eventWord_toNat, Nat.shiftRight_eq_div_pow, Nat.mul_comm,
    Nat.mul_add_div (Nat.two_pow_pos _), Nat.div_eq_of_lt this, Nat.add_zero]

theorem decode_encode_push {fs : List Frame} (h : fs.length ≤ 255) (rest : List Word) :
    decode (encode (.push fs) ++ rest) = .event (.push fs) rest := by
  simp only [encode, List.cons_append, decode, decodeOp_push h, countField_push h, takeFrames_frameWords]

theorem decode_encode_setRate (c : Bool) (r : Imm) (rest : List Word) :
    decode (encode (.setRate c r) ++ rest) = .event (.setRate c r) rest := by
  have hopc : ∀ c, ((0x22#7 : BitVec 7) ++ BitVec.ofBool c : BitVec 8).toNat / 2 ^ 1 = 0x22 ∧
      ((0x22#7 : BitVec 7) ++ BitVec.ofBool c : BitVec 8).getLsbD 0 = c := by decide
  obtain ⟨hrow, hbit⟩ := hopc c
  have hop := decodeOp_eventWord (op := .setRate) (fun _ hn => opRange_of_opcode hn hrow) r
  refine decode_of_oneWordEvent hop ?_ rest
  rw [oneWordEvent, getLsbD_eventWord, hbit, immField_eventWord]

theorem decode_encode_ctlUnimpl4A (sel : BitVec 1) (x : Imm) (rest : List Word) :
    decode (encode (.ctlUnimpl4A sel x) ++ rest) = .event (.ctlUnimpl4A sel x) rest := by
  have hopc : ∀ sel : BitVec 1, ((0x25#7 : BitVec 7) ++ sel : BitVec 8).toNat / 2 ^ 1 = 0x25 ∧
      ((0x25#7 : BitVec 7) ++ sel : BitVec 8).toNat % 2 ^ 1 = sel.toNat := by decide
  obtain ⟨hrow, hsel⟩ := hopc sel
  have hop := decodeOp_eventWord (op := .ctlUnimpl4A) (fun _ hn => opRange_of_opcode hn hrow) x
  refine decode_of_oneWordEvent hop ?_ rest
  rw [oneWordEvent, immField_eventWord, BitVec.eq_of_toNat_eq ((selector_toNat_eventWord 1 _ x).trans hsel)]

theorem decode_encode_ctlUnimpl4C (sel : BitVec 2) (x : Imm) (rest : List Word) :
    decode (encode (.ctlUnimpl4C sel x) ++ rest) = .event (.ctlUnimpl4C sel x) rest := by
  have hopc : ∀ sel : BitVec 2, ((0x13#6 : BitVec 6) ++ sel : BitVec 8).toNat / 2 ^ 2 = 0x13 ∧
      ((0x13#6 : BitVec 6) ++ sel : BitVec 8).toNat % 2 ^ 2 = sel.toNat := by decide
  obtain ⟨hrow, hsel⟩ := hopc sel
  have hop := decodeOp_eventWord (op := .ctlUnimpl4C) (fun _ hn => opRange_of_opcode hn hrow) x
  refine decode_of_oneWordEvent hop ?_ rest
  rw [oneWordEvent, immField_eventWord, BitVec.eq_of_toNat_eq ((selector_toNat_eventWord 2 _ x).trans hsel)]

/-- A row of one opcode decodes to its event with the immediate encoded. -/
theorem decode_eventWord (op : Op) {opc : BitVec 8} (hop : ∀ n, n / 2 ^ 24 = opc.toNat → opRange op n)
    {event : Imm → Instr} (hevent : ∀ ev, oneWordEvent ev op = some (event (immField ev))) (x : Imm) (rest : List Word) :
    decode (eventWord opc x :: rest) = .event (event x) rest := by
  rw [decode_of_oneWordEvent (decodeOp_eventWord hop x) (hevent _), immField_eventWord]

/-- Decoding undoes encoding (R80). -/
theorem decode_encode {i : Instr} (h : i.wf = true) (rest : List Word) : decode (encode i ++ rest) = .event i rest := by
  cases i with
  | push fs => exact decode_encode_push (of_decide_eq_true h) rest
  | setRate c r => exact decode_encode_setRate c r rest
  | ctlUnimpl4A sel x => exact decode_encode_ctlUnimpl4A sel x rest
  | ctlUnimpl4C sel x => exact decode_encode_ctlUnimpl4C sel x rest
  | nop => rfl
  | sof => rfl
  | fbTx => rfl
  | fbIncomplete => rfl
  | consume k => exact decode_eventWord .consume (fun _ => id) (fun _ => rfl) k rest
  | capture v => exact decode_eventWord .capture (fun _ => id) (fun _ => rfl) v rest
  | setAlt a => exact decode_eventWord .setAlt (fun _ => id) (fun _ => rfl) a rest
  | setMute m => exact decode_eventWord .setMute (fun _ => id) (fun _ => rfl) m rest
  | getMute imm => exact decode_eventWord .getMute (fun _ => id) (fun _ => rfl) imm rest
  | getRate imm => exact decode_eventWord .getRate (fun _ => id) (fun _ => rfl) imm rest
  | forceInactive imm => exact decode_eventWord .forceInactive (fun _ => id) (fun _ => rfl) imm rest
  | regRead off => exact decode_eventWord .regRead (fun _ => id) (fun _ => rfl) off rest
  | ctlBad x => exact decode_eventWord .ctlBad (fun _ => id) (fun _ => rfl) x rest
  | ctlUnimpl49 x => exact decode_eventWord .ctlUnimpl49 (fun _ => id) (fun _ => rfl) x rest

/-- Settles O1. -/
theorem decodeOfEncodeIsTheEvent : Obligations.DecodeOfEncodeIsTheEvent := fun _ rest h => decode_encode h rest

/-! ## Encode of decode (R80) -/

/-- A word is its opcode and its immediate. -/
theorem eventWord_immField {ev : Word} {opc : BitVec 8} (h : ev.toNat / 2 ^ 24 = opc.toNat) :
    eventWord opc (immField ev) = ev := by
  apply BitVec.eq_of_toNat_eq
  rw [eventWord_toNat, immField_toNat, ← h]
  omega

theorem getLsbD_eq_extractLsb' (ev : Word) (k : Nat) : BitVec.ofBool (ev.getLsbD k) = ev.extractLsb' k 1 := by
  apply BitVec.eq_of_getLsbD_eq
  intro i hi
  obtain rfl : i = 0 := by omega
  simp

/-- The opcode of a row of `2^w` opcodes: the row's bits above the word's own bits from 24 on. -/
theorem rowBits_append_selector_toNat {ev : Word} {v w : Nat} (p : BitVec v)
    (h : ev.toNat / 2 ^ (24 + w) = p.toNat) : ev.toNat / 2 ^ 24 = (p ++ ev.extractLsb' 24 w).toNat := by
  have hsel := (ev.extractLsb' 24 w).isLt
  rw [BitVec.toNat_append, ← Nat.shiftLeft_add_eq_or_of_lt hsel, Nat.shiftLeft_eq, BitVec.extractLsb'_toNat,
    Nat.shiftRight_eq_div_pow, ← h, Nat.pow_add, ← Nat.div_div_eq_div_mul, Nat.div_add_mod']

/-- Encoding the event of a one-word row gives the word back. -/
theorem encode_oneWordEvent {ev : Word} {op : Op} {i : Instr} (hop : opRange op ev.toNat)
    (hi : oneWordEvent ev op = some i) : encode i = [ev] ∧ i.wf = true ∧ i.length = 1 := by
  have hvalue : ∀ {w : Word}, ev.toNat = w.toNat → [w] = [ev] := fun h => by rw [BitVec.eq_of_toNat_eq h]
  have hopcode : ∀ {opc : BitVec 8}, ev.toNat / 2 ^ 24 = opc.toNat → [eventWord opc (immField ev)] = [ev] :=
    fun h => by rw [eventWord_immField h]
  cases op <;> cases hi <;> refine ⟨?_, rfl, rfl⟩
  case nop | sof | fbTx | fbIncomplete => exact hvalue hop
  case setRate =>
    refine hopcode ?_
    rw [getLsbD_eq_extractLsb']
    exact rowBits_append_selector_toNat _ hop
  case ctlUnimpl4A | ctlUnimpl4C => exact hopcode (rowBits_append_selector_toNat _ hop)
  all_goals exact hopcode hop

/-- The event word of a `PUSH` is its opcode and its frame count (R71). -/
theorem eventWord_push {ev : Word} (h : opRange .push ev.toNat) :
    eventWord 0x10#8 (BitVec.ofNat 24 (countField ev).toNat) = ev := by
  unfold opRange at h
  apply BitVec.eq_of_toNat_eq
  simp only [eventWord_toNat, countField_toNat, BitVec.toNat_ofNat]
  omega

/-- Settles O2: one-word rows give the word back, a `PUSH` its word and the words its payload took. -/
theorem encodeOfDecodeRestoresTheWords : Obligations.EncodeOfDecodeRestoresTheWords := by
  intro ev ws i rest h
  rcases decode_event_cases h with ⟨op, ho, hi, rfl⟩ | ⟨fs, ho, rfl, ht⟩
  · obtain ⟨henc, hwf, hlen⟩ := encode_oneWordEvent (decodeOp_eq_some_iff.mp ho) hi
    exact ⟨hwf, [], rfl, hlen.symm, henc⟩
  · obtain ⟨hcount, payload, hws, hlen, hwords⟩ := takeFrames_some ht
    have hlt := (countField ev).isLt
    refine ⟨decide_eq_true (by omega), payload, hws, ?_, ?_⟩
    · rw [hlen, Instr.length, hcount, Nat.add_comm]
    · rw [encode, hcount, eventWord_push (decodeOp_eq_some_iff.mp ho), hwords]

/-! ## Decode vectors (R72 to R74, R81) -/

/-- A `PUSH` with its whole payload present (R71, R73). -/
theorem decode_push_payload (n : BitVec 8) (ws rest : List Word) (h : ws.length = 2 * n.toNat) :
    ∃ fs, decode ((0x100000#24 ++ n) :: (ws ++ rest)) = .event (.push fs) rest ∧ fs.length = n.toNat ∧
      ∀ (k : Nat) (l r : Word), ws[2 * k]? = some l → ws[2 * k + 1]? = some r →
        fs[k]? = some ⟨l.extractLsb' 0 24, r.extractLsb' 0 24⟩ := by
  have hlt := n.isLt
  have hvalue : (0x100000#24 ++ n : Word).toNat = 0x100000 * 2 ^ 8 + n.toNat := by
    rw [BitVec.toNat_append, ← Nat.shiftLeft_add_eq_or_of_lt hlt, Nat.shiftLeft_eq]
    rfl
  have hop : decodeOp (0x100000#24 ++ n) = some .push := by
    rw [decodeOp_eq_some_iff, hvalue, opRange]
    omega
  have hcount : (countField (0x100000#24 ++ n)).toNat = n.toNat := by
    rw [countField_toNat, hvalue]
    omega
  obtain ⟨fs, htake, hlen, hframes⟩ := takeFrames_append h rest
  exact ⟨fs, by simp only [decode, hop, hcount, htake], hlen, hframes⟩

/-- Settles O8: each row is `decode_encode` at the row's event, and the vectors are computed. -/
theorem decodeVectorsOfTheSpec : Obligations.DecodeVectorsOfTheSpec := by
  refine ⟨fun rest => rfl, decode_push_payload, fun x rest => ⟨?_, ?_, ?_, ?_, ?_, ?_, ?_, ?_, ?_, ?_, ?_, ?_, ?_,
    fun a => ?_, fun b => ?_, ?_, ?_⟩, rfl, rfl, rfl, rfl, rfl, rfl, rfl, rfl, rfl, rfl, rfl, rfl, rfl, rfl, rfl⟩
  exacts [decode_encode (i := .consume x) rfl rest, rfl, decode_encode (i := .capture x) rfl rest,
    decode_encode (i := .setAlt x) rfl rest, decode_encode (i := .setMute x) rfl rest,
    decode_encode (i := .getMute x) rfl rest, decode_encode (i := .getRate x) rfl rest,
    decode_encode (i := .setRate false x) rfl rest, decode_encode (i := .setRate true x) rfl rest,
    decode_encode (i := .forceInactive x) rfl rest, decode_encode (i := .regRead x) rfl rest,
    decode_encode (i := .ctlBad x) rfl rest, decode_encode (i := .ctlUnimpl49 x) rfl rest,
    decode_encode (i := .ctlUnimpl4A a x) rfl rest, decode_encode (i := .ctlUnimpl4C b x) rfl rest, rfl, rfl]

end Sys2Proof
end

section
/-! Proofs of the encoding family, continued: the harness step (30_encoding.md section 7). -/

namespace Sys2Proof.Machine

/-! ## Where a step stops (R75, R79) -/

/-- Nothing is left to fetch exactly at the end of the trace and past it. -/
theorem fetch_eq_empty_iff {s : State} : fetch s = .empty ↔ s.trace.length ≤ s.tpc := by
  rw [fetch, decode_empty_iff, List.drop_eq_nil_iff]

/-- A step that stops in some other way than at the end has fetched something. -/
theorem tpc_ne_length_of_fetch {s : State} (h : fetch s ≠ .empty) : s.tpc ≠ s.trace.length :=
  fun he => h (fetch_eq_empty_iff.mpr he.ge)

theorem step_of_fetch_empty {s : State} (h : fetch s = .empty) :
    step s = .fault (if s.tpc = s.trace.length then .endOfTrace else .tpcBeyondTrace) := by
  unfold step
  rw [h]
  split <;> rfl

theorem step_of_fetch_invalid {s : State} {w : Word} (h : fetch s = .invalid w) : step s = .refused (.invalidWord w) := by
  unfold step
  rw [if_neg (tpc_ne_length_of_fetch (by simp [h])), h]

theorem step_of_fetch_truncated {s : State} {needed given : Nat} (h : fetch s = .truncated needed given) :
    step s = .refused (.truncatedPush needed given) := by
  unfold step
  rw [if_neg (tpc_ne_length_of_fetch (by simp [h])), h]

theorem step_of_fetch_event {s : State} {i : Instr} {rest : List Word} (h : fetch s = .event i rest) :
    ∃ t, step s = .next t := by
  obtain ⟨t, ht, -⟩ := exec_effect i s
  exact ⟨_, step_event h ht⟩

/-- A step faults exactly when there is nothing to fetch; the fault says whether `tpc` is at the end or past it. -/
theorem step_eq_fault_iff {s : State} {r : Fault} :
    step s = .fault r ↔
      s.trace.length ≤ s.tpc ∧ r = if s.tpc = s.trace.length then .endOfTrace else .tpcBeyondTrace := by
  rw [← fetch_eq_empty_iff]
  cases hf : fetch s with
  | empty => simp [step_of_fetch_empty hf, eq_comm]
  | invalid w => simp [step_of_fetch_invalid hf]
  | truncated a b => simp [step_of_fetch_truncated hf]
  | event i rest =>
    obtain ⟨t, ht⟩ := step_of_fetch_event hf
    simp [ht]

theorem step_eq_endOfTrace_iff {s : State} : step s = .fault .endOfTrace ↔ s.tpc = s.trace.length := by
  rw [step_eq_fault_iff]
  by_cases h : s.tpc = s.trace.length <;> simp [h]

theorem step_eq_tpcBeyondTrace_iff {s : State} : step s = .fault .tpcBeyondTrace ↔ s.trace.length < s.tpc := by
  rw [step_eq_fault_iff]
  by_cases h : s.tpc = s.trace.length
  · simp [h]
  · rw [if_neg h, and_iff_left rfl]
    omega

/-- A step is refused exactly when the decoder rejects what is fetched, with the decoder's own reason (R75). -/
theorem step_eq_refused_iff {s : State} {r : Refusal} :
    step s = .refused r ↔ (∃ w, fetch s = .invalid w ∧ r = .invalidWord w) ∨
      ∃ needed given, fetch s = .truncated needed given ∧ r = .truncatedPush needed given := by
  cases hf : fetch s with
  | empty => simp [step_of_fetch_empty hf]
  | invalid w => simp [step_of_fetch_invalid hf, eq_comm]
  | truncated a b => simp [step_of_fetch_truncated hf, eq_comm]
  | event i rest =>
    obtain ⟨t, ht⟩ := step_of_fetch_event hf
    simp [ht]

theorem step_eq_invalidWord_iff {s : State} {w : Word} :
    step s = .refused (.invalidWord w) ↔ ∃ ws, s.trace.drop s.tpc = w :: ws ∧ decodeOp w = none := by
  rw [step_eq_refused_iff, ← decode_invalid_iff, ← fetch]
  simp

theorem step_eq_truncatedPush_iff {s : State} :
    (∃ needed given, step s = .refused (.truncatedPush needed given)) ↔
      ∃ ev ws, s.trace.drop s.tpc = ev :: ws ∧ decodeOp ev = some .push ∧ ws.length < 2 * (countField ev).toNat := by
  have hfetch : (∃ needed given, step s = .refused (.truncatedPush needed given)) ↔
      ∃ needed given, decode (s.trace.drop s.tpc) = .truncated needed given := by
    simp [step_eq_refused_iff, fetch]
  rw [hfetch]
  cases hd : s.trace.drop s.tpc with
  | nil => simp [decode]
  | cons ev ws => simp [decode_truncated_iff]

/-- Settles O5. -/
theorem cutPushPayloadIsRefused : Obligations.CutPushPayloadIsRefused := by
  intro s ev ws hd
  simp [step_eq_truncatedPush_iff, hd]

/-- Settles O7. -/
theorem stepStopsOnlyWhereTheHarnessDoes : Obligations.StepStopsOnlyWhereTheHarnessDoes :=
  fun _ => ⟨step_eq_endOfTrace_iff, step_eq_tpcBeyondTrace_iff, fun _ => step_eq_invalidWord_iff,
    step_eq_truncatedPush_iff, fun m h => by simp [step_eq_refused_iff] at h⟩

/-- Settles O6: the event leaves `tpc` and the trace, and the decoder took the words `tpc` moves past. -/
theorem stepRunsTheDecodedEvent : Obligations.StepRunsTheDecodedEvent := by
  intro s i rest hd
  obtain ⟨t, ht, e⟩ := exec_effect i s
  obtain ⟨-, htpc, htrace, -⟩ := effect_frame e
  obtain ⟨words, hdrop, hlen⟩ := decode_event_words hd
  refine ⟨t, ht, htpc, htrace, ?step, ?rest⟩
  case step => rw [step_event hd ht, advance, htpc]
  case rest => rw [← List.drop_drop, hdrop, ← hlen, List.drop_left]

end Sys2Proof.Machine
end

section
/-! Proofs of the invariant family: the transmitted value (41_feedback_ops.md R104), the reset table (10_state.md R45,
70_reset_and_hazards.md R160), the invariant of 10_state.md R44 under every event, and the feedback values a run sends (X4). -/

namespace Sys2Proof.Machine

/-! ## The transmitted value (R104) -/

theorem clampInt_eq_max_min {z lo hi : Int} (h : lo ≤ hi) : clampInt z lo hi = max lo (min z hi) := by
  unfold clampInt
  split
  · omega
  · split <;> omega

/-- The window around a legal `DEFRATE` lies inside 24 bits (R5, R104). -/
theorem fbval_fits {s : State} (h : s.cfg.WF) {r : SampleRate} (hd : s.defrate.toNat = tableEntry s.cfg.rateTable r) :
    0 ≤ fbval s ∧ fbval s < 2 ^ 24 := by
  obtain ⟨hlo, hhi⟩ := tableEntry_ok h r
  obtain ⟨hge, hle⟩ := fbval_range s
  omega

theorem wrap32_toNat_cast {z : Int} (h0 : 0 ≤ z) (h : z < 2 ^ 32) : ((wrap32 z).toNat : Int) = z := by
  obtain ⟨n, rfl⟩ := Int.eq_ofNat_of_zero_le h0
  rw [wrap32_toNat_of_lt (by omega)]

/-- Settles O32: `clampInt` with ordered bounds is `max` and `min`, and R5 keeps the window inside 24 bits. -/
theorem feedbackValueIsTheClampedSum : Obligations.FeedbackValueIsTheClampedSum := by
  intro s hg
  obtain ⟨r, -, -, hdefrate, -⟩ := hg.settings
  obtain ⟨h0, h24⟩ := fbval_fits hg.cfgWF hdefrate
  refine ⟨clampInt_eq_max_min ?_, h0, h24, wrap32_toNat_cast h0 (by omega)⟩
  rw [clampSpan]
  omega

/-! ## The reset table (R45, R106, R160) -/

theorem rateHz_lt (r : SampleRate) : rateHz r < 2 ^ 24 := by cases r <;> decide

theorem wrap32_rateHz_toNat (r : SampleRate) : (wrap32 (rateHz r)).toNat = rateHz r := by
  have := rateHz_lt r
  exact wrap32_toNat_of_lt (by omega)

theorem wrap32_tableEntry_toNat {c : Config} (h : c.WF) (r : SampleRate) :
    (wrap32 (tableEntry c.rateTable r)).toNat = tableEntry c.rateTable r := by
  obtain ⟨-, hhi⟩ := tableEntry_ok h r
  exact wrap32_toNat_of_lt (by omega)

theorem wrap32_shiftCfg_toNat {c : Config} (h : c.WF) : (wrap32 c.shiftCfg).toNat = c.shiftCfg := by
  have := h.shiftMax
  exact wrap32_toNat_of_lt (by omega)

theorem wrap32_capacity_toNat {c : Config} (h : c.WF) : (wrap32 c.capacity).toNat = c.capacity :=
  wrap32_toNat_of_lt h.lt

/-- Settles O35. -/
theorem fbResetRestoresTheDefaults : Obligations.FbResetRestoresTheDefaults := by
  intro s r h hr
  obtain ⟨hdefrate, hshift⟩ := fbReset_defaults h hr
  exact ⟨hdefrate, rfl, hshift, rfl, rfl⟩

/-- Settles O55: the resets of R160 write the table's values, `DEFRATE` and `CURVAL` being looked up at `RATE_INIT`. -/
theorem powerOnResetGivesTheResetTable : Obligations.PowerOnResetGivesTheResetTable := by
  intro s
  unfold powerOnReset fbReset bufReset
  simp only [defaultRateWord_of_rate (wrap32_rateHz_toNat _)]
  rfl

/-- Deactivation at the initial rate, against the reset table. -/
theorem deactivate_eq_resetOf {s : State} (hr : s.rate.toNat = rateHz s.cfg.rateInit) :
    deactivate s = { State.resetOf s.cfg with
      muted := s.muted, rate := s.rate, rateInd := s.rateInd, cap := s.cap, fbLast := s.fbLast, tpc := s.tpc,
      out := s.out, trace := s.trace } := by
  unfold deactivate fbReset bufReset
  simp only [defaultRateWord_of_rate hr]
  rfl

theorem resetOf_rptr {c : Config} (h : c.WF) : rptr (State.resetOf c) = 0 :=
  rptr_armed (s := State.resetOf c) h (wrap32_capacity_toNat h)

/-- Settles O56. -/
theorem resetLeavesTheTableOfR45 : Obligations.ResetLeavesTheTableOfR45 := by
  refine ⟨fun c h => ?table, ⟨rfl, rfl, rfl, rfl, rfl, rfl⟩, fun s _ hr => deactivate_eq_resetOf hr⟩
  exact ⟨rfl, rfl, rfl, wrap32_rateHz_toNat _, wrap32_rateHz_toNat _, fun _ => rfl, rfl, wrap32_capacity_toNat h,
    resetOf_rptr h, wrap32_tableEntry_toNat h _, wrap32_tableEntry_toNat h _, rfl, rfl, rfl, wrap32_shiftCfg_toNat h, rfl,
    rfl, rfl, rfl, rfl, rfl⟩

/-! ## The power-on state is good (R44, R45) -/

theorem loaded_good {c : Config} (h : c.WF) (t : List Word) : GoodState (loaded c t) where
  cfgWF := h
  bufWf := rfl
  bufBelow := rfl
  playingActive := by intro hp; cases hp
  wptrRange := h.pos
  remRange := by
    have hrem : (loaded c t).rem.toNat = c.capacity := wrap32_capacity_toNat h
    have := h.pos
    exact ⟨by omega, hrem.le⟩
  wptrAligned := rfl
  heldReset := fun _ => ⟨rfl, wrap32_capacity_toNat h, rfl, rfl, rfl, rfl, rfl, rfl, rfl⟩
  filling := by intro ha; cases ha
  settings := ⟨c.rateInit, wrap32_rateHz_toNat _, rfl, wrap32_tableEntry_toNat h _, wrap32_shiftCfg_toNat h⟩
  sofcntRange := Nat.two_pow_pos _
  pendingActive := by intro hp; cases hp
  fbLastRange := Nat.two_pow_pos 24
  inTolPlaying := by intro hi; cases hi
  tpcRange := Nat.zero_le _

theorem default_wf : Config.default.WF := by constructor <;> decide

/-- Settles O53. -/
theorem powerOnStateMeetsTheInvariant : Obligations.PowerOnStateMeetsTheInvariant :=
  ⟨fun _ t h => loaded_good h t, loaded_good default_wf []⟩

/-! ## Every event keeps the invariant (R44) -/

/-- The invariant does not look at the log. -/
theorem GoodState.setOut {s : State} (hg : GoodState s) (o : List Response) : GoodState (setOut o s) := { hg with }

theorem GoodState.respond {s : State} (hg : GoodState s) (kind : ResponseKind) (val : Word) :
    GoodState (respond kind val s) := hg.setOut _

/-- Nor at `CAP` and `MUTED`. -/
theorem GoodState.setCap {s : State} (hg : GoodState s) (v : Word) : GoodState { s with cap := v } := { hg with }

theorem GoodState.setMuted {s : State} (hg : GoodState s) (m : Bool) : GoodState { s with muted := m } := { hg with }

/-- Still filling after a `PUSH`: the consumer has not moved, and the fill level, below `HALF`, has not wrapped (R44 item 5). -/
theorem pushFrames_filling {s : State} (hg : GoodState s) (ha : s.active = true) (m : Bool) (fs : List Frame)
    (hp : (pushFrames m fs s).playing = false) : FillingFromZero (pushFrames m fs s) := by
  have hold : s.playing = false := Bool.eq_false_iff.mpr fun h => by
    rw [pushFrames_playing_of_playing h] at hp
    cases hp
  obtain ⟨hrem, hfill, hbelow⟩ := hg.filling ha hold
  have hC := half_double hg.cfgWF
  rw [pushFrames_playing_of_filling hg.cfgWF hold (by omega), decide_eq_false_iff_not] at hp
  have hwptr := pushFrames_wptr hg.cfgWF hg.wptrRange m fs
  rw [Nat.mod_eq_of_lt (by omega)] at hwptr
  have hfill' := pushFrames_fill hg.cfgWF m fs
  rw [Nat.mod_eq_of_lt (by omega)] at hfill'
  refine ⟨?_, by omega, ?_⟩
  · rw [pushFrames_rem, pushFrames_cfg, hrem]
  · rw [pushFrames_cfg]
    omega

theorem GoodState.pushFrames {s : State} (hg : GoodState s) (ha : s.active = true) (m : Bool) (fs : List Frame) :
    GoodState (pushFrames m fs s) := by
  have hwptr := pushFrames_wptr hg.cfgWF hg.wptrRange m fs
  have hactive := (pushFrames_active m fs s).trans ha
  constructor
  case bufWf => rw [pushFrames_buf]; exact pushSlots_wf hg.bufWf _
  case bufBelow => rw [pushFrames_buf, pushFrames_cfg]; exact pushSlots_below hg.cfgWF hg.bufBelow _
  case playingActive => exact fun _ => hactive
  case wptrRange => rw [hwptr, pushFrames_cfg]; exact Nat.mod_lt _ hg.cfgWF.pos
  case wptrAligned =>
    have haligned := hg.wptrAligned
    rw [hwptr, Nat.mod_mod_of_dvd _ (Nat.dvd_of_mod_eq_zero hg.cfgWF.capFrames)]
    omega
  case heldReset => intro hi; rw [hactive] at hi; cases hi
  case filling => exact fun _ => pushFrames_filling hg ha m fs
  case pendingActive => exact fun _ => hactive
  case inTolPlaying =>
    intro hi
    rw [pushFrames_frame] at hi
    exact pushFrames_playing_of_playing (hg.inTolPlaying hi) m fs
  case cfgWF => rw [pushFrames_frame]; exact hg.cfgWF
  case remRange => rw [pushFrames_frame]; exact hg.remRange
  case settings => rw [pushFrames_frame]; exact hg.settings
  case sofcntRange => rw [pushFrames_frame]; exact hg.sofcntRange
  case fbLastRange => rw [pushFrames_frame]; exact hg.fbLastRange
  case tpcRange => rw [pushFrames_frame]; exact hg.tpcRange

/-- While playing, any `REM` in its range is good. -/
theorem GoodState.setRem {s : State} (hg : GoodState s) (hp : s.playing = true) {w : Word} (h1 : 1 ≤ w.toNat)
    (h2 : w.toNat ≤ s.cfg.capacity) : GoodState { s with rem := w } :=
  { hg with
    remRange := ⟨h1, h2⟩
    heldReset := fun (hi : s.active = false) => by rw [hg.playingActive hp] at hi; cases hi
    filling := fun _ (hn : s.playing = false) => by rw [hp] at hn; cases hn }

theorem GoodState.consumeWords {s : State} (hg : GoodState s) (hp : s.playing = true) (k : Nat) :
    GoodState (consumeWords k s) := by
  obtain ⟨h1, h2⟩ := hg.remRange
  obtain ⟨h1', h2', -⟩ := consumeWords_rptr hg.cfgWF h1 h2 k
  rw [consumeWords_frame]
  exact (hg.setRem hp h1' h2').setOut _

theorem GoodState.sofTick {s : State} (hg : GoodState s) (ha : s.active = true) (rem wp : Word) :
    GoodState (sofTick rem wp s) := by
  obtain ⟨r, -, -, -, hshift⟩ := hg.settings
  have hcount : (Machine.sofTick rem wp s).sofcnt.toNat < 2 ^ s.cfg.shiftCfg := by
    have hle : 2 ^ s.cfg.shiftCfg ≤ 2 ^ 15 := Nat.pow_le_pow_right (by omega) hg.cfgWF.shiftMax
    obtain ⟨hsofcnt, -⟩ := sofTick_window rem wp (by rw [hshift]) hle (Nat.mod_eq_of_lt hg.sofcntRange).symm
    exact hsofcnt ▸ Nat.mod_lt _ (Nat.two_pow_pos _)
  have htol : (Machine.sofTick rem wp s).inTol = true → s.playing = true := by
    rw [sofTick_inTol, inTolerance, Bool.and_eq_true]
    exact And.left
  rw [sofTick_frame]
  exact { hg with
    heldReset := fun (hi : s.active = false) => by rw [ha] at hi; cases hi
    sofcntRange := hcount
    pendingActive := fun _ => ha
    inTolPlaying := htol }

/-- `FB_RESET` at the rate in force gives what R44 item 6 asks. -/
theorem fbReset_settings {s : State} (h : s.cfg.WF) {r : SampleRate} (hr : s.rate.toNat = rateHz r)
    (hi : s.rateInd = s.rate) : SettingsAgree (fbReset s) r := by
  obtain ⟨hdefrate, hshift⟩ := fbReset_defaults h hr
  exact ⟨hr, hi, hdefrate, hshift⟩

theorem GoodState.deactivate {s : State} (hg : GoodState s) : GoodState (deactivate s) := by
  obtain ⟨r, hrate, hind, -, -⟩ := hg.settings
  have hrem : (Machine.deactivate s).rem.toNat = s.cfg.capacity := wrap32_capacity_toNat hg.cfgWF
  have hpos := hg.cfgWF.pos
  exact { hg with
    bufWf := rfl
    bufBelow := rfl
    playingActive := fun hp => by cases hp
    wptrRange := hpos
    remRange := ⟨by omega, hrem.le⟩
    wptrAligned := rfl
    heldReset := fun _ => ⟨rfl, hrem, rfl, rfl, rfl, rfl, rfl, rfl, rfl⟩
    filling := fun ha => by cases ha
    settings := ⟨r, fbReset_settings (s := bufReset { s with active := false, playing := false }) hg.cfgWF hrate hind⟩
    sofcntRange := Nat.two_pow_pos _
    pendingActive := fun hp => by cases hp
    inTolPlaying := fun hi => by cases hi }

/-- The state Active-Filling starts from: both indices 0, so the fill level is 0 (R44 item 5, R122). -/
theorem activate_filling {s : State} (h : s.cfg.WF) (hw : s.wptr = 0) : FillingFromZero (activate s) := by
  have hrem : (activate s).rem.toNat = s.cfg.capacity := wrap32_capacity_toNat h
  have hwptr : (activate s).wptr.toNat = 0 := by rw [activate_wptr, hw]; rfl
  have hpos := h.pos
  have hC := half_double h
  refine ⟨hrem, fill_armed (s := activate s) h hrem (by rw [hwptr]; exact hpos), ?_⟩
  rw [hwptr, activate_cfg]
  omega

theorem GoodState.activate {s : State} (hg : GoodState s) (ha : s.active = false) : GoodState (activate s) := by
  obtain ⟨r, hrate, hind, -, -⟩ := hg.settings
  obtain ⟨hwptr, -⟩ := hg.heldReset ha
  have hrem : (Machine.activate s).rem.toNat = s.cfg.capacity := wrap32_capacity_toNat hg.cfgWF
  have hpos := hg.cfgWF.pos
  exact { hg with
    playingActive := fun hp => by cases hp
    remRange := ⟨by omega, hrem.le⟩
    heldReset := fun hi => by cases hi
    filling := fun _ _ => activate_filling hg.cfgWF hwptr
    settings := ⟨r, fbReset_settings
      (s := { s with rem := wrap32 s.cfg.capacity, active := true, playing := false }) hg.cfgWF hrate hind⟩
    sofcntRange := Nat.two_pow_pos _
    pendingActive := fun hp => by cases hp
    inTolPlaying := fun hi => by cases hi }

theorem GoodState.commitRate {s : State} (hg : GoodState s) (ha : s.active = false) {w : Word} {q : SampleRate}
    (hq : w.toNat = rateHz q) : GoodState (commitRate w s) := by
  obtain ⟨hwptr, hrem, hbuf, -⟩ := hg.heldReset ha
  exact { hg with
    heldReset := fun _ => ⟨hwptr, hrem, hbuf, rfl, rfl, rfl, rfl, rfl, rfl⟩
    filling := fun (hi : s.active = true) => by rw [ha] at hi; cases hi
    settings := ⟨q, fbReset_settings (s := { s with rate := w, rateInd := w }) hg.cfgWF hq rfl⟩
    sofcntRange := Nat.two_pow_pos _
    pendingActive := fun hp => by cases hp
    inTolPlaying := fun hi => by cases hi }

theorem GoodState.sendFeedback {s : State} (hg : GoodState s) (ha : s.active = true) : GoodState (sendFeedback s) := by
  obtain ⟨r, -, -, hdefrate, -⟩ := hg.settings
  obtain ⟨h0, h24⟩ := fbval_fits hg.cfgWF hdefrate
  have hval := wrap32_toNat_cast h0 (by omega)
  exact { hg with
    heldReset := fun (hi : s.active = false) => by rw [ha] at hi; cases hi
    pendingActive := fun hp => by cases hp
    fbLastRange := show (wrap32 (fbval s)).toNat < 2 ^ 24 by omega }

/-- Every event keeps the invariant. -/
theorem effect_good {i : Instr} {s t : State} (e : Effect i s t) (hg : GoodState s) : GoodState t := by
  cases e with
  | none => exact hg
  | ignoredPush => exact hg.respond _ _
  | answer => exact hg.respond _ _
  | stall => exact hg.respond _ _
  | push fs _ ha => exact (hg.pushFrames ha _ _).respond _ _
  | consume k _ hp => exact hg.consumeWords hp _
  | sof _ ha => exact hg.sofTick ha _ _
  | capture => exact hg.setCap _
  | idle => exact hg.deactivate.respond _ _
  | activate _ ha => exact (hg.activate ha).respond _ _
  | mute => exact (hg.setMuted _).respond _ _
  | rate r q _ hr ha =>
    refine (hg.commitRate ha (q := q) ?_).respond _ _
    have := r.isLt
    rw [BitVec.toNat_setWidth, Nat.mod_eq_of_lt (by omega), hr]
  | powerLoss => exact hg.deactivate
  | send _ hp => exact hg.sendFeedback (hg.pendingActive hp)
  | resend _ ha => exact (hg.respond _ _).sendFeedback ha

/-- Moving `tpc` past an event that was there keeps it inside the trace. -/
theorem GoodState.advance {s : State} (hg : GoodState s) {n : Nat} (hn : s.tpc + n ≤ s.trace.length) :
    GoodState (advance n s) :=
  { hg with tpcRange := hn }

/-- The event fetched lies inside the trace. -/
theorem fetch_event_inside {s : State} {i : Instr} {rest : List Word} (h : fetch s = .event i rest) :
    s.tpc + i.length ≤ s.trace.length := by
  obtain ⟨words, hdrop, hlen⟩ := decode_event_words h
  have hne : ¬ s.trace.length ≤ s.tpc := fun hle => by
    rw [fetch, List.drop_eq_nil_of_le hle] at h
    cases h
  have := congrArg List.length hdrop
  rw [List.length_drop, List.length_append, hlen] at this
  omega

/-- Every step keeps the invariant: the event does, and `tpc` stays inside the trace. -/
theorem step_good {s t : State} (hg : GoodState s) (h : step s = .next t) : GoodState t := by
  obtain ⟨i, rest, u, hfetch, -, e, rfl⟩ := step_cases h
  obtain ⟨-, htpc, htrace, -⟩ := effect_frame e
  refine (effect_good e hg).advance ?_
  rw [htpc, htrace]
  exact fetch_event_inside hfetch

/-- Settles O54. -/
theorem everyStepKeepsTheInvariant : Obligations.EveryStepKeepsTheInvariant := fun _ _ => step_good

/-- Every state a run reaches is good. -/
theorem reachable_good {s : State} (h : Reachable s) : GoodState s := by
  induction h with
  | start c t hc => exact loaded_good hc t
  | next _ _ _ hstep ih => exact step_good ih hstep

/-! ## What a run sends (X4) -/

theorem fbval_respond (kind : ResponseKind) (val : Word) (s : State) : fbval (respond kind val s) = fbval s := rfl

/-- The `FB` records of an event all carry `FBVAL` of the state before it. -/
theorem effect_fb_answers {i : Instr} {s t : State} (e : Effect i s t) :
    ∃ answers, t.out = s.out ++ answers ∧ ∀ r ∈ answers, r.kind = .fb → r.val = wrap32 (fbval s) := by
  cases e with
  | none => exact ⟨[], (List.append_nil _).symm, by simp⟩
  | sof => exact ⟨[], by rw [sofTick_out, List.append_nil], by simp⟩
  | capture => exact ⟨[], (List.append_nil _).symm, by simp⟩
  | powerLoss => exact ⟨[], (List.append_nil _).symm, by simp⟩
  | push => exact ⟨_, by rw [answerFill_out, pushFrames_out], by simp⟩
  | consume k =>
    obtain ⟨answers, hout, hword⟩ := consumeWords_answers k.toNat s
    exact ⟨answers, hout, fun r hr hfb => by rw [hword r hr] at hfb; cases hfb⟩
  | answer _ _ kind _ hk => exact ⟨_, rfl, by rcases hk with rfl | rfl <;> simp⟩
  | send => exact ⟨_, rfl, by simp⟩
  | resend => exact ⟨_, by rw [sendFeedback_out, respond_out, List.append_assoc], by simp [fbval_respond]⟩
  | _ => exact ⟨_, rfl, by simp⟩

/-- Settles O57: a record sent is `FBVAL`, which lies in the window around the `DEFRATE` of a good state; and a run stays in
good states. -/
theorem everyFeedbackSentIsInTheWindow : Obligations.EveryFeedbackSentIsInTheWindow := by
  refine ⟨fun s t r hg hstep hr hkind => ?_, fun s => reachable_good⟩
  obtain ⟨i, rest, u, -, -, e, rfl⟩ := step_cases hstep
  obtain ⟨answers, hout, hval⟩ := effect_fb_answers e
  rw [advance_out, hout, List.drop_left] at hr
  obtain ⟨q, hrate, -, hdefrate, -⟩ := hg.settings
  obtain ⟨h0, h24⟩ := fbval_fits hg.cfgWF hdefrate
  obtain ⟨hge, hle⟩ := fbval_range s
  have hsent := wrap32_toNat_cast h0 (by omega)
  rw [← hval r hr hkind] at hsent
  exact ⟨q, hrate, by omega, by omega, by omega⟩

end Sys2Proof.Machine
end

section
/-! Proofs of the buffer family (40_buffer_ops.md): `PUSH` (R90, R91, R96, R97), `CONSUME` (R92), `BUF_RESET` (R93), the split
of a sample (R94) and the byte adapter (R95). -/

namespace Sys2Proof.Machine

/-! ## `PUSH` (R90, R91, R96, R97) -/

theorem fill_answerFill (s : State) : fill (answerFill s) = fill s := rfl

/-- Settles O11. -/
theorem pushMovesThePointerAndAnswersTheFill : Obligations.PushMovesThePointerAndAnswersTheFill := by
  intro s fs h ha hw
  refine ⟨_, exec_push_active ha fs, pushFrames_wptr h hw _ fs, pushFrames_fill h _ fs, ?out, ?frame⟩
  case out => rw [answerFill_out, pushFrames_out, wrap32_natCast, fill_answerFill]
  case frame => exact (answerFill_eq_setOut _).trans (congrArg (setOut _) (pushFrames_frame s.muted fs s))

/-- The slots of frame `k`, where no later frame laps it, hold the frame as pushed (R57, R96 law 4). -/
theorem pushFrames_read_frame {s : State} (h : s.cfg.WF) (hw : s.wptr.toNat < s.cfg.capacity) (hb : s.buf.wf = true)
    (m : Bool) {fs : List Frame} {k : Nat} {f : Frame} (hk : fs[k]? = some f)
    (hlap : 4 * fs.length ≤ 4 * k + s.cfg.capacity) (j : Nat) (hj : j < 4) :
    some ((pushFrames m fs s).buf.read ((s.wptr.toNat + 4 * k + j) % s.cfg.capacity)) =
      (frameSlots s.cfg.split (mutedFrame m f))[j]? := by
  obtain ⟨hklt, -⟩ := List.getElem?_eq_some_iff.mp hk
  have hlen := pushedSlots_length s.cfg.split m fs
  have hread := pushSlots_read h hw hb (pushedSlots s.cfg.split m fs) (4 * k + j) (by omega) (by omega)
  rw [← pushedSlots_get s.cfg.split m fs k f hk j hj, pushFrames_buf, Nat.add_assoc, hread, List.getElem?_eq_getElem]

/-- A slot outside those pushed reads as before. -/
theorem pushFrames_read_outside {s : State} (h : s.cfg.WF) (hw : s.wptr.toNat < s.cfg.capacity) (hb : s.buf.wf = true)
    (m : Bool) {fs : List Frame} {a : Nat} (ha : ∀ q, q < 4 * fs.length → a ≠ (s.wptr.toNat + q) % s.cfg.capacity) :
    (pushFrames m fs s).buf.read a = s.buf.read a := by
  rw [pushFrames_buf]
  exact pushSlots_read_outside h hw hb _ a (by rwa [pushedSlots_length])

/-- Settles O12: the four slots of a frame are `frameSlots` of the frame as `mutedFrame` leaves it. -/
theorem pushPlacesItsFrames : Obligations.PushPlacesItsFrames := by
  intro s fs h ha hw hb
  refine ⟨_, exec_push_active ha fs, fun k f l r hk hlap hl hr => ?placed, fun a => pushFrames_read_outside h hw hb _⟩
  have hframe : mutedFrame s.muted f = ⟨l, r⟩ := by
    rw [hl, hr, mutedFrame]
    split <;> rfl
  have hslot := pushFrames_read_frame h hw hb s.muted hk hlap
  rw [hframe] at hslot
  exact ⟨Option.some.inj (hslot 0 (by omega)), Option.some.inj (hslot 1 (by omega)), Option.some.inj (hslot 2 (by omega)),
    Option.some.inj (hslot 3 (by omega))⟩

/-- `PLAYING` after the frames: set before, or the fill level at `HALF` or above after some frame (R91). -/
theorem pushFrames_playing_iff {s : State} (h : s.cfg.WF) (m : Bool) (fs : List Frame) :
    (pushFrames m fs s).playing = true ↔
      s.playing = true ∨ ∃ k, 1 ≤ k ∧ k ≤ fs.length ∧ s.cfg.half ≤ (fill s + 4 * k) % s.cfg.capacity := by
  induction fs generalizing s with
  | nil =>
    refine ⟨.inl, ?_⟩
    rintro (hp | ⟨k, h1, h0, -⟩)
    · exact hp
    · simp only [List.length_nil] at h0
      omega
  | cons f fs ih =>
    have hfill : ∀ k, (fill (pushFrame s (mutedFrame m f)) + 4 * k) % s.cfg.capacity =
        (fill s + 4 * (k + 1)) % s.cfg.capacity := fun k => by
      rw [pushFrame_fill h, Nat.mod_add_mod]
      congr 1
      omega
    have hplay : (pushFrame s (mutedFrame m f)).playing = true ↔
        s.playing = true ∨ s.cfg.half ≤ (fill s + 4 * 1) % s.cfg.capacity := by
      rw [pushFrame_playing, pushFrame_fill h, Bool.or_eq_true, decide_eq_true_eq]
    rw [pushFrames_cons, ih (by rwa [pushFrame_cfg]), pushFrame_cfg, hplay, or_assoc]
    refine or_congr_right ⟨?_, ?_⟩
    · rintro (hhalf | ⟨k, h1, hk, hhalf⟩)
      · exact ⟨1, le_rfl, by simp, hhalf⟩
      · exact ⟨k + 1, by omega, by simpa using hk, hfill k ▸ hhalf⟩
    · rintro ⟨k, h1, hk, hhalf⟩
      obtain ⟨k, rfl⟩ := Nat.exists_eq_add_of_le' h1
      rcases Nat.eq_zero_or_pos k with rfl | hpos
      · exact .inl hhalf
      · exact .inr ⟨k, hpos, by simpa using hk, (hfill k).symm ▸ hhalf⟩

/-- Settles O13. -/
theorem pushStartsPlayingAtHalf : Obligations.PushStartsPlayingAtHalf :=
  fun s fs h ha _ => ⟨_, exec_push_active ha fs, pushFrames_playing_iff h s.muted fs⟩

/-- Settles O14: the engine armed at index 0 and `WPTR` 0 make the fill level 0. -/
theorem pushWhileInactiveStoresNothing : Obligations.PushWhileInactiveStoresNothing := by
  intro s fs ha
  refine ⟨?ignored, fun hg => ?empty⟩
  case ignored => rw [exec_push_inactive ha, answerFill, wrap32_natCast]; rfl
  case empty =>
    obtain ⟨hwptr, hrem, -⟩ := hg.heldReset ha
    rw [fill_armed hg.cfgWF hrem hg.wptrRange, hwptr]
    rfl

/-! ### Muted and unmuted (R97) -/

/-- `s` with another `MUTED`. -/
def setMuted (m : Bool) (s : State) : State := { s with muted := m }

/-- Whatever is pushed, the pointer and `PLAYING` move alike: they depend on the number of frames only (R97). -/
theorem pushFrames_move_alike {s : State} (h : s.cfg.WF) (hw : s.wptr.toNat < s.cfg.capacity) (m : Bool)
    (fs : List Frame) :
    (pushFrames false fs (setMuted false s)).wptr = (pushFrames m fs s).wptr ∧
    (pushFrames false fs (setMuted false s)).playing = (pushFrames m fs s).playing ∧
    fill (pushFrames false fs (setMuted false s)) = fill (pushFrames m fs s) := by
  refine ⟨BitVec.eq_of_toNat_eq ?_, Bool.eq_iff_iff.mpr ?_, ?_⟩
  · exact (pushFrames_wptr (s := setMuted false s) h hw _ fs).trans (pushFrames_wptr h hw m fs).symm
  · exact (pushFrames_playing_iff (s := setMuted false s) h _ fs).trans (pushFrames_playing_iff h m fs).symm
  · exact (pushFrames_fill (s := setMuted false s) h _ fs).trans (pushFrames_fill h m fs).symm

theorem hiSlot_zero (sp : Split) : hiSlot sp 0 = 0 := by cases sp <;> rfl

theorem loSlot_zero (sp : Split) : loSlot sp 0 = 0 := by cases sp <;> rfl

theorem frameSlots_muted (sp : Split) (f : Frame) : frameSlots sp (mutedFrame true f) = [0, 0, 0, 0] := by
  simp only [frameSlots, mutedFrame, if_true, hiSlot_zero, loSlot_zero]

/-- A muted `PUSH` writes zero slots only (R94, R97). -/
theorem pushedSlots_muted_zero (sp : Split) (fs : List Frame) : ∀ x ∈ pushedSlots sp true fs, x = 0 := by
  induction fs with
  | nil => simp [pushedSlots]
  | cons f fs ih =>
    rw [pushedSlots_cons]
    intro x hx
    rcases List.mem_append.mp hx with hx | hx
    · rw [frameSlots_muted] at hx
      simpa using hx
    · exact ih x hx

theorem pushFrames_read_muted {s : State} (h : s.cfg.WF) (hw : s.wptr.toNat < s.cfg.capacity) (hb : s.buf.wf = true)
    {fs : List Frame} {q : Nat} (hq : q < 4 * fs.length) :
    (pushFrames true fs s).buf.read ((s.wptr.toNat + q) % s.cfg.capacity) = 0 := by
  rw [pushFrames_buf]
  exact pushSlots_read_zero h hw hb _ (pushedSlots_muted_zero _ fs) q (by rwa [pushedSlots_length])

/-- Settles O15: the slots written are zeros, and nothing else that moves depends on the samples. -/
theorem mutedPushWritesZerosAndMovesAlike : Obligations.MutedPushWritesZerosAndMovesAlike := by
  intro s fs h hm hw hb
  rcases Bool.eq_false_or_eq_true s.active with ha | ha
  · obtain ⟨hwptr, hplay, hfill⟩ := pushFrames_move_alike h hw true fs
    refine ⟨_, _, exec_push_active ha fs, exec_push_active (s := setMuted false s) ha fs, ?_⟩
    rw [hm]
    refine ⟨hwptr.symm, hplay.symm, ?out, fun _ q hq => pushFrames_read_muted h hw hb hq,
      fun a => pushFrames_read_outside h hw hb _, by simp [ha]⟩
    rw [answerFill_out, answerFill_out, pushFrames_out, pushFrames_out]
    exact congrArg (fun n : Nat => s.out ++ [⟨.fill, wrap32 n⟩]) hfill.symm
  · exact ⟨_, _, exec_push_inactive ha fs, exec_push_inactive (s := setMuted false s) ha fs, rfl, rfl, rfl, by simp [ha],
      fun _ _ => rfl, fun _ => rfl⟩

/-! ### `PUSH` events in a row (R96) -/

/-- Settles O16: pushing reads neither the log nor anything an answer changes. -/
theorem pushOfConcatenationSplits : Obligations.PushOfConcatenationSplits := by
  intro s fs gs
  cases ha : s.active with
  | true =>
    have ha' : (answerFill (pushFrames s.muted fs s)).active = true := (pushFrames_active s.muted fs s).trans ha
    have hsame : pushFrames (answerFill (pushFrames s.muted fs s)).muted gs (answerFill (pushFrames s.muted fs s)) =
        setOut (answerFill (pushFrames s.muted fs s)).out (pushFrames s.muted (fs ++ gs) s) := by
      rw [pushFrames_append, answerFill_muted, pushFrames_muted, answerFill_eq_setOut, pushFrames_setOut]
      rfl
    refine ⟨_, _, _, _, _, exec_push_active ha fs, exec_push_active ha' gs, exec_push_active ha (fs ++ gs),
      by rw [answerFill_out, pushFrames_out], by rw [answerFill_out, pushFrames_out], ?_, ?_⟩
    · rw [hsame]; rfl
    · rw [hsame]; rfl
  | false =>
    exact ⟨_, _, _, _, _, exec_push_inactive ha fs, exec_push_inactive (s := answerFill s) ha gs,
      exec_push_inactive ha (fs ++ gs), rfl, rfl, rfl, rfl⟩

/-- After any `PUSH` events the fill level has risen by 4 per frame, modulo `C` (R96 law 2, law 3). -/
theorem execAll_pushes {s : State} (ps : List (List Frame)) (h : s.cfg.WF) (ha : s.active = true)
    (hw : s.wptr.toNat < s.cfg.capacity) :
    ∃ t, execAll (ps.map .push) s = .next t ∧
      fill t = (fill s + 4 * (ps.map List.length).sum) % s.cfg.capacity ∧ t.wptr.toNat < s.cfg.capacity := by
  induction ps generalizing s with
  | nil => exact ⟨s, rfl, (Nat.mod_eq_of_lt (fill_lt h)).symm, hw⟩
  | cons fs ps ih =>
    have hcfg := pushFrames_cfg s.muted fs s
    have hwptr := pushFrames_wptr h hw s.muted fs
    obtain ⟨t, ht, hfill, hrange⟩ := ih (s := answerFill (pushFrames s.muted fs s)) (by rwa [answerFill_cfg, hcfg])
      ((pushFrames_active s.muted fs s).trans ha)
      (by rw [answerFill_wptr, hwptr, answerFill_cfg, hcfg]; exact Nat.mod_lt _ h.pos)
    rw [answerFill_cfg, hcfg] at hfill hrange
    refine ⟨t, ?_, ?_, hrange⟩
    · rw [List.map_cons, execAll, exec_push_active ha]
      exact ht
    · rw [hfill, fill_answerFill, pushFrames_fill h, Nat.mod_add_mod, List.map_cons, List.sum_cons, Nat.mul_add, Nat.add_assoc]

/-- Settles O17: `execAll_pushes` from an empty buffer. -/
theorem fillCountsPushedFramesModuloCapacity : Obligations.FillCountsPushedFramesModuloCapacity := by
  intro s ps h ha hw hr
  have hwptr : s.wptr.toNat = 0 := by rw [hw]; rfl
  have hlt : s.wptr.toNat < s.cfg.capacity := hwptr ▸ h.pos
  have hempty : fill s = 0 := (fill_armed h hr hlt).trans hwptr
  have hpush := execAll_pushes ps h ha hlt
  rwa [hempty, Nat.zero_add] at hpush

/-! ## `CONSUME` (R92) -/

/-- Settles O18. -/
theorem consumeAnswersTheNextWords : Obligations.ConsumeAnswersTheNextWords := by
  intro s k h hp h1 h2
  obtain ⟨h1', h2', hrptr⟩ := consumeWords_rptr h h1 h2 k.toNat
  have hcfg : (consumeWords k.toNat s).cfg = s.cfg := by rw [consumeWords_frame]
  have hindex : rptr (consumeWords k.toNat s) = s.cfg.capacity - (consumeWords k.toNat s).rem.toNat := by
    rw [rptr, hcfg, readIndex_of_range h1' h2']
  exact ⟨_, exec_consume_playing hp k, consumeWords_out h h1 h2 _, hrptr, by omega, consumeWords_frame _ s⟩

/-- Settles O19: word counts add, and consuming leaves `PLAYING`. -/
theorem consumeOfSumSplits : Obligations.ConsumeOfSumSplits := by
  intro s k l hsum
  cases hp : s.playing with
  | true =>
    refine ⟨_, _, exec_consume_playing hp k, exec_consume_playing ((consumeWords_playing k.toNat s).trans hp) l, ?_⟩
    rw [exec_consume_playing hp, BitVec.toNat_add, Nat.mod_eq_of_lt hsum, consumeWords_add]
  | false => exact ⟨_, _, exec_consume_stopped hp k, exec_consume_stopped hp l, exec_consume_stopped hp (k + l)⟩

/-! ## `BUF_RESET` (R93) -/

/-- Settles O21. -/
theorem bufResetZeroesBufferAndPointers : Obligations.BufResetZeroesBufferAndPointers := by
  intro s h
  have hrem : (bufReset s).rem.toNat = s.cfg.capacity := wrap32_capacity_toNat h
  exact ⟨fun _ => rfl, rfl, hrem, fill_armed (s := bufReset s) h hrem h.pos, rptr_armed (s := bufReset s) h hrem, rfl, rfl⟩

/-! ## The split of a sample (R94) -/

theorem hiSlot_toNat (v : Sample) :
    (hiSlot .leftJustified v).toNat = v.toNat / 2 ^ 8 ∧ (hiSlot .rightJustified v).toNat = v.toNat / 2 ^ 16 := by
  have := v.isLt
  constructor
  · rw [hiSlot, BitVec.extractLsb'_toNat, Nat.shiftRight_eq_div_pow]
    omega
  · rw [hiSlot, BitVec.toNat_append, BitVec.extractLsb'_toNat, Nat.shiftRight_eq_div_pow,
      show (0 : BitVec 8).toNat = 0 from rfl, Nat.zero_shiftLeft, Nat.zero_or]
    omega

theorem loSlot_toNat (v : Sample) :
    (loSlot .leftJustified v).toNat = v.toNat % 2 ^ 8 * 2 ^ 8 ∧ (loSlot .rightJustified v).toNat = v.toNat % 2 ^ 16 := by
  constructor
  · rw [loSlot, BitVec.toNat_append, BitVec.extractLsb'_toNat, Nat.shiftRight_eq_div_pow, Nat.shiftLeft_eq]
    simp
  · rw [loSlot, BitVec.extractLsb'_toNat, Nat.shiftRight_eq_div_pow, Nat.pow_zero, Nat.div_one]

/-- The two slots hold all 24 bits, in either split. -/
theorem sample_eq_of_slots {sp : Split} {a b : Sample} (hhi : hiSlot sp a = hiSlot sp b) (hlo : loSlot sp a = loSlot sp b) :
    a = b := by
  apply BitVec.eq_of_toNat_eq
  have hhi := congrArg BitVec.toNat hhi
  have hlo := congrArg BitVec.toNat hlo
  cases sp with
  | leftJustified =>
    rw [(hiSlot_toNat a).1, (hiSlot_toNat b).1] at hhi
    rw [(loSlot_toNat a).1, (loSlot_toNat b).1] at hlo
    omega
  | rightJustified =>
    rw [(hiSlot_toNat a).2, (hiSlot_toNat b).2] at hhi
    rw [(loSlot_toNat a).2, (loSlot_toNat b).2] at hlo
    omega

/-- Settles O22. -/
theorem splitDeterminesTheSample : Obligations.SplitDeterminesTheSample :=
  ⟨rfl, fun v => ⟨(hiSlot_toNat v).1, (loSlot_toNat v).1, (hiSlot_toNat v).2, (loSlot_toNat v).2⟩,
    fun sp => ⟨hiSlot_zero sp, loSlot_zero sp, fun _ _ => sample_eq_of_slots⟩⟩

/-! ## The byte adapter (R95) -/

theorem framesOfBytes_length (bs : List Byte) : (framesOfBytes bs).length = bs.length / 6 := by
  fun_induction framesOfBytes bs with
  | case1 l0 l1 l2 r0 r1 r2 bs ih => simp only [List.length_cons, ih]; omega
  | case2 bs hshort =>
    match bs, hshort with
    | [], _ | [_], _ | [_, _], _ | [_, _, _], _ | [_, _, _, _], _ | [_, _, _, _, _], _ => simp
    | a :: b :: c :: d :: e :: f :: bs, h => exact (h a b c d e f bs rfl).elim

/-- Frame `k` is the bytes `6k` to `6k + 5`, left before right, each sample little-endian. -/
theorem framesOfBytes_getElem? (bs : List Byte) {k : Nat} {f : Frame} (hk : (framesOfBytes bs)[k]? = some f) :
    ∃ b0 b1 b2 b3 b4 b5 : Byte,
      bs[6 * k]? = some b0 ∧ bs[6 * k + 1]? = some b1 ∧ bs[6 * k + 2]? = some b2 ∧
      bs[6 * k + 3]? = some b3 ∧ bs[6 * k + 4]? = some b4 ∧ bs[6 * k + 5]? = some b5 ∧
      f = ⟨le24 b0 b1 b2, le24 b3 b4 b5⟩ := by
  fun_induction framesOfBytes bs generalizing k with
  | case1 l0 l1 l2 r0 r1 r2 bs ih =>
    cases k with
    | zero => cases hk; exact ⟨_, _, _, _, _, _, rfl, rfl, rfl, rfl, rfl, rfl, rfl⟩
    | succ k => exact ih hk
  | case2 => cases hk

/-- Settles O23. -/
theorem byteAdapterMakesLittleEndianFrames : Obligations.ByteAdapterMakesLittleEndianFrames := by
  refine fun bs => ⟨framesOfBytes_length bs, fun k f hk => ?_⟩
  obtain ⟨b0, b1, b2, b3, b4, b5, h0, h1, h2, h3, h4, h5, rfl⟩ := framesOfBytes_getElem? bs hk
  exact ⟨b0, b1, b2, b3, b4, b5, h0, h1, h2, h3, h4, h5, le24_toNat b0 b1 b2, le24_toNat b3 b4 b5⟩

end Sys2Proof.Machine
end

section
/-! Proofs of the feedback family, continued (41_feedback_ops.md): `CAPTURE` (R100), `SOF` and its windows (R101, R105, R109),
`FB_TX` and `FB_INCOMPLETE` (R102, R103). -/

namespace Sys2Proof.Machine

/-! ## Single events (R100 to R103) -/

/-- A 24-bit operand zero-extended to a word. -/
theorem imm_setWidth_toNat (v : Imm) : (v.setWidth 32 : Word).toNat = v.toNat := by
  have := v.isLt
  rw [BitVec.toNat_setWidth, Nat.mod_eq_of_lt (by omega)]

/-- Settles O25. -/
theorem captureStoresTheCount : Obligations.CaptureStoresTheCount :=
  fun s v => ⟨_, exec_capture v s, imm_setWidth_toNat v, rfl⟩

/-- Settles O33. -/
theorem fbTxSendsWhatIsPending : Obligations.FbTxSendsWhatIsPending :=
  fun _ => ⟨fun hp => exec_fbTx_pending hp, exec_fbTx_idle⟩

/-- Settles O34: the flush adds its record and leaves `FBVAL` as it is. -/
theorem fbIncompleteFlushesAndResends : Obligations.FbIncompleteFlushesAndResends := by
  refine fun s => ⟨fun ha => ?resend, exec_fbIncomplete_inactive⟩
  rw [exec_fbIncomplete_active ha, sendFeedback_frame, respond_out, List.append_assoc]
  rfl

/-! ## One tick (R101) -/

theorem diffOf_eq (s : State) :
    diffOf s.cfg s.playing s.rem s.wptr = if s.playing = true then fill s else s.cfg.half := rfl

/-- `IN_TOL` after a tick: playing, and the fill level within `TOL` of `HALF`. -/
theorem sofTick_inTol_iff (s : State) :
    (sofTick s.rem s.wptr s).inTol = true ↔
      s.playing = true ∧ fill s ≤ s.cfg.half + 16 ∧ s.cfg.half ≤ fill s + 16 := by
  rw [sofTick_inTol, inTolerance, diffOf_eq, Bool.and_eq_true, decide_eq_true_eq]
  refine and_congr_right fun hp => ?_
  rw [if_pos hp, tolerance]
  omega

/-- Settles O26. -/
theorem sofCorrectsTowardHalf : Obligations.SofCorrectsTowardHalf := by
  refine fun s h ha => ⟨_, exec_sof_active ha, ?corr, sofTick_inTol_iff s, sofTick_frame _ _ s⟩
  rw [sofTick_corr, corrOf_toInt h (diffOf_lt h _ _ _), diffOf_eq]

/-- Settles O27: the increment's test decides between the closing tick and any other. -/
theorem sofAccumulatesAndClosesWindows : Obligations.SofAccumulatesAndClosesWindows := by
  refine fun s ha => ⟨_, exec_sof_active ha, ?_⟩
  split
  case isTrue hclose =>
    obtain ⟨hcurval, haccum, hsofcnt, hpending⟩ := sofTick_closing s.rem s.wptr hclose
    refine ⟨?_, haccum, hsofcnt, hpending⟩
    rw [hcurval, closingValue_toNat, sofAccumulate_toNat]
    rfl
  case isFalse hopen =>
    obtain ⟨hcurval, haccum, hsofcnt, hpending⟩ := sofTick_open s.rem s.wptr hopen
    exact ⟨hcurval, by rw [haccum, sofAccumulate_toNat], by rw [hsofcnt, sofCount_toNat], hpending⟩

/-! ## Counting the ticks of a stream (R105) -/

/-- While active, `SOFCNT` holds `n` modulo the window length `N`. -/
structure CountsTicks (N n : Nat) (s : State) : Prop where
  active : s.active = true
  window : N = 2 ^ s.shift.toNat
  short : N ≤ 2 ^ 15
  count : s.sofcnt.toNat = n % N

/-- A tick raises the count by 1, and sets `PENDING` exactly when `N` divides the new count. -/
theorem CountsTicks.sofTick {N n : Nat} {s : State} (hc : CountsTicks N n s) (rem wp : Word) :
    CountsTicks N (n + 1) (sofTick rem wp s) ∧
    ((sofTick rem wp s).pending = true ↔ s.pending = true ∨ (n + 1) % N = 0) := by
  obtain ⟨hcount, hpending⟩ := sofTick_window rem wp hc.window hc.short hc.count
  refine ⟨⟨?_, ?_, hc.short, hcount⟩, hpending⟩
  · rw [sofTick_frame]; exact hc.active
  · rw [sofTick_frame]; exact hc.window

/-- Every event but the two that deactivate counts a tick or leaves the count; with the transport silent, `PENDING` goes on
saying whether a window has closed. -/
theorem CountsTicks.exec {N n : Nat} {i : Instr} {s t : State} (hc : CountsTicks N n s) (ht : exec i s = .next t)
    (h0 : i ≠ .setAlt 0) (hf : ∀ x, i ≠ .forceInactive x) :
    CountsTicks N (n + [i].count .sof) t ∧
    (i ≠ .fbTx ∧ i ≠ .fbIncomplete → (s.pending = true ↔ N ≤ n) → (t.pending = true ↔ N ≤ n + [i].count .sof)) := by
  by_cases hs : i = .sof
  · subst hs
    rw [exec_sof_active hc.active] at ht
    cases ht
    obtain ⟨hcount, hpending⟩ := hc.sofTick s.rem s.wptr
    refine ⟨hcount, fun _ hp => ?_⟩
    have hpos : 0 < N := hc.window ▸ Nat.two_pow_pos _
    rw [hpending, hp, List.count_singleton_self]
    rcases Nat.lt_trichotomy (n + 1) N with hlt | heq | hgt
    · rw [Nat.mod_eq_of_lt hlt]
      omega
    · simp [heq]
    · omega
  · obtain ⟨hactive, -, hshift, hsofcnt, hpending⟩ := effect_while_active (effect_of_exec ht) hc.active hs h0 hf
    have hzero : [i].count .sof = 0 := List.count_eq_zero.mpr (by simpa [eq_comm] using hs)
    rw [hzero, Nat.add_zero]
    refine ⟨⟨hactive, hshift ▸ hc.window, hc.short, hsofcnt ▸ hc.count⟩, fun ⟨htx, hinc⟩ hp => ?_⟩
    rcases hpending with hkept | ⟨-, hfb | hfb⟩
    · rw [hkept, hp]
    · exact absurd hfb htx
    · exact absurd hfb hinc

/-- The same through a list of events. -/
theorem CountsTicks.execAll {N n : Nat} {s : State} (hc : CountsTicks N n s) {es : List Instr}
    (hes : ∀ i ∈ es, i ≠ .setAlt 0 ∧ ∀ x, i ≠ .forceInactive x) :
    ∃ t, execAll es s = .next t ∧ CountsTicks N (n + es.count .sof) t ∧
      ((∀ i ∈ es, i ≠ .fbTx ∧ i ≠ .fbIncomplete) → (s.pending = true ↔ N ≤ n) →
        (t.pending = true ↔ N ≤ n + es.count .sof)) := by
  induction es generalizing s n with
  | nil => exact ⟨s, rfl, hc, fun _ hp => hp⟩
  | cons i es ih =>
    obtain ⟨⟨h0, hf⟩, hes⟩ := List.forall_mem_cons.mp hes
    obtain ⟨u, hu, -⟩ := exec_effect i s
    obtain ⟨hcu, hpu⟩ := hc.exec hu h0 hf
    obtain ⟨t, ht, hct, hpt⟩ := ih hcu hes
    have hcount : n + (i :: es).count .sof = n + [i].count .sof + es.count .sof := by
      rw [Nat.add_assoc, ← List.count_append]
      rfl
    rw [hcount]
    refine ⟨t, by rw [Machine.execAll, hu]; exact ht, hct, fun hfb hp => ?_⟩
    obtain ⟨hi, hes⟩ := List.forall_mem_cons.mp hfb
    exact hpt hes (hpu hi hp)

/-- While active, only a tick sets `PENDING`. -/
theorem eq_sof_of_pending_set {i : Instr} {s t : State} (ha : s.active = true) (ht : exec i s = .next t)
    (hs : s.pending = false) (hp : t.pending = true) : i = .sof := by
  by_contra hne
  have h0 : i ≠ .setAlt 0 := by
    rintro rfl
    cases ht
    cases hp
  have hf : ∀ x, i ≠ .forceInactive x := by
    rintro x rfl
    cases ht
    cases hp
  obtain ⟨-, -, -, -, hkept | ⟨hclear, -⟩⟩ := effect_while_active (effect_of_exec ht) ha hne h0 hf
  · rw [hkept, hs] at hp; cases hp
  · rw [hclear] at hp; cases hp

/-- While active, only the transport's events and deactivation clear `PENDING`. -/
theorem transport_or_deactivating_of_pending_cleared {N n : Nat} {i : Instr} {s t : State} (hc : CountsTicks N n s) (ht : exec i s = .next t)
    (hs : s.pending = true) (hp : t.pending = false) :
    i = .fbTx ∨ i = .fbIncomplete ∨ i = .setAlt 0 ∨ ∃ x, i = .forceInactive x := by
  by_contra hno
  simp only [not_or, not_exists] at hno
  obtain ⟨htx, hinc, h0, hf⟩ := hno
  by_cases hsof : i = .sof
  · subst hsof
    rw [exec_sof_active hc.active] at ht
    cases ht
    rw [(hc.sofTick _ _).2.mpr (.inl hs)] at hp
    cases hp
  · obtain ⟨-, -, -, -, hkept | ⟨-, hfb | hfb⟩⟩ := effect_while_active (effect_of_exec ht) hc.active hsof h0 hf
    · rw [hkept, hs] at hp; cases hp
    · exact htx hfb
    · exact hinc hfb

/-- The count does not look at `PENDING`. -/
theorem CountsTicks.setPending {N n : Nat} {s : State} (hc : CountsTicks N n s) (p : Bool) :
    CountsTicks N n { s with pending := p } :=
  ⟨hc.active, hc.window, hc.short, hc.count⟩

/-- Settles O29: `CountsTicks` from the freshly reset state through all events, then one tick more. -/
theorem everyWindowClosesOnItsLastTick : Obligations.EveryWindowClosesOnItsLastTick := by
  intro s es h ha hshift hsofcnt hpending hes
  have hstart : CountsTicks (2 ^ s.cfg.shiftCfg) 0 s :=
    ⟨ha, by rw [hshift], Nat.pow_le_pow_right (by omega) h.shiftMax, by rw [hsofcnt, Nat.zero_mod]; rfl⟩
  obtain ⟨t, ht, hc, hp⟩ := hstart.execAll hes
  rw [Nat.zero_add] at hc hp
  have hcleared := hc.setPending false
  refine ⟨t, ht, hc.count, fun hfb => hp hfb ?start, ⟨_, exec_sof_active hc.active, (hc.sofTick _ _).2⟩,
    ⟨_, exec_sof_active hcleared.active, ?tick⟩, fun i u => eq_sof_of_pending_set hc.active,
    fun i u => transport_or_deactivating_of_pending_cleared hc⟩
  case start => rw [hpending]; simp
  case tick => rw [(hcleared.sofTick _ _).2]; simp

/-! ## The measurement of a window (R101, R109) -/

/-- The state after `TICK v` while active (R77): the capture, then the tick. -/
def afterTick (v : Imm) (s : State) : State := sofTick s.rem s.wptr { s with cap := v.setWidth 32 }

theorem execAll_ticks_cons {s : State} (ha : s.active = true) (v : Imm) (vs : List Imm) :
    execAll (ticks (v :: vs)) s = execAll (ticks vs) (afterTick v s) := by
  have hsof := exec_sof_active (s := { s with cap := v.setWidth 32 }) ha
  rw [ticks, List.flatMap_cons, expand, List.cons_append, List.cons_append, List.nil_append, execAll, exec_capture]
  dsimp only
  rw [execAll, hsof]
  rfl

theorem afterTick_frame (v : Imm) (s : State) :
    (afterTick v s).cfg = s.cfg ∧ (afterTick v s).active = s.active ∧ (afterTick v s).shift = s.shift := by
  rw [afterTick, sofTick_frame]
  exact ⟨rfl, rfl, rfl⟩

/-- The last tick of a window computes the measurement and starts the next window. -/
theorem afterTick_closing (v : Imm) {s : State} (hshift : s.shift.toNat ≤ 15)
    (hclose : s.sofcnt.toNat + 1 = 2 ^ s.shift.toNat) :
    (afterTick v s).curval.toNat = ((s.accum.toNat + v.toNat + windowExtra s.cfg [v]) * 2 ^ s.shift.toNat) % 2 ^ 32 ∧
    (afterTick v s).accum = 0 ∧ (afterTick v s).sofcnt = 0 ∧ (afterTick v s).pending = true := by
  have hle : 2 ^ s.shift.toNat ≤ 2 ^ 15 := Nat.pow_le_pow_right (by omega) hshift
  have hc : (s.sofcnt.toNat + 1) % 2 ^ 32 = 2 ^ s.shift.toNat := by rw [Nat.mod_eq_of_lt (by omega), hclose]
  obtain ⟨hcurval, hrest⟩ := sofTick_closing s.rem s.wptr (s := { s with cap := v.setWidth 32 }) hc
  refine ⟨?_, hrest⟩
  rw [afterTick, hcurval, closingValue_toNat, sofAccumulate_toNat, sofAccumulate_cap, sofAccumulate_cfg,
    sofAccumulate_shift, imm_setWidth_toNat, Nat.mul_mod, Nat.mod_add_mod, ← Nat.mul_mod]
  rfl

/-- Any other tick adds the capture and counts. -/
theorem afterTick_open (v : Imm) {s : State} (hshift : s.shift.toNat ≤ 15)
    (hopen : s.sofcnt.toNat + 1 < 2 ^ s.shift.toNat) :
    (afterTick v s).accum.toNat = (s.accum.toNat + v.toNat) % 2 ^ 32 ∧
    (afterTick v s).sofcnt.toNat = s.sofcnt.toNat + 1 := by
  have hle : 2 ^ s.shift.toNat ≤ 2 ^ 15 := Nat.pow_le_pow_right (by omega) hshift
  have ho : (s.sofcnt.toNat + 1) % 2 ^ 32 ≠ 2 ^ s.shift.toNat := by rw [Nat.mod_eq_of_lt (by omega)]; omega
  obtain ⟨-, haccum, hsofcnt, -⟩ := sofTick_open s.rem s.wptr (s := { s with cap := v.setWidth 32 }) ho
  rw [afterTick, haccum, hsofcnt, sofAccumulate_toNat, sofCount_toNat, imm_setWidth_toNat]
  exact ⟨rfl, Nat.mod_eq_of_lt (by dsimp only; omega)⟩

/-- The rest of a window, from a state that has accumulated `a` and has as many ticks left as there are captures. -/
theorem execAll_ticks_rest {s : State} {v : Imm} {vs : List Imm} {a : Nat} (ha : s.active = true)
    (hshift : s.shift.toNat ≤ 15) (hcount : s.sofcnt.toNat + (vs.length + 1) = 2 ^ s.shift.toNat)
    (haccum : s.accum.toNat = a % 2 ^ 32) :
    ∃ t, execAll (ticks (v :: vs)) s = .next t ∧ t.pending = true ∧ t.accum = 0 ∧ t.sofcnt = 0 ∧
      t.curval.toNat = ((a + captureSum (v :: vs) + windowExtra s.cfg (v :: vs)) * 2 ^ s.shift.toNat) % 2 ^ 32 := by
  rw [execAll_ticks_cons ha]
  induction vs generalizing s v a with
  | nil =>
    obtain ⟨hcurval, haccum', hsofcnt, hpending⟩ := afterTick_closing v hshift hcount
    refine ⟨_, rfl, hpending, haccum', hsofcnt, ?_⟩
    rw [hcurval, haccum, captureSum, List.map_singleton, List.sum_singleton, Nat.add_assoc, Nat.mul_mod,
      Nat.mod_add_mod, ← Nat.mul_mod, Nat.add_assoc]
  | cons w vs ih =>
    obtain ⟨hcfg, hactive, hshift'⟩ := afterTick_frame v s
    rw [List.length_cons] at hcount
    obtain ⟨haccum', hsofcnt'⟩ := afterTick_open v hshift (by omega)
    rw [haccum, Nat.mod_add_mod] at haccum'
    have hrest := ih (v := w) (hactive.trans ha) (hshift' ▸ hshift) (by rw [hsofcnt', hshift']; omega) haccum'
    rw [execAll_ticks_cons (hactive.trans ha)]
    rw [hcfg, hshift', Nat.add_assoc a] at hrest
    exact hrest

/-- A whole window, from a freshly started one. -/
theorem execAll_window {s : State} {vs : List Imm} (h : s.cfg.WF) (ha : s.active = true)
    (hshift : s.shift.toNat = s.cfg.shiftCfg) (hsofcnt : s.sofcnt = 0) (haccum : s.accum = 0)
    (hlen : vs.length = 2 ^ s.cfg.shiftCfg) :
    ∃ t, execAll (ticks vs) s = .next t ∧ t.pending = true ∧ t.accum = 0 ∧ t.sofcnt = 0 ∧
      t.curval.toNat = ((captureSum vs + windowExtra s.cfg vs) * 2 ^ s.cfg.shiftCfg) % 2 ^ 32 := by
  cases vs with
  | nil =>
    have := Nat.two_pow_pos s.cfg.shiftCfg
    simp only [List.length_nil] at hlen
    omega
  | cons v vs =>
    have hcount : s.sofcnt.toNat + (vs.length + 1) = 2 ^ s.shift.toNat := by
      rw [hsofcnt, hshift, ← hlen, List.length_cons]
      exact Nat.zero_add _
    have hwindow := execAll_ticks_rest (v := v) (a := 0) ha (hshift ▸ h.shiftMax) hcount (by rw [haccum]; rfl)
    rwa [Nat.zero_add, hshift] at hwindow

/-- Settles O30. -/
theorem windowMeasuresTheSumOfItsCaptures : Obligations.WindowMeasuresTheSumOfItsCaptures :=
  fun _ _ h ha hshift hsofcnt haccum hlen => execAll_window h ha hshift hsofcnt haccum hlen

theorem captureSum_le {vs : List Imm} {b : Nat} (h : ∀ v ∈ vs, v.toNat ≤ b) : captureSum vs ≤ vs.length * b := by
  have hsum := List.sum_le_card_nsmul (vs.map (·.toNat)) b (by simpa using h)
  rwa [List.length_map, smul_eq_mul] at hsum

theorem windowExtra_le {c : Config} {vs : List Imm} {b : Nat} (h : ∀ v ∈ vs, v.toNat ≤ b) : windowExtra c vs ≤ b := by
  unfold windowExtra
  split
  · cases hlast : vs.getLast? with
    | none => exact Nat.zero_le _
    | some v => exact h v (List.mem_of_getLast? hlast)
  · exact Nat.zero_le _

/-- `N` captures under the bound and the last one again, times `N`, stay below `2^32` (R109 (b)). -/
theorem window_lt_of_noWrapCapture {c : Config} {vs : List Imm} (hlen : vs.length = 2 ^ c.shiftCfg)
    (h : ∀ v ∈ vs, NoWrapCapture c v) : (captureSum vs + windowExtra c vs) * 2 ^ c.shiftCfg < 2 ^ 32 := by
  have hsum := captureSum_le h
  have hextra := windowExtra_le (c := c) h
  rw [hlen] at hsum
  have hbound := Nat.div_mul_le_self (2 ^ 32 - 1) ((2 ^ c.shiftCfg + 1) * 2 ^ c.shiftCfg)
  generalize (2 ^ 32 - 1) / ((2 ^ c.shiftCfg + 1) * 2 ^ c.shiftCfg) = b at *
  generalize 2 ^ c.shiftCfg = n at *
  calc (captureSum vs + windowExtra c vs) * n
      _ ≤ (n * b + b) * n := Nat.mul_le_mul_right n (Nat.add_le_add hsum hextra)
      _ = b * ((n + 1) * n) := by ring
      _ < 2 ^ 32 := by omega

/-- A 24-bit capture is under the bound for windows of up to 8 ticks. -/
theorem noWrapCapture_of_shiftCfg_le {c : Config} (h : c.shiftCfg ≤ 3) (v : Imm) : NoWrapCapture c v := by
  have hv := v.isLt
  unfold NoWrapCapture
  obtain h | h | h | h : c.shiftCfg = 0 ∨ c.shiftCfg = 1 ∨ c.shiftCfg = 2 ∨ c.shiftCfg = 3 := by omega
  all_goals rw [h]; omega

/-- Settles O31. -/
theorem boundedCapturesNeverWrap : Obligations.BoundedCapturesNeverWrap := by
  refine ⟨fun s vs h ha hshift hsofcnt haccum hlen hcap => ?_, fun c v hc => noWrapCapture_of_shiftCfg_le hc v⟩
  obtain ⟨t, ht, -, -, -, hcurval⟩ := execAll_window h ha hshift hsofcnt haccum hlen
  exact ⟨t, ht, hcurval.trans (Nat.mod_eq_of_lt (window_lt_of_noWrapCapture hlen hcap))⟩

end Sys2Proof.Machine
end

section
/-! Proofs of the control family, continued (42_control_ops.md): deactivation and activation (R121, R122), mute and rate (R123
to R126), the register window (10_state.md R40 to R42, R128), and what is ignored. -/

namespace Sys2Proof.Machine

/-! ## `DEACTIVATE` and `SET_ALT` (R121, R122) -/

/-- The two events that deactivate are the only ones to clear `ACTIVE` (R121). -/
theorem deactivating_of_active_cleared {i : Instr} {s t : State} (ht : exec i s = .next t) (ha : s.active = true)
    (ha' : t.active = false) : i = .setAlt 0 ∨ ∃ x, i = .forceInactive x := by
  by_contra hno
  simp only [not_or, not_exists] at hno
  by_cases hs : i = .sof
  · subst hs
    rw [exec_sof_active ha] at ht
    cases ht
    rw [sofTick_frame] at ha'
    exact absurd (ha.symm.trans ha') (by decide)
  · obtain ⟨hactive, -⟩ := effect_while_active (effect_of_exec ht) ha hs hno.1 hno.2
    rw [hactive] at ha'
    cases ha'

/-- Settles O36: deactivation computed, with `FB_RESET`'s two look-ups at the rate in force. -/
theorem deactivationResetsEverythingItOwns : Obligations.DeactivationResetsEverythingItOwns := by
  intro s r imm h hr
  obtain ⟨hdefrate, hshift⟩ := fbReset_defaults (s := bufReset { s with active := false, playing := false }) h hr
  have hrem : (deactivate s).rem.toNat = s.cfg.capacity := wrap32_capacity_toNat h
  exact ⟨_, exec_forceInactive imm s, rfl, rfl, rfl, ⟨rfl, hrem, rfl, rfl, rfl, rfl, rfl, rfl, rfl⟩, fun _ => rfl,
    hdefrate, hshift, rfl, rfl, fun _ _ => deactivating_of_active_cleared⟩

/-- Settles O37. -/
theorem setAltActivatesOnce : Obligations.SetAltActivatesOnce := by
  refine fun s => ⟨fun ha r h hr => ?activate, exec_setAlt_one_active, fun a h2 => ?malformed⟩
  case activate =>
    obtain ⟨hdefrate, hshift⟩ := fbReset_defaults
      (s := { s with rem := wrap32 s.cfg.capacity, active := true, playing := false }) h hr
    exact ⟨_, exec_setAlt_one_inactive ha, rfl, rfl, rfl, wrap32_capacity_toNat h, hdefrate, rfl, rfl, rfl, rfl, hshift, rfl,
      rfl, rfl⟩
  case malformed =>
    have h0 : a ≠ 0 := by rintro rfl; exact absurd h2 (by decide)
    have h1 : a ≠ 1 := by rintro rfl; exact absurd h2 (by decide)
    exact exec_setAlt_other h0 h1 s

/-! ## Mute and rate (R123 to R126) -/

theorem imm_beq_one (m : Imm) : (m == 1) = decide (m.toNat = 1) := by
  rw [Bool.eq_iff_iff, beq_iff_eq, decide_eq_true_eq, ← BitVec.toNat_inj]
  rfl

/-- Settles O38. -/
theorem setMuteSetsTheFlag : Obligations.SetMuteSetsTheFlag := by
  refine fun s m => ⟨fun h1 => ?_, fun h2 => exec_setMute_illegal h2 s⟩
  rw [exec_setMute_legal h1, imm_beq_one]
  rfl

theorem flagBit_setWidth (b : Bool) : (flagBit b).setWidth 32 = if b = true then 1 else 0 := by cases b <;> rfl

/-- Settles O39. -/
theorem getsAnswerTheCurrentValue : Obligations.GetsAnswerTheCurrentValue := by
  refine fun s imm => ⟨?current, fun h => ⟨exec_getMute_other h s, exec_getRate_other h s⟩⟩
  rintro rfl
  rw [exec_getMute_zero, exec_getRate_zero, flagBit_setWidth]
  exact ⟨rfl, rfl⟩

/-- Settles O40: the checks in the order of `exec`'s cases, then the commit. -/
theorem setRateChecksInOrder : Obligations.SetRateChecksInOrder := by
  refine fun s c r h => ⟨fun hr => exec_setRate_unsupported (rateOfHz_none.mpr hr) c s, fun q hq => ?_⟩
  have hmember := rateOfHz_some.mpr hq
  refine ⟨fun he => exec_setRate_same hmember he c, fun hne ha => exec_setRate_active hmember hne ha c, ?clkfail, ?commit⟩
  case clkfail =>
    rintro hne ha rfl
    exact exec_setRate_clkfail hmember hne ha
  case commit =>
    rintro hne ha rfl
    have hrate := imm_setWidth_toNat r
    obtain ⟨hdefrate, hshift⟩ := fbReset_defaults (s := { s with rate := r.setWidth 32 }) h (hrate.trans hq)
    exact ⟨_, exec_setRate_commit hmember hne ha, rfl, hrate, rfl, hdefrate, rfl, rfl, rfl, rfl, hshift, rfl, rfl, rfl⟩

/-! ## The register window (R40 to R42, R128) -/

/-- The 17 offsets of the window are the multiples of 4 up to 0x40 (R40). -/
theorem windowReg_isSome_iff (n : Nat) : (windowReg n).isSome = true ↔ n % 4 = 0 ∧ n ≤ 0x40 := by
  by_cases hn : n ≤ 0x40
  · have hlow : ∀ k : Fin 0x41, (windowReg k).isSome = true ↔ k.val % 4 = 0 ∧ k.val ≤ 0x40 := by decide
    exact hlow ⟨n, by omega⟩
  · have htop : ∀ p ∈ windowTable, p.1 ≤ 0x40 := by decide
    have hnone : windowReg n = none := List.lookup_eq_none_iff.mpr fun p hp => by
      have hne : n ≠ p.1 := by
        have := htop p hp
        omega
      simpa using hne
    simp [hnone, hn]

/-- Settles O41. -/
theorem regReadAnswersAtTheWindowOffsets : Obligations.RegReadAnswersAtTheWindowOffsets := by
  intro s off
  rw [← windowReg_isSome_iff]
  constructor
  · intro h
    obtain ⟨r, hr⟩ := Option.isSome_iff_exists.mp h
    exact ⟨_, exec_regRead_some hr s⟩
  · intro h
    exact exec_regRead_none (Option.not_isSome_iff_eq_none.mp h) s

/-- Settles O42: each offset of the list selects its register. -/
theorem regReadValuesFollowTheWindow : Obligations.RegReadValuesFollowTheWindow := by
  intro s p hp
  simp only [List.mem_cons, List.not_mem_nil, or_false] at hp
  rcases hp with rfl | rfl | rfl | rfl | rfl | rfl | rfl | rfl | rfl | rfl | rfl | rfl | rfl | rfl | rfl | rfl | rfl
  all_goals rfl

theorem rateCodeField_of_rate {rate : Word} {r : SampleRate} (h : rate.toNat = rateHz r) : rateCodeField rate = rateCode r := by
  rw [rateCodeField, rateOfHz_some.mpr h]

/-- Settles O43: at a member of `RATES` both registers are closed terms in their flags. -/
theorem statusRegistersHoldTheirFields : Obligations.StatusRegistersHoldTheirFields := by
  intro s r hr
  rw [streamStat, fbStat, rateCodeField_of_rate hr]
  generalize s.active = a, s.playing = p, s.muted = m, s.inTol = i, s.pending = q
  constructor
  · revert a p m
    cases r <;> decide
  · revert i q
    decide

/-! ## Ignored events (R92, R101, R129) -/

/-- Settles O45. -/
theorem idleEventsDoNothing : Obligations.IdleEventsDoNothing :=
  fun s => ⟨exec_nop s, exec_consume_stopped, exec_sof_inactive⟩

end Sys2Proof.Machine
end

section
/-! Proofs of the ownership family (10_state.md R24, R43, 60_exceptions.md R143, R147): which event writes and answers what,
and on what it depends. -/

namespace Sys2Proof.Machine

/-! ## Answers of the host's requests (R120) -/

/-- Settles O47: a request only answers, is rejected, or acts and acknowledges. -/
theorem everyHostRequestIsAnsweredOnce : Obligations.EveryHostRequestIsAnsweredOnce := by
  intro s i hi
  obtain ⟨t, ht, e⟩ := exec_effect i s
  refine ⟨t, ?_⟩
  cases e with
  | stall => exact ⟨_, ht, rfl, .inr (.inr rfl), fun _ => rfl⟩
  | answer _ _ _ _ hk =>
    rcases hk with rfl | rfl
    · exact ⟨_, ht, rfl, .inl rfl, nofun⟩
    · exact ⟨_, ht, rfl, .inr (.inl rfl), nofun⟩
  | idle | activate | mute | rate => exact ⟨_, ht, rfl, .inl rfl, nofun⟩
  | none _ _ hn => rcases hn with rfl | ⟨_, rfl, -⟩ | ⟨rfl, -⟩ | ⟨rfl, -⟩ | ⟨rfl, -⟩ <;> cases hi
  | ignoredPush | push | consume | sof | capture | powerLoss | send | resend => cases hi

/-! ## The two flags (R24) -/

/-- Only `SET_ALT 1` sets `ACTIVE` (R122). -/
theorem eq_setAlt_one_of_active_set {i : Instr} {s t : State} (e : Effect i s t) (hs : s.active = false)
    (ht : t.active = true) : i = .setAlt 1 := by
  cases e with
  | activate => rfl
  | push _ _ ha | sof _ ha => rw [hs] at ha; cases ha
  | consume => rw [consumeWords_frame] at ht; exact absurd (hs.symm.trans ht) (by decide)
  | idle | powerLoss => cases ht
  | _ => exact absurd (hs.symm.trans ht) (by decide)

/-- Only `PUSH` sets `PLAYING` (R91). -/
theorem eq_push_of_playing_set {i : Instr} {s t : State} (e : Effect i s t) (hs : s.playing = false)
    (ht : t.playing = true) : ∃ fs, i = .push fs := by
  cases e with
  | push fs => exact ⟨fs, rfl⟩
  | ignoredPush fs => exact ⟨fs, rfl⟩
  | consume _ _ hp => rw [hs] at hp; cases hp
  | sof => rw [sofTick_frame] at ht; exact absurd (hs.symm.trans ht) (by decide)
  | idle | activate | powerLoss => cases ht
  | _ => exact absurd (hs.symm.trans ht) (by decide)

/-- Only deactivation clears `PLAYING` (R121). -/
theorem deactivating_of_playing_cleared {i : Instr} {s t : State} (e : Effect i s t) (hpa : s.playing = true → s.active = true)
    (hs : s.playing = true) (ht : t.playing = false) : i = .setAlt 0 ∨ ∃ x, i = .forceInactive x := by
  cases e with
  | idle => exact .inl rfl
  | powerLoss x => exact .inr ⟨x, rfl⟩
  | activate _ ha => rw [hpa hs] at ha; cases ha
  | push fs => rw [answerFill_playing, pushFrames_playing_of_playing hs] at ht; cases ht
  | consume k => rw [consumeWords_playing, hs] at ht; cases ht
  | sof => rw [sofTick_frame] at ht; exact absurd (hs.symm.trans ht) (by decide)
  | _ => exact absurd (hs.symm.trans ht) (by decide)

/-- Settles O49. -/
theorem onlyTheirEventsMoveActiveAndPlaying : Obligations.OnlyTheirEventsMoveActiveAndPlaying :=
  ⟨fun _ hr => (reachable_good hr).playingActive,
    fun _ _ _ h => eq_setAlt_one_of_active_set (effect_of_exec h),
    fun _ _ _ h => deactivating_of_active_cleared h,
    fun _ _ _ h => eq_push_of_playing_set (effect_of_exec h),
    fun _ _ _ h => deactivating_of_playing_cleared (effect_of_exec h),
    fun _ => ⟨rfl, rfl⟩⟩

/-! ## The ownership table (R43, R147) -/

/-- The log is no piece of the table. -/
theorem samePiece_setOut (p : Piece) (o : List Response) {s t : State} (h : samePiece p s t) :
    samePiece p s (setOut o t) := by
  cases p <;> exact h

theorem samePiece_refl (p : Piece) (s : State) : samePiece p s s := by cases p <;> rfl

/-- Each event changes only the pieces the table lists for it. -/
theorem effect_writes_own_pieces {i : Instr} {s t : State} (e : Effect i s t) {p : Piece} (hp : mayWrite p i = false) :
    samePiece p s t := by
  cases e with
  | none => exact samePiece_refl p s
  | ignoredPush | answer | stall => exact samePiece_setOut p _ (samePiece_refl p s)
  | push fs =>
    refine samePiece_setOut p _ ?_
    rw [pushFrames_frame]
    cases p <;> cases hp <;> rfl
  | consume =>
    rw [consumeWords_frame]
    cases p <;> cases hp <;> rfl
  | sof =>
    rw [sofTick_frame]
    cases p <;> cases hp <;> rfl
  | _ => cases p <;> cases hp <;> rfl

/-- Settles O50. -/
theorem eventsWriteOnlyWhatTheirAgentOwns : Obligations.EventsWriteOnlyWhatTheirAgentOwns := by
  intro i s
  obtain ⟨t, ht, e⟩ := exec_effect i s
  obtain ⟨hcfg, htpc, htrace, hout⟩ := effect_frame e
  exact ⟨t, ht, fun _ => effect_writes_own_pieces e, hcfg, htrace, htpc, hout⟩

/-! ## The indicators (R38, R39) -/

/-- `s` with other indicators. -/
def setIndicators (a : Bool) (b c : Word) (s : State) : State := { s with inTol := a, rateInd := b, fbLast := c }

section
variable (a : Bool) (b c : Word)

theorem setIndicators_restore (s : State) :
    setIndicators s.inTol s.rateInd s.fbLast (setIndicators a b c s) = s := rfl

theorem pushSlots_setIndicators (ws : List Slot) (s : State) :
    ws.foldl pushSlot (setIndicators a b c s) = setIndicators a b c (ws.foldl pushSlot s) := by
  induction ws generalizing s with
  | nil => rfl
  | cons w ws ih => exact ih (pushSlot s w)

theorem pushFrame_setIndicators (f : Frame) (s : State) :
    pushFrame (setIndicators a b c s) f = setIndicators a b c (pushFrame s f) :=
  congrArg startCheck (pushSlots_setIndicators a b c (frameSlots s.cfg.split f) s)

theorem pushFrames_setIndicators (m : Bool) (fs : List Frame) (s : State) :
    pushFrames m fs (setIndicators a b c s) = setIndicators a b c (pushFrames m fs s) := by
  induction fs generalizing s with
  | nil => rfl
  | cons f fs ih => rw [pushFrames_cons, pushFrame_setIndicators, ih, pushFrames_cons]

theorem consumeWords_setIndicators (k : Nat) (s : State) :
    consumeWords k (setIndicators a b c s) = setIndicators a b c (consumeWords k s) := by
  induction k generalizing s with
  | zero => rfl
  | succ k ih => exact ih (consumeOne s)

theorem sofClose_setIndicators (s : State) : sofClose (setIndicators a b c s) = setIndicators a b c (sofClose s) := by
  have hclose : closesWindow (setIndicators a b c s) = closesWindow s := rfl
  rw [sofClose, sofClose, hclose]
  split <;> rfl

/-- A tick of a state with other indicators: it writes `IN_TOL` itself and keeps the other two. -/
theorem sofTick_setIndicators (rem wp : Word) (s : State) :
    sofTick rem wp (setIndicators a b c s) = setIndicators (sofTick rem wp s).inTol b c (sofTick rem wp s) :=
  congrArg (sofIndicate (diffOf s.cfg s.playing rem wp))
    (sofClose_setIndicators a b c (sofCount (sofAccumulate (sofCorrect (diffOf s.cfg s.playing rem wp) s))))

end

/-- Every event but a window read does the same whatever the indicators, case by case of `exec`. -/
theorem exec_setIndicators {i : Instr} (hread : ∀ off, i ≠ .regRead off) (a : Bool) (b c : Word) (s : State) :
    ∃ t u, exec i s = .next t ∧ exec i (setIndicators a b c s) = .next u ∧
      setIndicators t.inTol t.rateInd t.fbLast u = t := by
  cases i with
  | regRead off => exact absurd rfl (hread off)
  | nop | capture | forceInactive | ctlBad | ctlUnimpl49 | ctlUnimpl4A | ctlUnimpl4C => exact ⟨_, _, rfl, rfl, rfl⟩
  | push fs =>
    rcases Bool.eq_false_or_eq_true s.active with ha | ha
    · refine ⟨_, _, exec_push_active ha fs, exec_push_active (s := setIndicators a b c s) ha fs, ?_⟩
      rw [pushFrames_setIndicators]
      exact setIndicators_restore a b c (answerFill _)
    · exact ⟨_, _, exec_push_inactive ha fs, exec_push_inactive (s := setIndicators a b c s) ha fs, rfl⟩
  | consume k =>
    rcases Bool.eq_false_or_eq_true s.playing with hp | hp
    · refine ⟨_, _, exec_consume_playing hp k, exec_consume_playing (s := setIndicators a b c s) hp k, ?_⟩
      rw [consumeWords_setIndicators]
      exact setIndicators_restore _ _ _ _
    · exact ⟨_, _, exec_consume_stopped hp k, exec_consume_stopped (s := setIndicators a b c s) hp k, rfl⟩
  | sof =>
    rcases Bool.eq_false_or_eq_true s.active with ha | ha
    · refine ⟨_, _, exec_sof_active ha, exec_sof_active (s := setIndicators a b c s) ha, ?_⟩
      rw [sofTick_setIndicators]
      exact setIndicators_restore _ _ _ _
    · exact ⟨_, _, exec_sof_inactive ha, exec_sof_inactive (s := setIndicators a b c s) ha, rfl⟩
  | setAlt x =>
    by_cases h0 : x = 0
    · subst h0
      exact ⟨_, _, exec_setAlt_zero s, exec_setAlt_zero _, rfl⟩
    by_cases h1 : x = 1
    · subst h1
      rcases Bool.eq_false_or_eq_true s.active with ha | ha
      · exact ⟨_, _, exec_setAlt_one_active ha, exec_setAlt_one_active (s := setIndicators a b c s) ha, rfl⟩
      · exact ⟨_, _, exec_setAlt_one_inactive ha, exec_setAlt_one_inactive (s := setIndicators a b c s) ha, rfl⟩
    · exact ⟨_, _, exec_setAlt_other h0 h1 s, exec_setAlt_other h0 h1 _, rfl⟩
  | setMute m =>
    by_cases hm : m.toNat ≤ 1
    · exact ⟨_, _, exec_setMute_legal hm s, exec_setMute_legal hm _, rfl⟩
    · exact ⟨_, _, exec_setMute_illegal (by omega) s, exec_setMute_illegal (by omega) _, rfl⟩
  | getMute m =>
    by_cases h : m = 0
    · subst h
      exact ⟨_, _, exec_getMute_zero s, exec_getMute_zero _, rfl⟩
    · exact ⟨_, _, exec_getMute_other h s, exec_getMute_other h _, rfl⟩
  | getRate m =>
    by_cases h : m = 0
    · subst h
      exact ⟨_, _, exec_getRate_zero s, exec_getRate_zero _, rfl⟩
    · exact ⟨_, _, exec_getRate_other h s, exec_getRate_other h _, rfl⟩
  | setRate f r =>
    cases hq : rateOfHz r.toNat with
    | none => exact ⟨_, _, exec_setRate_unsupported hq f s, exec_setRate_unsupported hq f _, rfl⟩
    | some q =>
      by_cases he : r.toNat = s.rate.toNat
      · exact ⟨_, _, exec_setRate_same hq he f, exec_setRate_same (s := setIndicators a b c s) hq he f, rfl⟩
      rcases Bool.eq_false_or_eq_true s.active with ha | ha
      · exact ⟨_, _, exec_setRate_active hq he ha f, exec_setRate_active (s := setIndicators a b c s) hq he ha f, rfl⟩
      cases f with
      | true => exact ⟨_, _, exec_setRate_clkfail hq he ha, exec_setRate_clkfail (s := setIndicators a b c s) hq he ha, rfl⟩
      | false => exact ⟨_, _, exec_setRate_commit hq he ha, exec_setRate_commit (s := setIndicators a b c s) hq he ha, rfl⟩
  | fbTx =>
    rcases Bool.eq_false_or_eq_true s.pending with hp | hp
    · exact ⟨_, _, exec_fbTx_pending hp, exec_fbTx_pending (s := setIndicators a b c s) hp, rfl⟩
    · exact ⟨_, _, exec_fbTx_idle hp, exec_fbTx_idle (s := setIndicators a b c s) hp, rfl⟩
  | fbIncomplete =>
    rcases Bool.eq_false_or_eq_true s.active with ha | ha
    · exact ⟨_, _, exec_fbIncomplete_active ha, exec_fbIncomplete_active (s := setIndicators a b c s) ha, rfl⟩
    · exact ⟨_, _, exec_fbIncomplete_inactive ha, exec_fbIncomplete_inactive (s := setIndicators a b c s) ha, rfl⟩

/-- Settles O51. -/
theorem indicatorsInfluenceNothing : Obligations.IndicatorsInfluenceNothing :=
  fun _ s a b c hread => exec_setIndicators hread a b c s

/-! ## The enables (R143) -/

/-- Settles O52: the four enables are the tests of `exec`; the other sources are always enabled. -/
theorem disabledSourcesAreIgnored : Obligations.DisabledSourcesAreIgnored := by
  intro s i src hi hoff
  cases i with
  | nop => cases hi
  | push fs => cases hi; exact ⟨_, exec_push_inactive hoff fs, rfl, fun h => absurd rfl h⟩
  | consume k => cases hi; exact ⟨_, exec_consume_stopped hoff k, rfl, fun _ => rfl⟩
  | sof => cases hi; exact ⟨_, exec_sof_inactive hoff, rfl, fun _ => rfl⟩
  | fbTx => cases hi; exact ⟨_, exec_fbTx_idle hoff, rfl, fun _ => rfl⟩
  | fbIncomplete => cases hi; exact ⟨_, exec_fbIncomplete_inactive hoff, rfl, fun _ => rfl⟩
  | _ => cases hi; cases hoff

end Sys2Proof.Machine
end

section
/-! Proofs of the micro-step family (20_memory.md R60, R61, 42_control_ops.md R128): uninterrupted micro steps are the event,
interrupted ones mix two readings, readers do not disturb a `PUSH`, and what excludes what. -/

namespace Sys2Proof.Machine

/-! ## Schedules -/

theorem microRun_append (as bs : List Micro) (m : MicroState) :
    microRun (as ++ bs) m = (microRun as m).bind (microRun bs) := by
  induction as generalizing m with
  | nil => rfl
  | cons a as ih =>
    rw [List.cons_append, microRun, microRun]
    cases microStep a m with
    | none => rfl
    | some m' => exact ih m'

theorem microRun_cons_some {a : Micro} {as : List Micro} {m n : MicroState} (h : microRun (a :: as) m = some n) :
    ∃ m', microStep a m = some m' ∧ microRun as m' = some n := by
  rw [microRun] at h
  cases hs : microStep a m with
  | none => rw [hs] at h; cases h
  | some m' => rw [hs] at h; exact ⟨m', rfl, h⟩

/-! ## The slots of a `PUSH`, one by one (R60) -/

/-- One slot, `left` slots before the end; after a frame's last one, the start transition. -/
def slotStep (left : Nat) (w : Slot) (s : State) : State :=
  if left % slotsPerFrame = 0 then startCheck (pushSlot s w) else pushSlot s w

theorem slotStep_last {left : Nat} (h : left % 4 = 0) (w : Slot) (s : State) :
    slotStep left w s = startCheck (pushSlot s w) := if_pos h

theorem slotStep_inner {left : Nat} (h : left % 4 ≠ 0) (w : Slot) (s : State) : slotStep left w s = pushSlot s w :=
  if_neg h

/-- The slots still to write, one after the other. -/
def pushRest : List Slot → State → State
  | [], s => s
  | w :: ws, s => pushRest ws (slotStep ws.length w s)

theorem microStep_pushNext {m : MicroState} {w : Slot} {ws : List Slot} (h : m.push = some ⟨w :: ws⟩) :
    microStep .pushNext m = some { m with st := slotStep ws.length w m.st, push := some ⟨ws⟩ } := by
  simp only [microStep, h]
  rfl

theorem microStep_pushEnd {m : MicroState} (h : m.push = some ⟨[]⟩) :
    microStep .pushEnd m = some { m with st := answerFill m.st, push := none } := by
  simp only [microStep, h]

/-- A frame's four slots, with whole frames after them, are `pushFrame`. -/
theorem pushRest_frame (s : State) (f : Frame) {ws : List Slot} (h : ws.length % 4 = 0) :
    pushRest (frameSlots s.cfg.split f ++ ws) s = pushRest ws (pushFrame s f) := by
  have h1 : (ws.length + 1) % 4 ≠ 0 := by omega
  have h2 : (ws.length + 1 + 1) % 4 ≠ 0 := by omega
  have h3 : (ws.length + 1 + 1 + 1) % 4 ≠ 0 := by omega
  simp only [frameSlots, List.cons_append, List.nil_append, pushRest, List.length_cons, slotStep_last h, slotStep_inner h1,
    slotStep_inner h2, slotStep_inner h3]
  rfl

/-- The slots of a `PUSH`, one by one, are its frame loop. -/
theorem pushRest_pushedSlots (m : Bool) (fs : List Frame) (s : State) :
    pushRest (pushedSlots s.cfg.split m fs) s = pushFrames m fs s := by
  induction fs generalizing s with
  | nil => rfl
  | cons f fs ih =>
    have hlen : (pushedSlots s.cfg.split m fs).length % 4 = 0 := by
      rw [pushedSlots_length]
      omega
    rw [pushedSlots_cons, pushRest_frame _ _ hlen, pushFrames_cons, ← ih, pushFrame_cfg]

/-- The slot steps of a `PUSH` without interruption. -/
theorem microRun_pushNexts (ws : List Slot) (bs : List Micro) (m : MicroState) (h : m.push = some ⟨ws⟩) :
    microRun (List.replicate ws.length .pushNext ++ bs) m =
      microRun bs { m with st := pushRest ws m.st, push := some ⟨[]⟩ } := by
  induction ws generalizing m with
  | nil =>
    rw [← h]
    rfl
  | cons w ws ih =>
    rw [List.length_cons, List.replicate_succ, List.cons_append, microRun, microStep_pushNext h]
    exact ih _ rfl

theorem microStep_pushBegin_active {m : MicroState} (hm : m.push = none) (ha : m.st.active = true) (fs : List Frame) :
    microStep (.pushBegin fs) m = some { m with push := some ⟨pushedSlots m.st.cfg.split m.st.muted fs⟩ } := by
  simp only [microStep, hm, Option.isSome_none, Bool.false_eq_true, if_false, if_pos ha]

theorem microRun_pushSchedule {s : State} (ha : s.active = true) (fs : List Frame) :
    microRun (pushSchedule fs) (.idle s) = some (.idle (answerFill (pushFrames s.muted fs s))) := by
  rw [pushSchedule, microRun, microStep_pushBegin_active (m := .idle s) rfl ha, ← pushRest_pushedSlots s.muted fs s,
    slotsPerFrame, ← pushedSlots_length s.cfg.split s.muted fs]
  exact microRun_pushNexts (pushedSlots s.cfg.split s.muted fs) [.pushEnd] _ rfl

theorem microRun_tickSchedule {s : State} (ha : s.active = true) :
    microRun tickSchedule (.idle s) = some (.idle (sofTick s.rem s.wptr s)) := by
  simp [tickSchedule, microRun, microStep, MicroState.idle, ha]

/-- The two derived registers by their offsets. -/
theorem windowReg_of_derived {off : Imm} (h : off = 0x14 ∨ off = 0x18) :
    ∃ r, windowReg off.toNat = some r ∧ isDerived r = true ∧ (off = 0x14 ∧ r = .bufRptr ∨ off = 0x18 ∧ r = .bufFill) := by
  rcases h with rfl | rfl
  · exact ⟨.bufRptr, rfl, rfl, .inl ⟨rfl, rfl⟩⟩
  · exact ⟨.bufFill, rfl, rfl, .inr ⟨rfl, rfl⟩⟩

/-- With both readings taken at once, a derived register reads as the window says. -/
theorem lookValue_same_state (r : WindowReg) (s : State) : lookValue r s.rem s.wptr s = windowValue r s := by
  cases r <;> rfl

theorem microStep_lookRead {m : MicroState} {off : Imm} {r : WindowReg} (hm : m.look = none)
    (hr : windowReg off.toNat = some r) (hd : isDerived r = true) :
    microStep (.lookRead off) m = some { m with look := some (r, m.st.rem) } := by
  simp only [microStep, hm, hr, hd, Option.isSome_none, Bool.false_eq_true, if_false, if_true]

theorem microRun_look {s : State} {off : Imm} {r : WindowReg} (hr : windowReg off.toNat = some r)
    (hd : isDerived r = true) :
    microRun [.lookRead off, .lookEnd] (.idle s) = some (.idle (respond .data (windowValue r s) s)) := by
  rw [microRun, microStep_lookRead (m := .idle s) rfl hr hd, ← lookValue_same_state]
  rfl

/-! ## Interrupted readings (R61, R128) -/

/-- What `tickRead` leaves, in an active state. -/
theorem microStep_tickRead_some {m m' : MicroState} (ha : m.st.active = true) (h : microStep .tickRead m = some m') :
    m' = { m with tick := some m.st.rem } := by
  cases ht : m.tick with
  | some rem => simp [microStep, ht] at h
  | none =>
    simp only [microStep, ht, Option.isSome_none, Bool.false_eq_true, if_false, if_pos ha, Option.some.injEq] at h
    exact h.symm

theorem microStep_lookRead_some {m m' : MicroState} {off : Imm} {r : WindowReg} (hr : windowReg off.toNat = some r)
    (hd : isDerived r = true) (h : microStep (.lookRead off) m = some m') :
    m' = { m with look := some (r, m.st.rem) } := by
  cases hl : m.look with
  | some reading => simp [microStep, hl] at h
  | none =>
    rw [microStep_lookRead hl hr hd] at h
    exact (Option.some.inj h).symm

theorem microRun_cfg {acts : List Micro} {m n : MicroState} (h : microRun acts m = some n) : n.st.cfg = m.st.cfg :=
  microRun_keeps (p := fun k => k.st.cfg = m.st.cfg) (fun _ _ _ _ hk hs => (microStep_cfg hs).trans hk) h rfl

theorem fillOf_cast {c : Config} (h : c.WF) (rem wp : Word) :
    (fillOf c rem wp : Int) = ((wp.toNat : Int) - readIndex c rem) % c.capacity := modC_cast h _

/-- `CORR` of a tick, from the `REM` of one moment and the `WPTR` and `PLAYING` of another. -/
theorem sofTick_corr_toInt {s : State} (h : s.cfg.WF) (rem wp : Word) :
    (sofTick rem wp s).corr.toInt = ((s.cfg.half : Int) - (if s.playing = true
      then ((wp.toNat : Int) - readIndex s.cfg rem) % s.cfg.capacity else s.cfg.half)) * s.cfg.scale := by
  rw [sofTick_corr, corrOf_toInt h (diffOf_lt h _ _ _), diffOf]
  split
  · rw [fillOf_cast h]
  · rfl

/-- An interrupted `SOF` (R61). -/
theorem interrupted_sof {m n : MicroState} {between : List Micro} (h : m.st.cfg.WF) (ha : m.st.active = true)
    (hb : ∀ a ∈ between, a ≠ .tickEnd) (hrun : microRun (.tickRead :: between) m = some n) :
    ∃ t, microStep .tickEnd n = some { n with st := t, tick := none } ∧ t = sofTick m.st.rem n.st.wptr n.st ∧
      t.corr.toInt = ((m.st.cfg.half : Int) - (if n.st.playing = true
        then ((n.st.wptr.toNat : Int) - rptr m.st) % m.st.cfg.capacity else m.st.cfg.half)) * m.st.cfg.scale := by
  have hcfg := microRun_cfg hrun
  obtain ⟨m', hread, hrest⟩ := microRun_cons_some hrun
  obtain rfl := microStep_tickRead_some ha hread
  have htick : n.tick = some m.st.rem :=
    microRun_keeps (p := fun k => k.tick = some m.st.rem) (fun a hm _ _ hk hs => microStep_tick hs hk (hb a hm)) hrest rfl
  have hcorr := sofTick_corr_toInt (hcfg ▸ h) m.st.rem n.st.wptr
  rw [hcfg] at hcorr
  exact ⟨_, by simp only [microStep, htick], rfl, hcorr⟩

/-- An interrupted read of a derived register (R128). -/
theorem interrupted_look {m n : MicroState} {between : List Micro} {off : Imm} (h : m.st.cfg.WF)
    (hoff : off = 0x14 ∨ off = 0x18) (hb : ∀ a ∈ between, a ≠ .lookEnd)
    (hrun : microRun (.lookRead off :: between) m = some n) :
    ∃ v : Word, microStep .lookEnd n =
        some { n with st := { n.st with out := n.st.out ++ [⟨.data, v⟩] }, look := none } ∧
      (v.toNat : Int) = if off = 0x14 then (rptr m.st : Int)
        else ((n.st.wptr.toNat : Int) - rptr m.st) % m.st.cfg.capacity := by
  have hcfg := microRun_cfg hrun
  obtain ⟨r, hr, hd, hwhich⟩ := windowReg_of_derived hoff
  obtain ⟨m', hread, hrest⟩ := microRun_cons_some hrun
  obtain rfl := microStep_lookRead_some hr hd hread
  have hlook : n.look = some (r, m.st.rem) :=
    microRun_keeps (p := fun k => k.look = some (r, m.st.rem)) (fun a hm _ _ hk hs => microStep_look hs hk (hb a hm)) hrest
      rfl
  have hC := h.lt
  refine ⟨_, by simp only [microStep, hlook]; rfl, ?_⟩
  rcases hwhich with ⟨rfl, rfl⟩ | ⟨rfl, rfl⟩
  · have hlt : readIndex m.st.cfg m.st.rem < m.st.cfg.capacity := rptr_lt h
    rw [lookValue, hcfg, if_pos rfl]
    exact congrArg _ (wrap32_toNat_of_lt (by omega))
  · have hlt := fillOf_lt h m.st.rem n.st.wptr
    rw [lookValue, hcfg, wrap32_toNat_of_lt (by omega), fillOf_cast h, if_neg (by decide)]
    rfl

/-- Settles O58. -/
theorem microStepsAreTheEventOrMixTwoReads : Obligations.MicroStepsAreTheEventOrMixTwoReads := by
  refine ⟨fun s fs => ⟨fun ha => ⟨_, exec_push_active ha fs, microRun_pushSchedule ha fs⟩,
    fun ha => ⟨_, exec_sof_active ha, microRun_tickSchedule ha⟩, fun off hoff => ?look,
    fun ha => ⟨_, exec_push_inactive ha fs, ?ignoredPush⟩, fun ha => ⟨exec_sof_inactive ha, ?ignoredSof⟩⟩,
    fun m n between h ha hb hrun => interrupted_sof h ha hb hrun,
    fun m n between off h hoff hb hrun => interrupted_look h hoff hb hrun⟩
  case look =>
    obtain ⟨r, hr, hd, -⟩ := windowReg_of_derived hoff
    exact ⟨_, exec_regRead_some hr s, microRun_look hr hd⟩
  case ignoredPush => simp [microRun, microStep, MicroState.idle, ha]
  case ignoredSof => simp [microRun, microStep, MicroState.idle, ha]

/-! ## Readers inside a `PUSH` (R60) -/

/-- Two states that a `PUSH` cannot tell apart: `REM` matters to it only until `PLAYING` is set. -/
structure SamePush (r s : State) : Prop where
  cfg : r.cfg = s.cfg
  buf : r.buf = s.buf
  wptr : r.wptr = s.wptr
  playing : r.playing = s.playing
  rem : s.playing = false → r.rem = s.rem

theorem SamePush.refl (s : State) : SamePush s s := ⟨rfl, rfl, rfl, rfl, fun _ => rfl⟩

theorem SamePush.pushSlot {r s : State} (h : SamePush r s) (w : Slot) : SamePush (pushSlot r w) (pushSlot s w) := by
  obtain ⟨hcfg, hbuf, hwptr, hplaying, hrem⟩ := h
  refine ⟨hcfg, ?_, ?_, hplaying, hrem⟩
  · rw [pushSlot_buf, pushSlot_buf, writeIndex, writeIndex, hcfg, hbuf, hwptr]
  · rw [pushSlot_wptr, pushSlot_wptr, nextWptr, nextWptr, hcfg, hwptr]

theorem SamePush.startCheck {r s : State} (h : SamePush r s) : SamePush (startCheck r) (startCheck s) := by
  obtain ⟨hcfg, hbuf, hwptr, hplaying, hrem⟩ := h
  have hstart : (Machine.startCheck r).playing = (Machine.startCheck s).playing := by
    rw [startCheck_playing, startCheck_playing, startsPlaying, startsPlaying, hplaying]
    cases hp : s.playing with
    | true => rfl
    | false => rw [fill, fill, hcfg, hwptr, hrem hp]
  refine ⟨hcfg, hbuf, hwptr, hstart, fun hp => hrem ?_⟩
  rw [startCheck_playing, Bool.or_eq_false_iff] at hp
  exact hp.1

theorem SamePush.slotStep {r s : State} (h : SamePush r s) (left : Nat) (w : Slot) :
    SamePush (slotStep left w r) (slotStep left w s) := by
  unfold Machine.slotStep
  split
  · exact (h.pushSlot w).startCheck
  · exact h.pushSlot w

theorem SamePush.sofTick {r s : State} (h : SamePush r s) (rem wp : Word) : SamePush r (sofTick rem wp s) := by
  rw [sofTick_frame]
  exact ⟨h.cfg, h.buf, h.wptr, h.playing, h.rem⟩

/-- A reader's event: only `CONSUME` moves what a `PUSH` reads, and only while playing. -/
theorem SamePush.reader {r s t : State} {i : Instr} (h : SamePush r s) (hi : isReader i = true) (ht : exec i s = .next t) :
    SamePush r t := by
  have e := effect_of_exec ht
  cases e with
  | none => exact h
  | sof => exact h.sofTick _ _
  | consume k _ hp =>
    rw [consumeWords_frame]
    exact ⟨h.cfg, h.buf, h.wptr, h.playing, fun hn => absurd (hp.symm.trans hn) (by decide)⟩
  | answer | stall | capture => exact ⟨h.cfg, h.buf, h.wptr, h.playing, h.rem⟩
  | ignoredPush | push | idle | activate | mute | rate | powerLoss | send | resend => cases hi

/-- A `PUSH` under way that will end where the whole one, ending in `target`, would. -/
def PushTowards (target : State) (m : MicroState) : Prop :=
  ∃ ws r, m.push = some ⟨ws⟩ ∧ SamePush r m.st ∧ pushRest ws r = target

/-- The micro steps allowed inside the `PUSH`: its own slots, and those of reading agents. -/
def AllowedInsidePush (a : Micro) : Prop :=
  a = .pushNext ∨ a = .tickRead ∨ a = .tickEnd ∨ (∃ off, a = .lookRead off) ∨ a = .lookEnd ∨
    ∃ i, a = .whole i ∧ isReader i = true

theorem pushTowards_pushNext {target : State} {m n : MicroState} (hm : PushTowards target m)
    (h : microStep .pushNext m = some n) : PushTowards target n := by
  obtain ⟨ws, r, hpush, hsame, htarget⟩ := hm
  cases ws with
  | nil => simp [microStep, hpush] at h
  | cons w ws =>
    rw [microStep_pushNext hpush] at h
    cases h
    exact ⟨ws, _, rfl, hsame.slotStep ws.length w, htarget⟩

/-- Every allowed micro step keeps the `PUSH` on its way. -/
theorem pushTowards_microStep {target : State} {a : Micro} {m n : MicroState} (ha : AllowedInsidePush a)
    (hm : PushTowards target m) (h : microStep a m = some n) : PushTowards target n := by
  rcases ha with rfl | ha
  · exact pushTowards_pushNext hm h
  obtain ⟨ws, r, hpush, hsame, htarget⟩ := hm
  have hkept : ∀ {s : State} {tick : Option Word} {look : Option (WindowReg × Word)}, SamePush r s →
      PushTowards target { st := s, push := m.push, tick := tick, look := look } :=
    fun hs => ⟨ws, r, hpush, hs, htarget⟩
  rcases ha with rfl | rfl | ⟨off, rfl⟩ | rfl | ⟨i, rfl, hi⟩
  · simp only [microStep] at h
    split at h
    · cases h
    · split at h <;> cases h <;> exact hkept hsame
  · simp only [microStep] at h
    split at h
    · cases h
      exact hkept (hsame.sofTick _ _)
    · cases h
  · simp only [microStep] at h
    repeat' split at h
    all_goals cases h
    exact hkept hsame
  · simp only [microStep] at h
    split at h
    · cases h
      exact hkept ⟨hsame.cfg, hsame.buf, hsame.wptr, hsame.playing, hsame.rem⟩
    · cases h
  · obtain ⟨t, ht, -⟩ := exec_effect i m.st
    simp only [microStep, ht] at h
    split at h
    · cases h
      exact hkept (hsame.reader hi ht)
    · cases h

/-- Settles O59: `PushTowards` holds from the first micro step on, and at the last one nothing is left to push. -/
theorem readersInsideAPushDoNotChangeIt : Obligations.ReadersInsideAPushDoNotChangeIt := by
  intro s t fs acts m ha hacts ht hrun
  rw [exec_push_active ha] at ht
  cases ht
  obtain ⟨m₁, hbegin, hrest⟩ := microRun_cons_some hrun
  rw [microStep_pushBegin_active (m := .idle s) rfl ha] at hbegin
  cases hbegin
  rw [microRun_append, Option.bind_eq_some_iff] at hrest
  obtain ⟨m₂, hmid, hend⟩ := hrest
  have hstart := pushRest_pushedSlots s.muted fs s
  obtain ⟨ws, r, hpush, hsame, htarget⟩ :=
    microRun_keeps (p := PushTowards (pushFrames s.muted fs s)) (fun a hm _ _ hk hs => pushTowards_microStep (hacts a hm) hk hs)
      hmid ⟨_, s, rfl, .refl s, hstart⟩
  obtain ⟨m₃, hlast, hdone⟩ := microRun_cons_some hend
  cases hdone
  cases ws with
  | cons w ws => simp [microStep, hpush] at hlast
  | nil =>
    rw [microStep_pushEnd hpush] at hlast
    cases hlast
    subst htarget
    exact ⟨rfl, hsame.buf.symm, hsame.wptr.symm, hsame.playing.symm⟩

/-! ## Exclusions (R60, R144, R145, R163) -/

theorem microStep_whole_excluded {m : MicroState} {i : Instr} (h : mayRunWhole m i = false) :
    microStep (.whole i) m = none := by
  simp only [microStep, h, Bool.false_eq_true, if_false]

theorem microStep_whole_allowed {m : MicroState} {i : Instr} (h : mayRunWhole m i = true) :
    ∃ t, exec i m.st = .next t ∧ microStep (.whole i) m = some { m with st := t } := by
  obtain ⟨t, ht, -⟩ := exec_effect i m.st
  exact ⟨t, ht, by simp only [microStep, h, if_true, ht]⟩

/-- Something is under way. -/
theorem not_idle {m : MicroState} (h : m.push.isSome = true ∨ m.tick.isSome = true ∨ m.look.isSome = true) :
    (m.push.isNone && m.tick.isNone && m.look.isNone) = false := by
  rcases h with h | h | h
  all_goals
    obtain ⟨x, hx⟩ := Option.isSome_iff_exists.mp h
    simp [hx]

/-- A control event but a window read waits for all three. -/
theorem mayRunWhole_control {i : Instr} (hi : agentOf i = some .controller) (hr : ∀ off, i ≠ .regRead off) (m : MicroState) :
    mayRunWhole m i = (m.push.isNone && m.tick.isNone && m.look.isNone) := by
  cases i with
  | regRead off => exact absurd rfl (hr off)
  | nop | push | consume | sof | capture | fbTx | fbIncomplete => cases hi
  | _ => rfl

theorem mayRunWhole_transport {i : Instr} (hi : agentOf i = some .transport) (m : MicroState) :
    mayRunWhole m i = (m.push.isNone && m.tick.isNone && m.look.isNone) := by
  cases i with
  | fbTx | fbIncomplete => rfl
  | _ => cases hi

theorem mayRunWhole_producer {i : Instr} (hi : agentOf i = some .producer) (m : MicroState) :
    mayRunWhole m i = m.push.isNone := by
  cases i with
  | push => rfl
  | _ => cases hi

theorem mayRunWhole_ticker {i : Instr} (hi : agentOf i = some .ticker) (m : MicroState) :
    mayRunWhole m i = m.tick.isNone := by
  cases i with
  | sof | capture => rfl
  | _ => cases hi

theorem mayRunWhole_consumer {i : Instr} (hi : agentOf i = some .consumer) (m : MicroState) : mayRunWhole m i = true := by
  cases i with
  | consume => rfl
  | _ => cases hi

/-- Any control event waits for a derived read under way. -/
theorem mayRunWhole_control_of_look {i : Instr} (hi : agentOf i = some .controller) {m : MicroState}
    (hl : m.look.isSome = true) : mayRunWhole m i = false := by
  by_cases hr : ∃ off, i = .regRead off
  · obtain ⟨off, rfl⟩ := hr
    simpa [mayRunWhole] using hl
  · rw [mayRunWhole_control hi (not_exists.mp hr), not_idle (.inr (.inr hl))]

/-- Settles O60: each clause is `mayRunWhole` at its agent. -/
theorem pushAndTickExcludeControlAndTheirOwnAgent : Obligations.PushAndTickExcludeControlAndTheirOwnAgent := by
  refine fun m i => ⟨fun hp => ⟨fun hc hr => ?_, fun hown => ?_, fun fs => ?_⟩, fun ht => ⟨fun hc hr => ?_, fun hown => ?_, ?_⟩,
    fun hl => ⟨fun hc => microStep_whole_excluded (mayRunWhole_control_of_look hc hl), fun off => ?_⟩,
    fun hany htr => microStep_whole_excluded ?_, fun hfree => microStep_whole_allowed ?_⟩
  · exact microStep_whole_excluded (by rw [mayRunWhole_control hc hr, not_idle (.inl hp)])
  · exact microStep_whole_excluded (by rw [mayRunWhole_producer hown]; simpa using hp)
  · simp only [microStep, if_pos hp]
  · exact microStep_whole_excluded (by rw [mayRunWhole_control hc hr, not_idle (.inr (.inl ht))])
  · exact microStep_whole_excluded (by rw [mayRunWhole_ticker hown]; simpa using ht)
  · simp only [microStep, if_pos ht]
  · simp only [microStep, if_pos hl]
  · rw [mayRunWhole_transport htr, not_idle hany]
  · rcases hfree with hc | ⟨ht, hown⟩ | ⟨hl, off, rfl⟩
    · exact mayRunWhole_consumer hc m
    · rw [mayRunWhole_ticker hown, ht]; rfl
    · rw [mayRunWhole, hl]; rfl

end Sys2Proof.Machine
end
